-- ==== Sys2Proof/Word.lean ====
section
/-! DEFINITION. Words of darc2json-core: the host command word, bytes, the fixed-length bit sequences of the
frame, and the carrier of the datapath's numeric type `Num` (00_scope.md R5, R9). -/

namespace Sys2Proof

/-- One byte of a payload; bit 7 is the first bit received (20_memory.md R66). -/
abbrev Byte := BitVec 8

/-- One host command `cmd[63:0]` (30_encoding.md R80). -/
abbrev CmdWord := BitVec 64

/-- The 16-bit value of `SYNC.SR`; bit 15 is the oldest bit (20_memory.md R64). -/
abbrev BicWord := BitVec 16

/-- The 272 frame bits. Bit sequences of a fixed length n are `BitVec n` with `f[0]`, the first bit, as the
most significant bit (00_scope.md R9, 20_memory.md R63). -/
abbrev Frame := BitVec 272

/-- The 176-bit information field, `frame[0..175]` (30_encoding.md R85). -/
abbrev Info := BitVec 176

/-- A value of the datapath's numeric type `Num` (00_scope.md R5, OPEN): whether it is a finite number, and a code that
names it. Codes are names, so chosen that the code of a finite number has the number's sign, that of its negative is the
opposite, and 1, 2 and 3 name the numbers 1, π/2 and π; which other number a code names is left open (log 3). -/
structure Scalar where
  finite : Bool
  code   : Int
  deriving DecidableEq, Repr, Inhabited

namespace Scalar

/-- The number 0. -/
def zero : Scalar := ⟨true, 0⟩

/-- The number 1. -/
def one : Scalar := ⟨true, 1⟩

/-- The number -1. -/
def negOne : Scalar := ⟨true, -1⟩

/-- The angle π/2. -/
def halfPi : Scalar := ⟨true, 2⟩

/-- The angle π. -/
def pi : Scalar := ⟨true, 3⟩

/-- `x` read as a finite number: for a parameter or a function of 42_demodulator.md that a rule calls real. -/
def real (x : Scalar) : Scalar := { x with finite := true }

end Scalar

/-- A complex `Num` (10_state.md R29, R32). -/
structure Cplx where
  re : Scalar
  im : Scalar
  deriving DecidableEq, Repr, Inhabited

/-- 0 + 0j. -/
def Cplx.zero : Cplx := ⟨Scalar.zero, Scalar.zero⟩

end Sys2Proof
end

