-- ==== Sys2Proof/Config.lean ====
section
/-! DEFINITION. The parameters of 00_scope.md R5, R6, R7 at the values the spec gives them (R8 allows a model
to fix the defaults, log 13), and the parameters it leaves OPEN as constants without a body (log 3 to 7). -/

namespace Sys2Proof.Config

/-! ## Rates (R5) -/

/-- `BIT_RATE`, bit/s. -/
def bitRate : Nat := 16000
/-- `F_SUB`, Hz. -/
def fSub : Nat := 76000
/-- `SPS`, samples per bit at the discriminator. -/
def sps : Nat := 8
/-- `F_SYM = BIT_RATE × SPS`. -/
def fSym : Nat := bitRate * sps
/-- `DEC`, the decimation factor (decision D3). -/
def dec : Nat := 2
/-- `F_INT = F_SYM × DEC`, the sample-port rate (decision D3). -/
def fInt : Nat := fSym * dec
/-- `INC_C = floor(F_SUB × 2^32 / F_INT)`. -/
def incC : BitVec 32 := BitVec.ofNat 32 (fSub * 2 ^ 32 / fInt)
/-- `INC_T = floor((BIT_RATE/2) × 2^32 / F_SYM)`. -/
def incT : BitVec 32 := BitVec.ofNat 32 (bitRate / 2 * 2 ^ 32 / fSym)
/-- `FIR_TAPS`. -/
def firTaps : Nat := 256
/-- `RATIO_MAX` = 4: the largest legal `F_INT / FS_IN`. -/
def ratioMax : Nat := 4
/-- 1 / `RATIO_MIN` = 250: `RATIO_MIN` = 0.004 is the smallest legal `F_INT / FS_IN`. -/
def ratioMinInv : Nat := 250

/-! ## The OPEN numeric type: its operations (42_demodulator.md R180, decision D6) -/

/-- `+` of `Num`. -/
opaque addNum : Scalar → Scalar → Scalar
/-- `×` of `Num`. -/
opaque mulNum : Scalar → Scalar → Scalar
/-- `|·|` of a complex number, from its real and imaginary parts. -/
opaque magNum : Scalar → Scalar → Scalar
/-- `arg` of a complex number, from its real and imaginary parts. -/
opaque argNum : Scalar → Scalar → Scalar
/-- `cosP`: cos(2π·P/2^32). -/
opaque cosNum : BitVec 32 → Scalar
/-- `sinP`: sin(2π·P/2^32). -/
opaque sinNum : BitVec 32 → Scalar
/-- The comparison `> 0` of a value that is not a finite number. -/
opaque posNum : Scalar → Bool
/-- The order of two positive numbers, which the range of `arg` in R192 uses. -/
opaque lessNum : Scalar → Scalar → Bool
/-- `r^x`, which the default `agc_update` of R187 uses. -/
opaque powNum : Scalar → Scalar → Scalar
/-- The number a binary32 pattern denotes, in `Num` (30_encoding.md R82, 93 I5). -/
opaque numOfBinary32 : BitVec 32 → Scalar
/-- `round(x · 2^32 / 2π)` as a phase word (R183). -/
opaque phaseOfNum : Scalar → BitVec 32

/-! ## The OPEN datapath parameters (R5) -/

/-- `FIR_COEF`, `h[0..255]` (decision D7). -/
opaque firCoef : Nat → Scalar
/-- `AGC_BW` (decision D8). -/
opaque agcBw : Scalar
/-- `AGC_G0` (decision D8). -/
opaque agcG0 : Scalar

/-! ## PLL (R5, R183, R184; decision D5) -/

/-- `PLL_ALPHA_C`. -/
def pllAlphaC : Scalar := Scalar.zero
/-- `PLL_BETA_C`. -/
def pllBetaC : Scalar := Scalar.zero
/-- `PLL_ALPHA_T`. -/
def pllAlphaT : Scalar := Scalar.zero
/-- `PLL_BETA_T`. -/
def pllBetaT : Scalar := Scalar.zero
/-- `PHASE_DETECTOR` for `e_c`: the default, the constant 0 (R184). -/
def phaseErrorC : Scalar := Scalar.zero
/-- `PHASE_DETECTOR` for `e_t`: the default, the constant 0 (R184). -/
def phaseErrorT : Scalar := Scalar.zero

/-! ## Framing (R6) -/

/-- `BIC1`. -/
def bic1 : BicWord := 0x135E#16
/-- `BIC2`. -/
def bic2 : BicWord := 0x74A6#16
/-- `BIC3`. -/
def bic3 : BicWord := 0xA791#16
/-- `BIC4`. -/
def bic4 : BicWord := 0xC875#16
/-- `FRAME_BITS`. -/
def frameBits : Nat := 272
/-- `INFO_BITS`. -/
def infoBits : Nat := 176
/-- `SCR_LEN`. -/
def scrLen : Nat := 304
/-- `SCR_SEED` (decision D15). -/
def scrSeed : BitVec 9 := 0x1FF#9
/-- `G82`, low part (41_bitutil_crc.md R154). -/
def g82 : BitVec 82 := 0x308C0111011401440411#82
/-- `G14`, low part (R154). -/
def g14 : BitVec 14 := 0x0805#14

/-! ## Reassembly (R7) -/

/-- `SILC_SECH`. -/
def silcSech : BitVec 4 := 0x8#4
/-- `SILC_LONG`. -/
def silcLong : BitVec 4 := 0xA#4
/-- `SILC_BMCH`. -/
def silcBmch : BitVec 4 := 0xB#4
/-- Bytes of payload in one SeCH or LMCh block (`SECH_PAYLOAD_BITS` / 8, `LONG_PAYLOAD_BYTES`). -/
def blockPayloadBytes : Nat := 19
/-- `SECH_MAX_BLOCKS`. -/
def sechMaxBlocks : Nat := 16
/-- `CRC6_POLY`, low part (decision D25). -/
def crc6Poly : BitVec 6 := 0x03#6
/-- `CRC8_POLY`, low part (decision D25). -/
def crc8Poly : BitVec 8 := 0x07#8
/-- `L4_TYPE_TLV`. -/
def l4TypeTlv : BitVec 4 := 12#4
/-- `LONG_MAX_BYTES` (decision D29). -/
def longMaxBytes : Nat := 4864
/-- The data type whose payload the block decodes (44_reassembler.md R277). -/
def dtNameTime : BitVec 4 := 5#4

end Sys2Proof.Config
end

