-- ==== Sys2Proof/Machine/BitUtil.lean ====
section
/-! DEFINITION. The bit utilities of 41_bitutil_crc.md §1: field extraction in both bit orders (R150), byte and bit
conversion (R151), hex rendering (R152). -/

namespace Sys2Proof.Machine

/-- `msb(f, off, w)`: the field of `w` bits from bit `off` on, the first bit the most significant (00_scope.md R9). -/
def msb {n : Nat} (f : BitVec n) (off w : Nat) : BitVec w :=
  f.extractLsb' (n - off - w) w

/-- `lsb(f, off, w)`: the same bits, the first bit the least significant (R9). -/
def lsb {n : Nat} (f : BitVec n) (off w : Nat) : BitVec w :=
  (msb f off w).reverse

/-- `f[i]`, the (i+1)-th bit in arrival order (R9). -/
def bitAt {n : Nat} (f : BitVec n) (i : Nat) : Bool :=
  f.getMsbD i

/-- The bits of `f` in arrival order, `f[0]` first: `bits_n` of R9. -/
def seqOf {n : Nat} (f : BitVec n) : List Bool :=
  (List.range n).map (bitAt f)

/-- `bytes(f)`: byte j is `msb(f, 8j, 8)` (R151). -/
def bytesOf {n : Nat} (f : BitVec n) : List Byte :=
  (List.range (n / 8)).map fun j => msb f (8 * j) 8

/-- `bits(Bs)`: the bits of each byte in order, first bit of a byte its bit 7 (R151). -/
def bitsOf (bytes : List Byte) : List Bool :=
  bytes.flatMap seqOf

/-- The number a byte string denotes, first byte most significant (20_memory.md R67). -/
def beNat (bytes : List Byte) : Nat :=
  bytes.foldl (fun acc b => acc * 256 + b.toNat) 0

/-- The lower-case hexadecimal digit of a nibble. -/
def hexDigit (v : BitVec 4) : Char :=
  if v.toNat < 10 then Char.ofNat (48 + v.toNat) else Char.ofNat (87 + v.toNat)

/-- The digits of `hex(Bs)`: for each byte its high nibble, then its low nibble (R152). -/
def hexDigits (bytes : List Byte) : List Char :=
  bytes.flatMap fun b => [hexDigit (msb b 0 4), hexDigit (msb b 4 4)]

/-- `hex(Bs)` (R152). -/
def hex (bytes : List Byte) : String :=
  String.ofList (hexDigits bytes)

end Sys2Proof.Machine
end

