-- ==== Sys2Proof/Syntax.lean ====
section
/-! DEFINITION. The instructions: one constructor per row of spec/opcode_table.json. The rows have four formats:
CMD64 (host commands, 30_encoding.md R81), BIC16 (R84), INFO8 (information-field routes, R86) and L4B0 (long-message
headers, R96). The last three are decoded inside the step of a SAMPLE or BIT command (log 11). Reserved bits that the
block ignores are no operand (R83, R87, R88). -/

namespace Sys2Proof

/-- `CFG.MODE` (00_scope.md R12). -/
inductive InputMode where
  | samples
  | bits
  deriving DecidableEq, Repr, Inhabited

/-- The fields of an information field with SILC 0x8 (30_encoding.md R87); info bit 23 is ignored. -/
structure SechBlock where
  /-- `LF`, last-fragment flag. -/
  lf  : Bool
  /-- `DU`, data-update counter. -/
  du  : BitVec 2
  /-- `CID`, country id. -/
  cid : BitVec 4
  /-- `DT`, data type. -/
  dt  : BitVec 4
  /-- `NID`, network id. -/
  nid : BitVec 4
  /-- `BN`, block sequence number. -/
  bn  : BitVec 4
  /-- `PAY`, the 152 payload bits. -/
  pay : BitVec 152
  deriving DecidableEq, Repr, Inhabited

/-- The fields of an information field with SILC 0xA (30_encoding.md R88); info bits 22 and 23 are ignored. -/
structure LongBlock where
  /-- `LF`, last-fragment flag. -/
  lf    : Bool
  /-- `SEQ`, sequence counter. -/
  seq   : BitVec 4
  /-- `MH_RSV`, the rest of the mini-header: covered by the CRC, not interpreted. -/
  mhRsv : BitVec 7
  /-- `C6`, the CRC-6 received. -/
  c6    : BitVec 6
  /-- `PAY`, the 152 payload bits. -/
  pay   : BitVec 152
  deriving DecidableEq, Repr, Inhabited

/-- A long message with `CA` = 0, split by the L4 header layout (30_encoding.md R96). -/
structure L4Message where
  /-- `F`, first-segment flag. -/
  first : Bool
  /-- `L`, last-segment flag. -/
  last  : Bool
  /-- The extension byte; present iff `E` = 1. -/
  ext   : Option Byte
  /-- `B[HL]`, the CRC-8 received. -/
  crc   : Byte
  /-- `B[HL+1..]`, the message data. -/
  data  : List Byte
  deriving DecidableEq, Repr, Inhabited

/-- What reading a byte string as a long message gives (30_encoding.md R96). -/
inductive L4Read where
  /-- No byte 0. -/
  | empty
  /-- The extension byte or the CRC-8 byte is missing. -/
  | truncated
  /-- `CA` = 1: the header's fields and the bytes after byte 0, not interpreted. -/
  | audience (first last ext : Bool) (type : BitVec 4) (rest : List Byte)
  /-- `CA` = 0: the type code and the rest. -/
  | message (type : BitVec 4) (m : L4Message)
  deriving DecidableEq, Repr

/-- One constructor per row of spec/opcode_table.json. -/
inductive Instr where
  /-- `NOP` (R121). -/
  | nop
  /-- `RESET` (R122). -/
  | reset
  /-- `CONFIG` with `MODE` and `FS_IN` (R123). -/
  | config (mode : InputMode) (fsIn : BitVec 32)
  /-- `SAMPLE` with the binary32 pattern `X` (R124). -/
  | sample (x : BitVec 32)
  /-- `BIT` with `B` (R125). -/
  | bit (b : Bool)
  /-- `EOS` (R126). -/
  | eos
  /-- Reserved opcodes 0x6 and 0x7: the low bit of the opcode (R127). -/
  | reserved67 (low : BitVec 1)
  /-- Reserved opcodes 0x8 to 0xF: the low three bits of the opcode (R127). -/
  | reserved8F (low : BitVec 3)
  /-- `SYNC.SR` = BIC1 (R232). -/
  | bic1
  /-- `SYNC.SR` = BIC2 (R232). -/
  | bic2
  /-- `SYNC.SR` = BIC3 (R232). -/
  | bic3
  /-- `SYNC.SR` = BIC4 (R232). -/
  | bic4
  /-- SILC 0x8, a service-message block (R272). -/
  | sech (b : SechBlock)
  /-- SILC 0xA, a long-message block (R282). -/
  | lmch (b : LongBlock)
  /-- SILC 0xB, subchannel 0, a block application message (R292). -/
  | bmch (payload : BitVec 168)
  /-- SILC 0xB, subchannel other than 0 (R293). -/
  | bmchOtherSub (sub : BitVec 4) (payload : BitVec 168)
  /-- SILC 0x0 to 0x7: the low three bits of the SILC and the rest of the field (R271). -/
  | silc07 (silc : BitVec 3) (rest : BitVec 172)
  /-- SILC 0x9 (R271). -/
  | silc9 (rest : BitVec 172)
  /-- SILC 0xC to 0xF: the low two bits of the SILC and the rest of the field (R271). -/
  | silcCF (silc : BitVec 2) (rest : BitVec 172)
  /-- Complete-audience message (R288). -/
  | l4Ca (first last ext : Bool) (type : BitVec 4) (rest : List Byte)
  /-- Type 12 message (R290, R291). -/
  | l4Tlv (m : L4Message)
  /-- Message of another type (R290). -/
  | l4Payload (type : BitVec 4) (m : L4Message)
  deriving DecidableEq, Repr

/-- An encoded instruction, by the place where the block meets it: the command port, `SYNC.SR`, the information
field of an accepted block, the assembled long message. -/
inductive Encoded where
  | cmd  (w : CmdWord)
  | bic  (v : BicWord)
  | info (f : Info)
  | l4   (bytes : List Byte)
  deriving DecidableEq, Repr

/-- Why an encoding is none of the table's instructions. -/
inductive Reject where
  /-- A 16-bit value other than the four BICs (R232). -/
  | notABic
  /-- A long message without byte 0. -/
  | l4Empty
  /-- A long message that ends before its CRC-8 byte. -/
  | l4Truncated
  deriving DecidableEq, Repr

/-- What the decoder answers. -/
inductive Decoded where
  | instr  (i : Instr)
  | reject (r : Reject)
  deriving DecidableEq, Repr

end Sys2Proof
end

