-- ==== Sys2Proof/Machine/Operands.lean ====
section
/-! DEFINITION. Operand assembly: the fields of the command word (30_encoding.md R82), of the information field
(R86 to R89) and of the long message (R96). Every field is read first bit most significant (20_memory.md R65). -/

namespace Sys2Proof.Machine

/-! ## Host command word -/

/-- `OP = cmd[63:60]` (R80). -/
def cmdOp (w : CmdWord) : BitVec 4 := w.extractLsb' 60 4

/-- `MODE = cmd[32]`: 0 SAMPLES, 1 BITS (R82). -/
def cmdMode (w : CmdWord) : InputMode := if w.getLsbD 32 then .bits else .samples

/-- `FS_IN = cmd[31:0]`, unsigned (R82). -/
def cmdFsIn (w : CmdWord) : BitVec 32 := w.extractLsb' 0 32

/-- `X = cmd[31:0]`, a binary32 pattern (R82). -/
def cmdX (w : CmdWord) : BitVec 32 := w.extractLsb' 0 32

/-- `B = cmd[0]` (R82). -/
def cmdB (w : CmdWord) : Bool := w.getLsbD 0

/-! ## Information field -/

/-- `SILC = msb(info, 0, 4)` (R86). -/
def infoSilc (f : Info) : BitVec 4 := msb f 0 4

/-- `SUB = msb(info, 4, 4)` (R89). -/
def infoSub (f : Info) : BitVec 4 := msb f 4 4

/-- The SechBlock fields (R87, R272). -/
def sechFields (f : Info) : SechBlock where
  lf  := bitAt f 4
  du  := msb f 5 2
  cid := msb f 7 4
  dt  := msb f 11 4
  nid := msb f 15 4
  bn  := msb f 19 4
  pay := msb f 24 152

/-- The LongBlock fields (R88, R282). -/
def longFields (f : Info) : LongBlock where
  lf    := bitAt f 4
  seq   := msb f 5 4
  mhRsv := msb f 9 7
  c6    := msb f 16 6
  pay   := msb f 24 152

/-- The 168 bits after the 8-bit header (R89). -/
def bmchPayload (f : Info) : BitVec 168 := msb f 8 168

/-- The 16-bit mini-header of a LongBlock, info bits 0..15 (R88). -/
def miniHeader (b : LongBlock) : BitVec 16 :=
  Config.silcLong ++ BitVec.ofBool b.lf ++ b.seq ++ b.mhRsv

/-! ## Long message -/

/-- Byte 0 of a long message from its fields (R96). -/
def l4Byte0 (first last ext ca : Bool) (type : BitVec 4) : Byte :=
  BitVec.ofBool first ++ BitVec.ofBool last ++ BitVec.ofBool ext ++ BitVec.ofBool ca ++ type

/-- The header bytes `B[0..HL-1]` of a message with `CA` = 0 (R96). -/
def l4HeaderBytes (type : BitVec 4) (m : L4Message) : List Byte :=
  l4Byte0 m.first m.last m.ext.isSome false type :: m.ext.toList

/-- The bytes after byte 0 of a message with `CA` = 0, split at `HL = 1 + E` (R96). -/
def l4Split (first last ext : Bool) (type : BitVec 4) : List Byte → L4Read
  | [] => .truncated
  | b1 :: rest =>
    if ext then
      match rest with
      | [] => .truncated
      | c :: data => .message type { first, last, ext := some b1, crc := c, data }
    else .message type { first, last, ext := none, crc := b1, data := rest }

/-- Reads a byte string by the L4 layout (R96); `CA` is tested first (44_reassembler.md R288). -/
def readL4 : List Byte → L4Read
  | [] => .empty
  | b0 :: rest =>
    if b0.getLsbD 4 then
      .audience (b0.getLsbD 7) (b0.getLsbD 6) (b0.getLsbD 5) (b0.extractLsb' 0 4) rest
    else l4Split (b0.getLsbD 7) (b0.getLsbD 6) (b0.getLsbD 5) (b0.extractLsb' 0 4) rest

end Sys2Proof.Machine
end

