-- ==== Sys2Proof/Machine/Crc.lean ====
section
/-! DEFINITION. The CRC engine (41_bitutil_crc.md R153) and its instances (R154), the syndrome (R156) and the
encoder (R158). -/

namespace Sys2Proof.Machine

/-- One bit through the CRC register (R153): feedback is the register's top bit XOR the input bit. -/
def crcBit {W : Nat} (p : BitVec W) (reg : BitVec W) (b : Bool) : BitVec W :=
  if reg.msb ^^ b then (reg <<< 1) ^^^ p else reg <<< 1

/-- `crc_W,P(f)`: most significant bit first, initial value 0, no final XOR (R153). -/
def crc {W : Nat} (p : BitVec W) (f : List Bool) : BitVec W :=
  f.foldl (crcBit p) 0#W

/-- LMCh mini-header CRC-6 over info bits 0..15 (R154, R283). -/
def crc6 (f : List Bool) : BitVec 6 := crc Config.crc6Poly f

/-- L4 header CRC-8 (R154, R289). -/
def crc8 (f : List Bool) : BitVec 8 := crc Config.crc8Poly f

/-- L2 CRC-14, carried and never checked (R154, R85). -/
def crc14 (f : List Bool) : BitVec 14 := crc Config.g14 f

/-- The CRC with generator `G82` (R154). -/
def crc82 (f : List Bool) : BitVec 82 := crc Config.g82 f

/-- `syn(frame)` (R156). -/
def syn (f : Frame) : BitVec 82 := crc82 (seqOf f)

/-- `e_i`: the frame with only bit i set (R160); all zero when there is no bit i. -/
def unitFrame (i : Nat) : Frame := BitVec.twoPow 272 271 >>> i

/-- `info ++ bits_14(crc_14(info))` (R158). -/
def withCrc14 (info : Info) : BitVec 190 :=
  info ++ crc14 (seqOf info)

/-- `encode(info)`: the error-free frame of an information field (R158). -/
def encodeFrame (info : Info) : Frame :=
  withCrc14 info ++ crc82 (seqOf (withCrc14 info))

/-- `frame[0..175]` (R85). -/
def infoOf (f : Frame) : Info := msb f 0 176

end Sys2Proof.Machine
end

