-- ==== Sys2Proof/Machine/Rom.lean ====
section
/-! DEFINITION. The constant tables (10_state.md R45, 70_reset_and_hazards.md R373): `ROM.BIC`, `ROM.SCR`, `ROM.SYN`
with its lookup, `ROM.FIR`. -/

namespace Sys2Proof.Machine

/-- `ROM.BIC[1..4]` (30_encoding.md R84). -/
def romBic : List BicWord := [Config.bic1, Config.bic2, Config.bic3, Config.bic4]

/-- `is_bic(v)`: compared on all 16 bits (43_l2_sync.md R232). -/
def isBic (v : BicWord) : Bool := romBic.contains v

/-- `ROM.SCR[0..303]`, first bit most significant: the default contents (41_bitutil_crc.md R170). -/
def romScr : BitVec 304 :=
  0xFF83DF1732094ED1E7CD8A91C6D5C4C44021184E5586F4DC8A15A7EC92DF93533018CA34BFA2#304

/-- `ROM.SCR[i]`. -/
def scrAt (i : Nat) : Bool := bitAt romScr i

/-- The generator of R170: `window` holds a[k-9] to a[k-1], oldest first; a[k] = a[k-5] XOR a[k-9]. -/
def scrLfsr : Nat → BitVec 9 → List Bool
  | 0, _ => []
  | k + 1, window =>
    bitAt window 0 :: scrLfsr k ((window <<< 1) ||| (BitVec.ofBool (bitAt window 4 ^^ bitAt window 0)).setWidth 9)

/-- A frame XOR the scrambling sequence, position by position (R172). -/
def scramble (f : Frame) : Frame := f ^^^ msb romScr 0 272

/-- `ROM.SYN[i] = syn(e_i)` (R160). -/
def romSyn (i : Nat) : BitVec 82 := syn (unitFrame i)

/-- `find(s)`: the least i with `ROM.SYN[i] = s` (R162). -/
def findSyn (s : BitVec 82) : Option Nat :=
  (List.range Config.frameBits).find? fun i => romSyn i == s

/-- `ROM.FIR[i]`: `FIR_COEF`, real taps (42_demodulator.md R186). -/
def romFir (i : Nat) : Scalar := Scalar.real (Config.firCoef i)

end Sys2Proof.Machine
end

