-- ==== Sys2Proof/WellFormed.lean ====
section
/-! DEFINITION. Which terms of `Instr` the encodings of spec/30_encoding.md can carry: every field's width is in its
type, so two rows remain, whose table entry excludes values that an earlier row of the same format takes. -/

namespace Sys2Proof

/-- The instruction is one that some encoding stands for: `BMCH_OTHER_SUB` has a subchannel other than 0 (R86), and
`L4_PAYLOAD` a type code other than 12 (R92). -/
def Instr.wellFormed : Instr → Bool
  | .bmchOtherSub sub _ => sub != 0#4
  | .l4Payload type _ => type != Config.l4TypeTlv
  | .nop => true
  | .reset => true
  | .config _ _ => true
  | .sample _ => true
  | .bit _ => true
  | .eos => true
  | .reserved67 _ => true
  | .reserved8F _ => true
  | .bic1 => true
  | .bic2 => true
  | .bic3 => true
  | .bic4 => true
  | .sech _ => true
  | .lmch _ => true
  | .bmch _ => true
  | .silc07 _ _ => true
  | .silc9 _ => true
  | .silcCF _ _ => true
  | .l4Ca _ _ _ _ _ => true
  | .l4Tlv _ => true

end Sys2Proof
end

