-- ==== Sys2Proof/Decode.lean ====
section
/-! DEFINITION. The decoder of the four formats of spec/opcode_table.json, total, rejecting by name, and the encoder
written from the same tables (30_encoding.md R81, R84, R86 to R89, R96). -/

namespace Sys2Proof

open Machine

/-- The opcode map of `OP` (R81): every value is decoded. -/
def decodeCmd (w : CmdWord) : Instr :=
  let op := cmdOp w
  if op = 0x0#4 then .nop
  else if op = 0x1#4 then .reset
  else if op = 0x2#4 then .config (cmdMode w) (cmdFsIn w)
  else if op = 0x3#4 then .sample (cmdX w)
  else if op = 0x4#4 then .bit (cmdB w)
  else if op = 0x5#4 then .eos
  else if op.msb then .reserved8F (op.extractLsb' 0 3)
  else .reserved67 (op.extractLsb' 0 1)

/-- The BIC map (R84, 43_l2_sync.md R232). -/
def decodeBic (v : BicWord) : Option Instr :=
  if v = Config.bic1 then some .bic1
  else if v = Config.bic2 then some .bic2
  else if v = Config.bic3 then some .bic3
  else if v = Config.bic4 then some .bic4
  else none

/-- The routing map (R86). -/
def decodeInfo (f : Info) : Instr :=
  let silc := infoSilc f
  if silc = Config.silcSech then .sech (sechFields f)
  else if silc = Config.silcLong then .lmch (longFields f)
  else if silc = Config.silcBmch then
    if infoSub f = 0#4 then .bmch (bmchPayload f) else .bmchOtherSub (infoSub f) (bmchPayload f)
  else if silc.msb = false then .silc07 (silc.extractLsb' 0 3) (msb f 4 172)
  else if silc = 0x9#4 then .silc9 (msb f 4 172)
  else .silcCF (silc.extractLsb' 0 2) (msb f 4 172)

/-- The long-message routes, in the table's first-match order: `CA`, type 12, every other type (R96, R288, R290). -/
def decodeL4 (bytes : List Byte) : Decoded :=
  match readL4 bytes with
  | .empty => .reject .l4Empty
  | .truncated => .reject .l4Truncated
  | .audience first last ext type rest => .instr (.l4Ca first last ext type rest)
  | .message type m => if type = Config.l4TypeTlv then .instr (.l4Tlv m) else .instr (.l4Payload type m)

/-- The decoder: total over every encoding of every format. -/
def decode : Encoded → Decoded
  | .cmd w => .instr (decodeCmd w)
  | .bic v =>
    match decodeBic v with
    | some i => .instr i
    | none => .reject .notABic
  | .info f => .instr (decodeInfo f)
  | .l4 bytes => decodeL4 bytes

/-! ## The encoder -/

/-- A command word with opcode `op` and low 60 bits `low`; reserved bits are 0 (R81, R83). -/
def cmdWord (op : BitVec 4) (low : BitVec 60) : CmdWord := op ++ low

/-- `CMD.MODE` as a bit (R82). -/
def modeBit : InputMode → BitVec 1
  | .samples => 0#1
  | .bits => 1#1

/-- The information field of a SechBlock (R87); info bit 23 is 0. -/
def encodeSech (b : SechBlock) : Info :=
  Config.silcSech ++ BitVec.ofBool b.lf ++ b.du ++ b.cid ++ b.dt ++ b.nid ++ b.bn ++ 0#1 ++ b.pay

/-- The information field of a LongBlock (R88); info bits 22 and 23 are 0. -/
def encodeLong (b : LongBlock) : Info :=
  miniHeader b ++ b.c6 ++ 0#2 ++ b.pay

/-- The bytes of a long message with `CA` = 0 (R96). -/
def encodeL4 (type : BitVec 4) (m : L4Message) : List Byte :=
  l4HeaderBytes type m ++ m.crc :: m.data

/-- The encoder: the words of an instruction. -/
def encode : Instr → Encoded
  | .nop => .cmd (cmdWord 0x0#4 0#60)
  | .reset => .cmd (cmdWord 0x1#4 0#60)
  | .config mode fsIn => .cmd (cmdWord 0x2#4 (0#27 ++ modeBit mode ++ fsIn))
  | .sample x => .cmd (cmdWord 0x3#4 (0#28 ++ x))
  | .bit b => .cmd (cmdWord 0x4#4 (0#59 ++ BitVec.ofBool b))
  | .eos => .cmd (cmdWord 0x5#4 0#60)
  | .reserved67 low => .cmd (cmdWord (0b011#3 ++ low) 0#60)
  | .reserved8F low => .cmd (cmdWord (1#1 ++ low) 0#60)
  | .bic1 => .bic Config.bic1
  | .bic2 => .bic Config.bic2
  | .bic3 => .bic Config.bic3
  | .bic4 => .bic Config.bic4
  | .sech b => .info (encodeSech b)
  | .lmch b => .info (encodeLong b)
  | .bmch payload => .info (Config.silcBmch ++ 0#4 ++ payload)
  | .bmchOtherSub sub payload => .info (Config.silcBmch ++ sub ++ payload)
  | .silc07 silc rest => .info (0#1 ++ silc ++ rest)
  | .silc9 rest => .info (0x9#4 ++ rest)
  | .silcCF silc rest => .info (0b11#2 ++ silc ++ rest)
  | .l4Ca first last ext type rest => .l4 (l4Byte0 first last ext true type :: rest)
  | .l4Tlv m => .l4 (encodeL4 Config.l4TypeTlv m)
  | .l4Payload type m => .l4 (encodeL4 type m)

/-! ## Words of the opcode table -/

/-- The information field whose first 8 bits are `w` and whose other bits are 0. -/
def infoOfHeader (w : Nat) : Info := BitVec.ofNat 8 w ++ 0#168

/-- The instruction the decoder reads from a table word: 64 bits are a command, 16 bits a value of `SYNC.SR`, 8 bits the
header of an information field. A table row of format L4B0 has 8 bits too, and every byte is a header in both formats:
this function reads it as the router does, since the router meets it first (log 12); `decode (.l4 …)` reads the others. -/
def decodeTableWord (nbits w : Nat) : Option Instr :=
  if nbits = 64 then some (decodeCmd (BitVec.ofNat 64 w))
  else if nbits = 16 then decodeBic (BitVec.ofNat 16 w)
  else if nbits = 8 then some (decodeInfo (infoOfHeader w))
  else none

end Sys2Proof
end

