-- ==== Sys2Proof/Machine/Numeric.lean ====
section
/-! DEFINITION. The operations of `Num` as the datapath uses them (42_demodulator.md R180): the constants of Config
where nothing is stated, and the values the rules state in exact arithmetic (R182, R183, R186, R187, R192, R193, R197;
log 3, 4, 5, 7, 15, 21). -/

namespace Sys2Proof.Machine

/-- `−x`: the number named by the opposite code (log 3). -/
def numNeg (x : Scalar) : Scalar := { x with code := -x.code }

/-- `|x|` of a real. -/
def numAbs (x : Scalar) : Scalar := { x with code := x.code.natAbs }

/-- `x > 0`: the code of a finite number has its sign (log 3); of any other value it is open. -/
def numPos (x : Scalar) : Bool := if x.finite then decide (0 < x.code) else Config.posNum x

/-- `a < b` of finite numbers: by sign, then by size; the sizes of 1, π/2 and π are known (log 3). -/
def numLess (a b : Scalar) : Bool :=
  if a.code.sign < b.code.sign then true
  else if b.code.sign < a.code.sign then false
  else if 0 < a.code then positiveLess a b
  else positiveLess (numNeg b) (numNeg a)
where
  /-- Two positive numbers, or 0 and 0. -/
  positiveLess (a b : Scalar) : Bool :=
    if a = b then false
    else if a.code ≤ Scalar.pi.code ∧ b.code ≤ Scalar.pi.code then decide (a.code < b.code)
    else Config.lessNum a b

/-- `a + b`: adding 0 changes nothing. -/
def numAdd (a b : Scalar) : Scalar :=
  if a = Scalar.zero then b
  else if b = Scalar.zero then a
  else Config.addNum a b

/-- `x` with the sign that `s` has: 0 for `s` = 0. -/
def withSign (s : Int) (x : Scalar) : Scalar := { x with code := s.sign * x.code.natAbs }

/-- `k × x`: a product with 0 is 0 where the other factor is finite, 1 is neutral, and a product of finite numbers has
the sign of the factors together, unless it is 0 (log 4). -/
def numMul (k x : Scalar) : Scalar :=
  if x = Scalar.zero ∧ k.finite = true then Scalar.zero
  else if k = Scalar.zero ∧ x.finite = true then Scalar.zero
  else if k = Scalar.one then x
  else if x = Scalar.one then k
  else if k.finite = true ∧ x.finite = true then withSign (k.code * x.code) (Config.mulNum k x)
  else Config.mulNum k x

/-- The number a binary32 pattern denotes (30_encoding.md R82): not finite exactly for the infinite and NaN patterns; a
finite one has the sign `cmd[31]` gives it, unless `Num` takes it for 0 (log 15). -/
def numOfBinary32 (x : BitVec 32) : Scalar :=
  if x = 0x00000000#32 ∨ x = 0x80000000#32 then Scalar.zero
  else if x = 0x3F800000#32 then Scalar.one
  else if x = 0xBF800000#32 then Scalar.negOne
  else if x.extractLsb' 23 8 = 0xFF#8 then { Config.numOfBinary32 x with finite := false }
  else withSign (if x.msb then -1 else 1) (Scalar.real (Config.numOfBinary32 x))

/-- `cosP(P)`: a finite number, exact at the quarter turns, elsewhere of the sign the cosine has (R180, R182, R196). -/
def cosP (p : BitVec 32) : Scalar :=
  if p = 0x00000000#32 then Scalar.one
  else if p = 0x80000000#32 then Scalar.negOne
  else if p = 0x40000000#32 ∨ p = 0xC0000000#32 then Scalar.zero
  else withSign (if (p + 0x40000000#32).msb then -1 else 1) (Scalar.real (Config.cosNum p))

/-- `sinP(P)`: a finite number, exact at the quarter turns, elsewhere of the sign the sine has (R180, R182). -/
def sinP (p : BitVec 32) : Scalar :=
  if p = 0x00000000#32 ∨ p = 0x80000000#32 then Scalar.zero
  else if p = 0x40000000#32 then Scalar.one
  else if p = 0xC0000000#32 then Scalar.negOne
  else withSign (if p.msb then -1 else 1) (Scalar.real (Config.sinNum p))

/-- `|z|` of a complex number: not negative, and 0 for 0. -/
def cplxMag (z : Cplx) : Scalar :=
  if z = Cplx.zero then Scalar.zero else numAbs (Config.magNum z.re z.im)

/-- In (−π, π], the range of `arg` (R192). -/
def isAngle (d : Scalar) : Bool :=
  d.finite && numLess (numNeg Scalar.pi) d && !numLess Scalar.pi d

/-- π/2 or −π/2, by the sign of an imaginary part. -/
def quarterTurn (im : Scalar) : Scalar := if 0 < im.code then Scalar.halfPi else numNeg Scalar.halfPi

/-- `arg` of a finite number off both axes: open but for its sign, that of the imaginary part, and its range (R192). An
open value outside the range is replaced by one inside (log 4). -/
def slantedArg (z : Cplx) : Scalar :=
  let d := withSign z.im.code (Scalar.real (Config.argNum z.re z.im))
  if isAngle d then d else quarterTurn z.im

/-- `arg(z)`, in (−π, π] for a finite `z` (R192): 0 for 0 and the positive reals, π for the negative reals, ±π/2 on the
imaginary axis (R193). Of a `z` that is not finite it is open (93 I5). -/
def cplxArg (z : Cplx) : Scalar :=
  if z.re.finite = true ∧ z.im.finite = true then
    if z.im.code = 0 then (if z.re.code < 0 then Scalar.pi else Scalar.zero)
    else if z.re.code = 0 then quarterTurn z.im
    else slantedArg z
  else Config.argNum z.re z.im

/-- Sum of complex numbers, part by part (log 21). -/
def cplxAdd (a b : Cplx) : Cplx := ⟨numAdd a.re b.re, numAdd a.im b.im⟩

/-- Product of a real and a complex number, part by part (log 21). -/
def cplxScale (k : Scalar) (z : Cplx) : Cplx := ⟨numMul k z.re, numMul k z.im⟩

/-- `a · conj(b)` (R192), each part built from four operations of `Num`: DESIGN CHOICE, R180 leaves open how a complex
operation is built from real ones (log 21). -/
def cplxMulConj (a b : Cplx) : Cplx :=
  ⟨numAdd (numMul a.re b.re) (numMul a.im b.im),
   numAdd (numMul a.im b.re) (numNeg (numMul a.re b.im))⟩

/-- `round(gain · e · 2^32 / 2π)` as a phase-word increment: 0 for gain 0 (R183). -/
def pllDelta (gain e : Scalar) : BitVec 32 :=
  if gain = Scalar.zero then 0#32 else Config.phaseOfNum (numMul gain e)

/-- `agc_update(g, r)`, the default law `g · r^(−AGC_BW)`, and `g` for r = 0 (R187). Its result is finite and
positive where `g` is, the one property R187 lets a rule use: a value that is not leaves the gain as it was (log 5). -/
def agcUpdate (g r : Scalar) : Scalar :=
  if r = Scalar.zero then g
  else
    let g' := numMul g (Config.powNum r (numNeg Config.agcBw))
    if g'.finite && numPos g' then g' else g

end Sys2Proof.Machine
end

