-- ==== Sys2Proof/Machine/State.lean ====
section
/-! DEFINITION. The state of the block (10_state.md R21 to R44), the outputs of a step (30_encoding.md R90 to R95), the
reasons a step could stop, and the state after reset (10_state.md R49). -/

namespace Sys2Proof.Machine

/-- No step of this block faults: its only error, `ConfigError`, is a status bit and the machine goes on
(60_exceptions.md R340, R344). So there is no fault reason, and nobody raises one. -/
inductive Fault where
  deriving DecidableEq, Repr

/-- Why exec would give an instruction no meaning. -/
inductive Refusal where
  /-- Raised by an arm of exec that has no meaning yet, and by nothing else (safe); no arm raises it. -/
  | notModelled (mnemonic : String)
  deriving DecidableEq, Repr

/-! ## Outputs -/

/-- A validated block on `L2_OUT` (R94). -/
structure L2Block where
  bic       : BicWord
  frame     : Frame
  corrected : Bool
  pos       : BitVec 9
  deriving DecidableEq, Repr

/-- The `time` value of a SECH record (R98). -/
structure DateTime where
  year            : Int
  month           : Int
  day             : Int
  hour            : Nat
  minute          : Nat
  second          : Nat
  offsetHalfHours : Int
  deriving DecidableEq, Repr

/-- A SECH record (R91); `networkName` and `time` are present only as R278 and R281 say. -/
structure SechRecord where
  dataUpdate  : BitVec 2
  countryId   : BitVec 4
  dataType    : BitVec 4
  networkId   : BitVec 4
  payload     : List Byte
  networkName : Option (List Byte)
  time        : Option DateTime
  deriving DecidableEq, Repr

/-- One TLV record (R97). -/
structure Tlv where
  tag    : Byte
  length : Byte
  value  : List Byte
  deriving DecidableEq, Repr

/-- What a LONG record carries: TLV records for type 12, the raw data for every other type (R92). -/
inductive LongBody where
  | tlv (records : List Tlv)
  | payload (bytes : List Byte)
  deriving DecidableEq, Repr

/-- A LONG record (R92); `ext` = 1 exactly when `extByte` is present. -/
structure LongRecord where
  first   : Bool
  last    : Bool
  ext     : Bool
  type    : BitVec 4
  extByte : Option Byte
  body    : LongBody
  deriving DecidableEq, Repr

/-- A BMCH record (R93). -/
structure BmchRecord where
  subchannel : BitVec 4
  payload    : List Byte
  deriving DecidableEq, Repr

/-- A record: `SECH`, `LONG` or `BMCH` (R90). -/
inductive Record where
  | sech (r : SechRecord)
  | long (r : LongRecord)
  | bmch (r : BmchRecord)
  deriving DecidableEq, Repr

/-- The outputs of the last step. They are not state of the block (10_state.md R46): every command drives them anew
and no rule reads them; the model keeps them so that a step's outputs can be seen (log 2). -/
structure Outputs where
  /-- `BIT_OUT` (R95). -/
  bit    : Option Bool
  /-- `L2_OUT` (R94). -/
  l2     : Option L2Block
  /-- `REC_OUT` (R90). -/
  record : Option Record
  /-- `STATUS` as driven at the end of the step (10_state.md R26). -/
  status : BitVec 8
  deriving DecidableEq, Repr

/-! ## State elements -/

/-- `CFG` (R21, R22). -/
structure Cfg where
  fsIn : BitVec 32
  mode : InputMode
  deriving DecidableEq, Repr

/-- The flags behind the `STATUS` word (R23 to R25). -/
structure StatusBits where
  cfgErr : Bool
  eos    : Bool
  cmdIgn : Bool
  deriving DecidableEq, Repr

/-- A numerically controlled oscillator: phase word and increment (R27, R28, R33, R34). -/
structure Nco where
  phase : BitVec 32
  freq  : BitVec 32
  deriving DecidableEq, Repr

/-- Demodulator state (R27 to R35). -/
structure Demod where
  /-- `NCO_C` (R27, R28). -/
  ncoC     : Nco
  /-- `FIR.DL`, newest sample first (R29). -/
  fir      : List Cplx
  /-- `DEC.CNT` (R30). -/
  decCnt   : BitVec 1
  /-- `AGC.GAIN` (R31). -/
  agcGain  : Scalar
  /-- `DISC.PREV` (R32). -/
  discPrev : Cplx
  /-- `NCO_T` (R33, R34). -/
  ncoT     : Nco
  /-- `SLICE.ACC` (R35). -/
  sliceAcc : Scalar
  deriving DecidableEq, Repr

/-- `SYNC.STATE` (R36); the parameter of FILLING(bic) is `SYNC.BIC`. -/
inductive SyncState where
  | unsynchronized
  | filling
  deriving DecidableEq, Repr

/-- Synchroniser state (R36 to R40). -/
structure Sync where
  state : SyncState
  sr    : BicWord
  bic   : BicWord
  cnt   : BitVec 9
  /-- `FRAME[0..271]`; bits at index `cnt` and above are stale and no rule reads them (R40, log 9). -/
  frame : Frame
  deriving DecidableEq, Repr

/-- Service-message accumulator (R41, R42). -/
structure Sech where
  valid : Bool
  du    : BitVec 2
  cid   : BitVec 4
  dt    : BitVec 4
  nid   : BitVec 4
  bn    : BitVec 4
  /-- The bytes of `SECH.BUF` that hold a value (log 10). -/
  buf   : List Byte
  len   : BitVec 9
  deriving DecidableEq, Repr

/-- Long-message accumulator (R43, R44). -/
structure Long where
  valid : Bool
  seq   : BitVec 4
  last  : Bool
  /-- The bytes of `LONG.BUF` that hold a value (log 10). -/
  buf   : List Byte
  len   : BitVec 13
  deriving DecidableEq, Repr

/-- The whole machine. `out` and `port` are the model's own fields (log 1, 2); the rest is 10_state.md. -/
structure State where
  cfg    : Cfg
  status : StatusBits
  demod  : Demod
  sync   : Sync
  sech   : Sech
  long   : Long
  out    : Outputs
  /-- Host commands not yet processed, in the order the host presents them (40_ports.md R120, log 1). -/
  port   : List CmdWord
  deriving DecidableEq, Repr

/-! ## Reset -/

/-- `AGC_G0`, a positive real (00_scope.md R5): Config's constant where it is one, else 1 (log 5). -/
def agcG0 : Scalar :=
  if Config.agcG0.finite && numPos Config.agcG0 then Config.agcG0 else Scalar.one

/-- The state after reset and at power-on (10_state.md R49, 70_reset_and_hazards.md R371). -/
def State.reset : State where
  cfg := { fsIn := BitVec.ofNat 32 Config.fInt, mode := .samples }
  status := { cfgErr := false, eos := false, cmdIgn := false }
  demod :=
    { ncoC := { phase := 0#32, freq := Config.incC }
      fir := List.replicate Config.firTaps Cplx.zero
      decCnt := 0#1
      agcGain := agcG0
      discPrev := Cplx.zero
      ncoT := { phase := 0#32, freq := Config.incT }
      sliceAcc := Scalar.zero }
  sync := { state := .unsynchronized, sr := 0#16, bic := 0#16, cnt := 0#9, frame := 0#272 }
  sech :=
    { valid := false, du := 0#2, cid := 0#4, dt := 0#4, nid := 0#4, bn := 0#4, buf := [], len := 0#9 }
  long := { valid := false, seq := 0#4, last := false, buf := [], len := 0#13 }
  out := { bit := none, l2 := none, record := none, status := 0x00#8 }
  port := []

end Sys2Proof.Machine
end

