-- ==== Sys2Proof/Machine/Flags.lean ====
section
/-! DEFINITION. The status word (10_state.md R26) and the input gating (40_ports.md R128). The block has no other
flags and no condition codes (10_state.md R47). -/

namespace Sys2Proof.Machine

/-- Bit 4 of `STATUS`: the value of `CFG.MODE` (R22, R26). -/
def modeFlag (m : InputMode) : Bool := m == .bits

/-- Bit 2 of `STATUS`: 1 iff `SYNC.STATE` = FILLING (R26). -/
def syncFlag (st : SyncState) : Bool := st == .filling

/-- The `STATUS` word: bit 0 `CFG_ERR`, bit 1 `EOS`, bit 2 `SYNC`, bit 3 `CMD_IGN`, bit 4 `MODE`, bits 7:5 zero (R26). -/
def statusWord (s : State) : BitVec 8 :=
  0#3 ++ BitVec.ofBool (modeFlag s.cfg.mode) ++ BitVec.ofBool s.status.cmdIgn ++
    BitVec.ofBool (syncFlag s.sync.state) ++ BitVec.ofBool s.status.eos ++ BitVec.ofBool s.status.cfgErr

/-- `accepts(S, c)` where command `c` needs input mode `m`: SAMPLE needs SAMPLES, BIT needs BITS (R128). -/
def accepts (m : InputMode) (s : State) : Bool :=
  !s.status.cfgErr && !s.status.eos && s.cfg.mode == m

end Sys2Proof.Machine
end

