-- ==== Sys2Proof/Machine/Ops.lean ====
section
/-! DEFINITION. The operations every command shares: driving the outputs (00_scope.md R10, 40_ports.md R129), resetting
(70_reset_and_hazards.md R370), refusing an input (40_ports.md R128), the ratio check (R123), and raising
`ConfigError`, the block's one error (60_exceptions.md R340). There is no return from it: the host recovers with
RESET or CONFIG (R348). -/

namespace Sys2Proof.Machine

/-! ## Outputs -/

/-- The start of a command step: no output holds its value from the step before (10_state.md R46). -/
def beginStep (s : State) : State :=
  { s with out := { s.out with bit := none, l2 := none, record := none } }

/-- Drives `STATUS` with the values after the step (R129). -/
def driveStatus (s : State) : State :=
  { s with out := { s.out with status := statusWord s } }

/-- `emit_bit(b)` (R10). -/
def emitBit (b : Bool) (s : State) : State :=
  { s with out := { s.out with bit := some b } }

/-- `emit_l2(bic, frame, pos)` (R10): `corrected` = 1 with the flipped index when there is one, else 0 and 0 (R94). -/
def emitL2 (bic : BicWord) (frame : Frame) (pos : Option Nat) (s : State) : State :=
  { s with out := { s.out with
      l2 := some { bic, frame, corrected := pos.isSome, pos := BitVec.ofNat 9 (pos.getD 0) } } }

/-- `emit_rec(r)` (R10). -/
def emitRec (r : Record) (s : State) : State :=
  { s with out := { s.out with record := some r } }

/-- `emit_rec` where there is a record. -/
def emitRec? (r : Option Record) (s : State) : State :=
  match r with
  | some r => emitRec r s
  | none => s

/-! ## Reset, refusal, error -/

/-- `reset_state()`: every element of 10_state.md at its R49 value (R370). The commands still to come stay. -/
def resetState (s : State) : State :=
  { State.reset with port := s.port }

/-- A command that R127 or R128 ignores: only `STATUS.CMD_IGN` changes. -/
def ignoreCommand (s : State) : State :=
  { s with status := { s.status with cmdIgn := true } }

/-- The ratio `F_INT / FS_IN` is within [`RATIO_MIN`, `RATIO_MAX`], evaluated exactly, bounds included (R123). -/
def ratioLegal (fsIn : BitVec 32) : Bool :=
  decide (fsIn.toNat ≠ 0 ∧ Config.fInt ≤ Config.ratioMax * fsIn.toNat ∧
    fsIn.toNat ≤ Config.ratioMinInv * Config.fInt)

/-- `raise ConfigError`: the error is the bit `STATUS.CFG_ERR` and nothing else is recorded (R340). -/
def raiseConfigError (s : State) : State :=
  { s with status := { s.status with cfgErr := true } }

/-- What a step does while the host presents no command: no output is driven (log 1). -/
def idle (s : State) : State :=
  driveStatus (beginStep s)

end Sys2Proof.Machine
end

