-- ==== Sys2Proof/Machine/Demodulator.lean ====
section
/-! DEFINITION. The subcarrier demodulator, one sample at a time (42_demodulator.md R181 to R198). Its state is
`Demod` alone, so each operation is a function on it. -/

namespace Sys2Proof.Machine

/-! ## Mixer (R182, R183) -/

/-- The mixed sample `X · (cosP(P) − j·sinP(P))` (R182), part by part (log 21). -/
def mixSample (x : Scalar) (p : BitVec 32) : Cplx :=
  ⟨numMul (cosP p) x, numMul (numNeg (sinP p)) x⟩

/-- An oscillator advances by its increment, modulo 2^32 (R182, R194). -/
def ncoAdvance (n : Nco) : Nco := { n with phase := n.phase + n.freq }

/-- The PLL correction of an oscillator with gains `alpha`, `beta` and phase error `e` (R183). -/
def ncoCorrect (alpha beta e : Scalar) (n : Nco) : Nco :=
  { phase := n.phase + pllDelta alpha e, freq := n.freq + pllDelta beta e }

/-- `mix(X)` (R182): the sample, and `NCO_C` advanced. -/
def mix (x : Scalar) (d : Demod) : Cplx × Demod :=
  (mixSample x d.ncoC.phase, { d with ncoC := ncoAdvance d.ncoC })

/-- `pll_c(e)` (R183). -/
def pllC (e : Scalar) (d : Demod) : Demod :=
  { d with ncoC := ncoCorrect Config.pllAlphaC Config.pllBetaC e d.ncoC }

/-! ## Filter, AGC, decimator (R185 to R190) -/

/-- `fir_shift(z)` (R185): the newest sample enters, the oldest falls off. -/
def firShift (z : Cplx) (d : Demod) : Demod :=
  { d with fir := (z :: d.fir).take Config.firTaps }

/-- `Σ ROM.FIR[i] · DL[i]` over the line `dl` whose first element has index `i`, added to `acc` in index order. -/
def firSum : Nat → List Cplx → Cplx → Cplx
  | _, [], acc => acc
  | i, z :: dl, acc => firSum (i + 1) dl (cplxAdd acc (cplxScale (romFir i) z))

/-- `fir_out()` (R186); it reads only. -/
def firOut (d : Demod) : Cplx := firSum 0 d.fir Cplx.zero

/-- `agc(w)` (R187). -/
def agc (w : Cplx) (d : Demod) : Cplx × Demod :=
  let a := cplxScale d.agcGain w
  (a, { d with agcGain := agcUpdate d.agcGain (cplxMag a) })

/-- `decimate()` (R190): whether this sample is kept. -/
def decimate (d : Demod) : Bool × Demod :=
  if d.decCnt.toNat + 1 < Config.dec then
    (false, { d with decCnt := BitVec.ofNat 1 (d.decCnt.toNat + 1) })
  else (true, { d with decCnt := 0#1 })

/-! ## Discriminator (R192, R193) -/

/-- `arg(a · conj(prev))`; 0 when either is 0 (R193). -/
def phaseStep (a prev : Cplx) : Scalar :=
  if a = Cplx.zero ∨ prev = Cplx.zero then Scalar.zero else cplxArg (cplxMulConj a prev)

/-- `disc(a)` (R192). -/
def disc (a : Cplx) (d : Demod) : Scalar × Demod :=
  (phaseStep a d.discPrev, { d with discPrev := a })

/-! ## Timing and slicer (R194 to R197) -/

/-- `cneg(P) = u32(P + 2^30)[31]` (R194). -/
def cneg (p : BitVec 32) : Bool := (p + 0x40000000#32).getLsbD 31

/-- `SLICE.ACC + d · |cosP(P0)|` (R196). DESIGN CHOICE: the weight is the first factor of the product in `Num` (log 21). -/
def integrate (x : Scalar) (d : Demod) : Demod :=
  { d with sliceAcc := numAdd d.sliceAcc (numMul (numAbs (cosP d.ncoT.phase)) x) }

/-- `pll_t(e)` (R195). -/
def pllT (e : Scalar) (d : Demod) : Demod :=
  { d with ncoT := ncoCorrect Config.pllAlphaT Config.pllBetaT e d.ncoT }

/-- `NCO_T` advances (R194). -/
def advanceT (d : Demod) : Demod := { d with ncoT := ncoAdvance d.ncoT }

/-- `slice()` (R197): 1 for a positive accumulator, else 0; the accumulator restarts at 0. -/
def slice (d : Demod) : Bool × Demod :=
  (numPos d.sliceAcc, { d with sliceAcc := Scalar.zero })

/-- `timing(d)` (R194): integrate with the phase before the advance, advance, correct, test for a zero crossing. -/
def timing (x : Scalar) (d : Demod) : Option Bool × Demod :=
  let before := cneg d.ncoT.phase
  let d := pllT Config.phaseErrorT (advanceT (integrate x d))
  if cneg d.ncoT.phase != before then
    let (b, d) := slice d
    (some b, d)
  else (none, d)

/-! ## The per-sample pipeline (R181) -/

/-- The stages before the decimator: mixer, PLL, filter, AGC (R181). -/
def frontEnd (x : Scalar) (d : Demod) : Cplx × Demod :=
  let (z, d) := mix x d
  let d := firShift z (pllC Config.phaseErrorC d)
  agc (firOut d) d

/-- `demod_step(X)` (R181). -/
def demodStep (x : Scalar) (d : Demod) : Option Bool × Demod :=
  let (a, d) := frontEnd x d
  let (keep, d) := decimate d
  if keep then
    let (p, d) := disc a d
    timing p d
  else (none, d)

end Sys2Proof.Machine
end

