-- ==== Sys2Proof/Machine/Reassembler.lean ====
section
/-! DEFINITION. The message reassembler (44_reassembler.md R270 to R293): service messages with the data-type-5 decoder,
long messages with the L4 header and the TLV parser, block application messages, and the router. -/

namespace Sys2Proof.Machine

/-! ## Data type 5 (R278 to R281) -/

/-- `network_name` (R278): present iff the length byte and the name fit in `P`. -/
def dt5Name (p : List Byte) : Option (List Byte) :=
  match p with
  | [] => none
  | n :: rest => if 1 + n.toNat ≤ p.length then some (rest.take n.toNat) else none

/-- The 40 bits `t` after the name (R279), where they fit. -/
def dt5TimeBits (p : List Byte) : Option (BitVec 40) :=
  match p with
  | [] => none
  | n :: rest =>
    if 1 + n.toNat + 5 ≤ p.length then some (BitVec.ofNat 40 (beNat ((rest.drop n.toNat).take 5))) else none

/-- `Y'` of R280. -/
def mjdYear (mjd : Int) : Int := (20 * mjd - 301564).tdiv 7305

/-- `A` of R280. -/
def mjdYearDays (mjd : Int) : Int := (mjdYear mjd * 1461).tdiv 4

/-- `M'` of R280. -/
def mjdMonth (mjd : Int) : Int := (10000 * (mjd - mjdYearDays mjd) - 149561000).tdiv 306001

/-- `K` of R280. -/
def mjdCarry (mjd : Int) : Int := if mjdMonth mjd = 14 ∨ mjdMonth mjd = 15 then 1 else 0

/-- The calendar date (year, month, day) of a Modified Julian Date (R280). -/
def mjdToDate (mjd : Int) : Int × Int × Int :=
  (1900 + mjdYear mjd + mjdCarry mjd,
   mjdMonth mjd - 1 - 12 * mjdCarry mjd,
   mjd - 14956 - mjdYearDays mjd - (mjdMonth mjd * 306001).tdiv 10000)

/-- The date/time fields of `t` (R98, R279), not yet checked. -/
def dt5Fields (t : BitVec 40) : DateTime :=
  let date := mjdToDate (msb t 0 17).toNat
  { year := date.1
    month := date.2.1
    day := date.2.2
    hour := (msb t 17 5).toNat
    minute := (msb t 22 6).toNat
    second := (msb t 28 6).toNat
    offsetHalfHours := if bitAt t 34 then -(msb t 35 5).toNat else (msb t 35 5).toNat }

/-- The per-field validity of R281; 28 half-hours are 14 h. -/
def dt5Valid (d : DateTime) : Bool :=
  decide (1 ≤ d.month ∧ d.month ≤ 12 ∧ 1 ≤ d.day ∧ d.day ≤ 31 ∧ d.hour ≤ 23 ∧ d.minute ≤ 59 ∧
    d.second ≤ 59 ∧ -28 ≤ d.offsetHalfHours ∧ d.offsetHalfHours ≤ 28)

/-- `time` (R279, R281): absent where the field does not fit or is not valid. -/
def dt5Time (p : List Byte) : Option DateTime :=
  match dt5TimeBits p with
  | some t => if dt5Valid (dt5Fields t) then some (dt5Fields t) else none
  | none => none

/-! ## Service messages (R272 to R277) -/

/-- The 19 payload bytes of a SechBlock (R87). -/
def sechPayload (b : SechBlock) : List Byte := bytesOf b.pay

/-- `SECH.BUF[0..SECH.LEN-1]`. -/
def sechBytes (a : Sech) : List Byte := a.buf.take a.len.toNat

/-- The record of a complete service message (R277). -/
def sechRecord (a : Sech) : SechRecord where
  dataUpdate  := a.du
  countryId   := a.cid
  dataType    := a.dt
  networkId   := a.nid
  payload     := sechBytes a
  networkName := if a.dt = Config.dtNameTime then dt5Name (sechBytes a) else none
  time        := if a.dt = Config.dtNameTime then dt5Time (sechBytes a) else none

/-- The accumulator resets (R275, R276); the bytes hold no value any more (log 10). -/
def sechClear (a : Sech) : Sech := { a with valid := false, len := 0#9, buf := [] }

/-- Block 0 starts an accumulation (R273). -/
def sechStart (b : SechBlock) : Sech where
  valid := true
  du := b.du
  cid := b.cid
  dt := b.dt
  nid := b.nid
  bn := 0#4
  buf := sechPayload b
  len := BitVec.ofNat 9 Config.blockPayloadBytes

/-- A continuing block is appended (R274). -/
def sechAppend (b : SechBlock) (a : Sech) : Sech :=
  { a with
    bn := b.bn
    buf := sechBytes a ++ sechPayload b
    len := a.len + BitVec.ofNat 9 Config.blockPayloadBytes }

/-- The condition of R274: a live accumulation, the same header, the next block number without wrap. -/
def sechContinues (b : SechBlock) (a : Sech) : Bool :=
  a.valid && decide (b.du = a.du ∧ b.cid = a.cid ∧ b.dt = a.dt ∧ b.nid = a.nid ∧
    b.bn.toNat = a.bn.toNat + 1)

/-- Completion of an accepted fragment (R276): with `LF` = 1 the record, then an empty accumulator. -/
def sechComplete (lf : Bool) (a : Sech) : Sech × Option Record :=
  if lf then (sechClear a, some (.sech (sechRecord a))) else (a, none)

/-- `sech_push` on the accumulator alone (R273 to R276). -/
def sechNext (b : SechBlock) (a : Sech) : Sech × Option Record :=
  if b.bn = 0#4 then sechComplete b.lf (sechStart b)
  else if sechContinues b a then sechComplete b.lf (sechAppend b a)
  else (sechClear a, none)

/-- `sech_push(info)` (R270, R272). -/
def sechPush (b : SechBlock) (s : State) : State :=
  emitRec? (sechNext b s.sech).2 { s with sech := (sechNext b s.sech).1 }

/-! ## L4 and TLV (R287 to R291) -/

/-- `tlv_parse(D)` (R291); `fuel` bounds the number of records. -/
def tlvParseFuel : Nat → List Byte → List Tlv
  | 0, _ => []
  | _ + 1, [] => []
  | _ + 1, [_] => []
  | fuel + 1, tag :: len :: rest =>
    if len.toNat ≤ rest.length then
      { tag, length := len, value := rest.take len.toNat } :: tlvParseFuel fuel (rest.drop len.toNat)
    else []

/-- `tlv_parse(D)` (R291). -/
def tlvParse (d : List Byte) : List Tlv := tlvParseFuel d.length d

/-- The header CRC of a message with `CA` = 0 (R289). -/
def l4CrcOk (type : BitVec 4) (m : L4Message) : Bool :=
  crc8 (bitsOf (l4HeaderBytes type m)) == m.crc

/-- The LONG record of a message with type code `type`, where its header CRC passes (R289, R290). -/
def l4Record (type : BitVec 4) (body : LongBody) (m : L4Message) : Option Record :=
  if l4CrcOk type m then
    some (.long { first := m.first, last := m.last, ext := m.ext.isSome, type, extByte := m.ext, body })
  else none

/-- What a type-12 message emits (R290, R291). -/
def l4TlvRecord (m : L4Message) : Option Record :=
  l4Record Config.l4TypeTlv (.tlv (tlvParse m.data)) m

/-- What a message of another type emits (R290). -/
def l4PayloadRecord (type : BitVec 4) (m : L4Message) : Option Record :=
  l4Record type (.payload m.data) m

/-- `parse_l4(B)` (R287 to R290). A message too short for its header gives nothing; `B` has at least 19 bytes (log 16). -/
def parseL4 (bytes : List Byte) : Option Record :=
  match readL4 bytes with
  | .empty => none
  | .truncated => none
  | .audience _ _ _ _ _ => none
  | .message type m => if type = Config.l4TypeTlv then l4TlvRecord m else l4PayloadRecord type m

/-! ## Long messages (R282 to R286) -/

/-- The 19 payload bytes of a LongBlock (R88). -/
def longPayload (b : LongBlock) : List Byte := bytesOf b.pay

/-- `LONG.BUF[0..LONG.LEN-1]`. -/
def longBytes (a : Long) : List Byte := a.buf.take a.len.toNat

/-- The mini-header CRC passes (R283). -/
def longCrcOk (b : LongBlock) : Bool := crc6 (seqOf (miniHeader b)) == b.c6

/-- The accumulator resets (R283, R285); `LONG.SEQ` stays. -/
def longClear (a : Long) : Long := { a with valid := false, len := 0#13, last := false, buf := [] }

/-- The condition of R284: a live buffer whose last block was not the last, and the next counter modulo 16. -/
def longContinues (b : LongBlock) (a : Long) : Bool :=
  a.valid && !a.last && b.seq == a.seq + 1#4

/-- The buffer restarts with this block (R284). -/
def longRestart (b : LongBlock) (a : Long) : Long :=
  { a with valid := true, buf := longPayload b, len := BitVec.ofNat 13 Config.blockPayloadBytes }

/-- The block's bytes are appended (R285). -/
def longAppend (b : LongBlock) (a : Long) : Long :=
  { a with buf := longBytes a ++ longPayload b, len := a.len + BitVec.ofNat 13 Config.blockPayloadBytes }

/-- The last three lines of R284; a last fragment is parsed as an L4 message (R286). -/
def longAccept (b : LongBlock) (a : Long) : Long × Option Record :=
  let a := { a with seq := b.seq, last := b.lf }
  (a, if b.lf then parseL4 (longBytes a) else none)

/-- `long_push` on the accumulator alone (R283 to R286). -/
def longNext (b : LongBlock) (a : Long) : Long × Option Record :=
  if longCrcOk b then
    if longContinues b a then
      if a.len.toNat + Config.blockPayloadBytes ≤ Config.longMaxBytes then longAccept b (longAppend b a)
      else (longClear a, none)
    else longAccept b (longRestart b a)
  else (longClear a, none)

/-- `long_push(info)` (R270, R282). -/
def longPush (b : LongBlock) (s : State) : State :=
  emitRec? (longNext b s.long).2 { s with long := (longNext b s.long).1 }

/-! ## Block application messages (R292) -/

/-- The record of a block application message (R93, R292). -/
def bmchRecord (payload : BitVec 168) : Record :=
  .bmch { subchannel := 0#4, payload := bytesOf payload }

/-- `bmch_pass(info)` (R292). -/
def bmchPass (payload : BitVec 168) (s : State) : State := emitRec (bmchRecord payload) s

/-! ## Router (R270) -/

/-- A block that no channel takes: no output, no state change (R271, R293). -/
def dropBlock (s : State) : State := s

/-- `reassemble(info)` (R270). -/
def reassemble (f : Info) (s : State) : State :=
  let silc := infoSilc f
  if silc = Config.silcSech then sechPush (sechFields f) s
  else if silc = Config.silcLong then longPush (longFields f) s
  else if silc = Config.silcBmch then
    if infoSub f = 0#4 then bmchPass (bmchPayload f) s else dropBlock s
  else dropBlock s

end Sys2Proof.Machine
end

