-- ==== Sys2Proof/Machine/Synchroniser.lean ====
section
/-! DEFINITION. The block synchroniser, descrambler and frame validator, one bit at a time (43_l2_sync.md R230 to R239).
Its state is `Sync` alone, so each operation is a function on it. -/

namespace Sys2Proof.Machine

/-- An accepted block `(bic, frame, pos?)` (R239). -/
structure Accepted where
  bic   : BicWord
  frame : Frame
  pos   : Option Nat
  deriving DecidableEq, Repr

/-- `shift_sr(b)` (R231). -/
def shiftSr (b : Bool) (y : Sync) : Sync :=
  { y with sr := (y.sr <<< 1) ||| (BitVec.ofBool b).setWidth 16 }

/-- `start_block(v)` (R233). -/
def startBlock (v : BicWord) (y : Sync) : Sync :=
  { y with bic := v, cnt := 0#9, state := .filling }

/-- `FRAME[i] <- v`. -/
def setFrameBit (i : Nat) (v : Bool) (f : Frame) : Frame :=
  if v then f ||| unitFrame i else f &&& ~~~ unitFrame i

/-- `append(b)` (R235): the descrambled bit enters at index `CNT`. -/
def append (b : Bool) (y : Sync) : Sync :=
  { y with
    frame := setFrameBit y.cnt.toNat (b ^^ scrAt (y.cnt.toNat % Config.scrLen)) y.frame
    cnt := y.cnt + 1#9 }

/-- `correct(f, s)` for a non-zero syndrome (R237). -/
def correct (bic : BicWord) (f : Frame) (s : BitVec 82) : Option Accepted :=
  (findSyn s).map fun i => { bic, frame := f ^^^ unitFrame i, pos := some i }

/-- The validation of a whole frame (R236, R237). -/
def validate (bic : BicWord) (f : Frame) : Option Accepted :=
  if syn f = 0#82 then some { bic, frame := f, pos := none } else correct bic f (syn f)

/-- Synchronisation is lost after every block, valid or not (R238). -/
def dropSync (y : Sync) : Sync := { y with state := .unsynchronized, cnt := 0#9 }

/-- `finish_block()` (R236). -/
def finishBlock (y : Sync) : Option Accepted × Sync :=
  (validate y.bic y.frame, dropSync y)

/-- A BIC met in `SYNC.SR` (R230): it starts a block while unsynchronised and has no effect while filling (R240). -/
def meetBic (v : BicWord) (y : Sync) : Sync :=
  match y.state with
  | .unsynchronized => startBlock v y
  | .filling => y

/-- `sync_step(b)` (R230). -/
def syncStep (b : Bool) (y : Sync) : Option Accepted × Sync :=
  let y := shiftSr b y
  match y.state with
  | .unsynchronized => (none, if isBic y.sr then startBlock y.sr y else y)
  | .filling =>
    let y := append b y
    if y.cnt.toNat < Config.frameBits then (none, y) else finishBlock y

end Sys2Proof.Machine
end

