-- ==== Sys2Proof/Machine/Commands.lean ====
section
/-! DEFINITION. The meanings of the host commands (40_ports.md R121 to R127). Each is one atomic step: it starts with
no output driven and ends by driving `STATUS` (R120, R129). -/

namespace Sys2Proof.Machine

/-- A command whose effect on the state is `f`. -/
def command (f : State → State) (s : State) : Host.Outcome State Fault Refusal :=
  .next (driveStatus (f (beginStep s)))

/-- What follows an accepted block: `L2_OUT`, then the reassembler, in the same step (R124, R125, R239, R378). -/
def afterBlock (blk : Option Accepted) (s : State) : State :=
  match blk with
  | some a => reassemble (infoOf a.frame) (emitL2 a.bic a.frame a.pos s)
  | none => s

/-- A bit enters the synchroniser, and what follows from it (R124, R125). -/
def bitPipeline (b : Bool) (s : State) : State :=
  afterBlock (syncStep b s.sync).1 { s with sync := (syncStep b s.sync).2 }

/-- What follows the demodulator's step: a bit is driven and enters the synchroniser in the same step (R124, R198). -/
def afterDemod (bit : Option Bool) (s : State) : State :=
  match bit with
  | some b => bitPipeline b (emitBit b s)
  | none => s

/-- A sample enters the demodulator, and what follows from it (R124). -/
def samplePipeline (x : Scalar) (s : State) : State :=
  afterDemod (demodStep x s.demod).1 { s with demod := (demodStep x s.demod).2 }

/-- `NOP` (R121). -/
def execNop (s : State) : Host.Outcome State Fault Refusal := command (fun s => s) s

/-- `RESET` (R122). -/
def execReset (s : State) : Host.Outcome State Fault Refusal := command resetState s

/-- The configuration `CONFIG` loads, then checks in SAMPLES mode only (R123). -/
def configure (mode : InputMode) (fsIn : BitVec 32) (s : State) : State :=
  let s := { resetState s with cfg := { fsIn, mode } }
  if mode = .samples ∧ ratioLegal fsIn = false then raiseConfigError s else s

/-- `CONFIG` (R123). -/
def execConfig (mode : InputMode) (fsIn : BitVec 32) (s : State) : Host.Outcome State Fault Refusal :=
  command (configure mode fsIn) s

/-- `SAMPLE` (R124). -/
def execSample (x : BitVec 32) (s : State) : Host.Outcome State Fault Refusal :=
  command (fun s => if accepts .samples s then samplePipeline (numOfBinary32 x) s else ignoreCommand s) s

/-- `BIT` (R125). -/
def execBit (b : Bool) (s : State) : Host.Outcome State Fault Refusal :=
  command (fun s => if accepts .bits s then bitPipeline b s else ignoreCommand s) s

/-- `STATUS.EOS <- 1`: nothing is flushed (R126). -/
def endOfStream (s : State) : State :=
  { s with status := { s.status with eos := true } }

/-- `EOS` (R126). -/
def execEos (s : State) : Host.Outcome State Fault Refusal := command endOfStream s

/-- Reserved opcodes 0x6 and 0x7 (R127). -/
def execReserved67 (_low : BitVec 1) (s : State) : Host.Outcome State Fault Refusal :=
  command ignoreCommand s

/-- Reserved opcodes 0x8 to 0xF (R127). -/
def execReserved8F (_low : BitVec 3) (s : State) : Host.Outcome State Fault Refusal :=
  command ignoreCommand s

end Sys2Proof.Machine
end

