-- ==== Sys2Proof/Machine/StreamRows.lean ====
section
/-! DEFINITION. The meanings of the rows the block meets inside a SAMPLE or BIT step: the BICs (43_l2_sync.md R232,
R233), the information-field routes (44_reassembler.md R270) and the long-message routes (R288 to R291). Each is that
part of the step: it leaves the outputs already driven in the step, and `STATUS` shows the state after it (log 11). -/

namespace Sys2Proof.Machine

/-- A part of a command step whose effect is `f`. -/
def withinStep (f : State → State) (s : State) : Host.Outcome State Fault Refusal :=
  .next (driveStatus (f s))

/-- A BIC is met in `SYNC.SR` (R230, R233, R240). -/
def seeBic (v : BicWord) (s : State) : State := { s with sync := meetBic v s.sync }

/-! ## BICs -/

/-- BIC1 (R232, R233). -/
def execBic1 (s : State) : Host.Outcome State Fault Refusal := withinStep (seeBic Config.bic1) s

/-- BIC2 (R232, R233). -/
def execBic2 (s : State) : Host.Outcome State Fault Refusal := withinStep (seeBic Config.bic2) s

/-- BIC3 (R232, R233). -/
def execBic3 (s : State) : Host.Outcome State Fault Refusal := withinStep (seeBic Config.bic3) s

/-- BIC4 (R232, R233); its role selects no behaviour (R243). -/
def execBic4 (s : State) : Host.Outcome State Fault Refusal := withinStep (seeBic Config.bic4) s

/-! ## Information-field routes -/

/-- SILC 0x8 (R272 to R277). -/
def execSech (b : SechBlock) (s : State) : Host.Outcome State Fault Refusal := withinStep (sechPush b) s

/-- SILC 0xA (R282 to R286). -/
def execLmch (b : LongBlock) (s : State) : Host.Outcome State Fault Refusal := withinStep (longPush b) s

/-- SILC 0xB, subchannel 0 (R292). -/
def execBmch (payload : BitVec 168) (s : State) : Host.Outcome State Fault Refusal :=
  withinStep (bmchPass payload) s

/-- SILC 0xB, another subchannel (R293). -/
def execBmchOtherSub (_sub : BitVec 4) (_payload : BitVec 168) (s : State) : Host.Outcome State Fault Refusal :=
  withinStep dropBlock s

/-- SILC 0x0 to 0x7 (R271). -/
def execSilc07 (_silc : BitVec 3) (_rest : BitVec 172) (s : State) : Host.Outcome State Fault Refusal :=
  withinStep dropBlock s

/-- SILC 0x9 (R271). -/
def execSilc9 (_rest : BitVec 172) (s : State) : Host.Outcome State Fault Refusal :=
  withinStep dropBlock s

/-- SILC 0xC to 0xF (R271). -/
def execSilcCF (_silc : BitVec 2) (_rest : BitVec 172) (s : State) : Host.Outcome State Fault Refusal :=
  withinStep dropBlock s

/-! ## Long-message routes -/

/-- Complete audience: no record, whatever follows byte 0 (R288). -/
def execL4Ca (_first _last _ext : Bool) (_type : BitVec 4) (_rest : List Byte) (s : State) :
    Host.Outcome State Fault Refusal :=
  withinStep (emitRec? none) s

/-- Type 12 (R289 to R291). -/
def execL4Tlv (m : L4Message) (s : State) : Host.Outcome State Fault Refusal :=
  withinStep (emitRec? (l4TlvRecord m)) s

/-- Every other type (R289, R290). -/
def execL4Payload (type : BitVec 4) (m : L4Message) (s : State) : Host.Outcome State Fault Refusal :=
  withinStep (emitRec? (l4PayloadRecord type m)) s

end Sys2Proof.Machine
end

