-- ==== Sys2Proof/Machine/Dispatch.lean ====
section
/-! DEFINITION. exec: one arm per constructor of Instr, each one direct call of its meaning. -/

namespace Sys2Proof.Machine

def exec (i : Instr) (s : State) : Host.Outcome State Fault Refusal :=
  match i with
  -- CMD64
  | .nop => Sys2Proof.Machine.execNop s
  | .reset => Sys2Proof.Machine.execReset s
  | .config mode fsIn => Sys2Proof.Machine.execConfig mode fsIn s
  | .sample x => Sys2Proof.Machine.execSample x s
  | .bit b => Sys2Proof.Machine.execBit b s
  | .eos => Sys2Proof.Machine.execEos s
  | .reserved67 low => Sys2Proof.Machine.execReserved67 low s
  | .reserved8F low => Sys2Proof.Machine.execReserved8F low s
  -- BIC16
  | .bic1 => Sys2Proof.Machine.execBic1 s
  | .bic2 => Sys2Proof.Machine.execBic2 s
  | .bic3 => Sys2Proof.Machine.execBic3 s
  | .bic4 => Sys2Proof.Machine.execBic4 s
  -- INFO8
  | .sech b => Sys2Proof.Machine.execSech b s
  | .lmch b => Sys2Proof.Machine.execLmch b s
  | .bmch payload => Sys2Proof.Machine.execBmch payload s
  | .bmchOtherSub sub payload => Sys2Proof.Machine.execBmchOtherSub sub payload s
  | .silc07 silc rest => Sys2Proof.Machine.execSilc07 silc rest s
  | .silc9 rest => Sys2Proof.Machine.execSilc9 rest s
  | .silcCF silc rest => Sys2Proof.Machine.execSilcCF silc rest s
  -- L4B0
  | .l4Ca first last ext type rest => Sys2Proof.Machine.execL4Ca first last ext type rest s
  | .l4Tlv m => Sys2Proof.Machine.execL4Tlv m s
  | .l4Payload type m => Sys2Proof.Machine.execL4Payload type m s

end Sys2Proof.Machine
end

