-- ==== Sys2Proof/Machine/Fetch.lean ====
section
/-! DEFINITION. Placing an instruction of each format where the next step meets it (log 11): a command at the front of
the command port; a BIC so that the next BIT completes it in `SYNC.SR`; an information field so that the next BIT
completes its error-free frame. -/

namespace Sys2Proof.Machine

/-- The command word is the next the host presents. -/
def placeCmd (w : CmdWord) (s : State) : State := { s with port := w :: s.port }

/-- The block accepts BIT commands (R128) and the next command is `BIT b`. -/
def placeBit (b : Bool) (s : State) : State :=
  placeCmd (cmdWord 0x4#4 (0#59 ++ BitVec.ofBool b))
    { s with
      cfg := { s.cfg with mode := .bits }
      status := { s.status with cfgErr := false, eos := false } }

/-- The block searches for a BIC and the next command brings the last bit of `v`. -/
def placeBic (v : BicWord) (s : State) : State :=
  placeBit (v.getLsbD 0)
    { s with sync := { s.sync with state := .unsynchronized, sr := v >>> 1, cnt := 0#9 } }

/-- The block has all but the last bit of the error-free frame of `f`, tagged BIC1, and the next command brings it. -/
def placeInfo (f : Info) (s : State) : State :=
  placeBit (bitAt (encodeFrame f) 271 ^^ scrAt 271)
    { s with sync := { s.sync with
        state := .filling, bic := Config.bic1, cnt := 271#9
        frame := encodeFrame f &&& ~~~ unitFrame 271 } }

end Sys2Proof.Machine
end

