-- ==== Sys2Proof/Machine/Step.lean ====
section
/-! DEFINITION. One step of the machine: one host command, from the command port (40_ports.md R120), and
`withFetchWord`, which places an instruction where the next step meets it. -/

namespace Sys2Proof.Machine

/-- The block processes the first command the host has presented; with none it idles (R120, log 1). -/
def step (s : State) : Host.Outcome State Fault Refusal :=
  match s.port with
  | [] => .next (idle s)
  | w :: rest => exec (decodeCmd w) { s with port := rest }

/-- `s` with the table word `w` placed where the next step meets it: see `placeCmd`, `placeBic`, `placeInfo`. -/
def State.withFetchWord (s : State) (nbits w : Nat) : State :=
  if nbits = 16 then placeBic (BitVec.ofNat 16 w) s
  else if nbits = 8 then placeInfo (infoOfHeader w) s
  else placeCmd (BitVec.ofNat 64 w) s

end Sys2Proof.Machine
end

