-- ==== Sys2Proof/Machine/Assembler.lean ====
section
/-! DEFINITION. The command syntax of 30_encoding.md R100 and the pseudo-instructions of R101. The block sees none of
this: it is how a host writes the command words it presents (log 20). -/

namespace Sys2Proof.Machine

/-! ## Commands and pseudo-instructions -/

/-- A line of assembler text (R100, R101). -/
inductive AsmLine where
  | nop
  | reset
  | config (fsIn : Nat) (mode : InputMode)
  /-- The decimal real `± num / den`. -/
  | sample (negative : Bool) (num den : Nat)
  | bit (b : Bool)
  | eos
  | bits (n value : Nat)
  | zeros (n : Nat)
  | block (bic : BicWord) (info : Info) (flips : List Nat)
  deriving DecidableEq, Repr

/-- `num / den` rounded to a whole number, halves to even. -/
def roundHalfEven (num den : Nat) : Nat :=
  let q := num / den
  let r := num % den
  if den < 2 * r then q + 1
  else if 2 * r = den then q + q % 2
  else q

/-- `2^e ≤ num / den`. -/
def atLeastTwoPow (num den : Nat) (e : Int) : Bool :=
  if 0 ≤ e then den * 2 ^ e.toNat ≤ num else den ≤ num * 2 ^ (-e).toNat

/-- The exponent `e` with `2^e ≤ num / den < 2^(e+1)`, for `num` and `den` other than 0. -/
def floorLog2 (num den : Nat) : Int :=
  let e := (num.log2 : Int) - den.log2
  if atLeastTwoPow num den e then e else e - 1

/-- `num / den` rounded to binary32, to nearest, halves to even (R100): the 31 bits below the sign. The significand
is counted in units of the last place, so that a carry out of it raises the exponent. -/
def binary32Magnitude (num den : Nat) : Nat :=
  if num = 0 then 0
  else
    let e := max (floorLog2 num den) (-126)
    let ulp := e - 23
    let m := roundHalfEven (num * 2 ^ (-ulp).toNat) (den * 2 ^ ulp.toNat)
    min ((e + 126).toNat * 2 ^ 23 + m) 0x7F800000

/-- The binary32 pattern of a decimal real (R100). -/
def binary32OfDecimal (negative : Bool) (num den : Nat) : BitVec 32 :=
  BitVec.ofBool (negative && num != 0) ++ BitVec.ofNat 31 (binary32Magnitude num den)

/-- The word of a core command (R81). -/
def commandWord (i : Instr) : List CmdWord :=
  match encode i with
  | .cmd w => [w]
  | .bic _ => []
  | .info _ => []
  | .l4 _ => []

/-- One `BIT` command for each bit, in order. -/
def bitWords (f : List Bool) : List CmdWord := f.flatMap fun b => commandWord (.bit b)

/-- The frame of a `BLOCK` line before scrambling: the encoder's, with the listed bits inverted (R101). DESIGN CHOICE,
R101 is silent: an index above 271 inverts nothing and a repeated one inverts again (log 20). -/
def blockFrame (info : Info) (flips : List Nat) : Frame :=
  flips.foldl (fun f i => f ^^^ unitFrame i) (encodeFrame info)

/-- The command words of a line (R100, R101). DESIGN CHOICE, the rules are silent: a CONFIG rate of 2^32 or more is taken
modulo 2^32, and of a BITS value the low `n` bits (log 20). -/
def assemble : AsmLine → List CmdWord
  | .nop => commandWord .nop
  | .reset => commandWord .reset
  | .config fsIn mode => commandWord (.config mode (BitVec.ofNat 32 fsIn))
  | .sample negative num den => commandWord (.sample (binary32OfDecimal negative num den))
  | .bit b => commandWord (.bit b)
  | .eos => commandWord .eos
  | .bits n value => bitWords (seqOf (BitVec.ofNat n value))
  | .zeros n => List.flatten (List.replicate n (commandWord (.sample 0#32)))
  | .block bic info flips => bitWords (seqOf bic ++ seqOf (scramble (blockFrame info flips)))

/-! ## The text form -/

/-- Words of a line, split at blanks, commas and equals signs; a semicolon starts a comment (R100). -/
def tokens : List Char → List Char → List (List Char)
  | [], word => if word.isEmpty then [] else [word.reverse]
  | c :: rest, word =>
    if c = ';' then (if word.isEmpty then [] else [word.reverse])
    else if c = ' ' ∨ c = '\t' ∨ c = ',' ∨ c = '=' then
      (if word.isEmpty then tokens rest [] else word.reverse :: tokens rest [])
    else tokens rest (c :: word)

/-- The value of a digit in bases up to 16. -/
def digitValue (c : Char) : Nat :=
  if c.toNat < 58 then c.toNat - 48 else if c.toNat < 71 then c.toNat - 55 else c.toNat - 87

/-- A character is a digit of `base` (10 or 16). -/
def isDigitOf (base : Nat) (c : Char) : Bool :=
  decide ((48 ≤ c.toNat ∧ c.toNat < 58) ∨
    (base = 16 ∧ ((65 ≤ c.toNat ∧ c.toNat < 71) ∨ (97 ≤ c.toNat ∧ c.toNat < 103))))

/-- A non-empty numeral of `base`. -/
def readNat (base : Nat) (w : List Char) : Option Nat :=
  if w.isEmpty || !w.all (isDigitOf base) then none
  else some (w.foldl (fun acc c => acc * base + digitValue c) 0)

/-- `0x` and hexadecimal digits. -/
def readHex : List Char → Option Nat
  | '0' :: 'x' :: digits => readNat 16 digits
  | _ => none

/-- Decimal digits with at most one point, without sign: numerator and denominator. DESIGN CHOICE, R100 gives a decimal
real no grammar: `5.` and `.5` are read, an exponent is not (log 20). -/
def readUnsignedReal (w : List Char) : Option (Nat × Nat) :=
  let whole := w.takeWhile (· != '.')
  let fraction := (w.dropWhile (· != '.')).drop 1
  match readNat 10 (whole ++ fraction) with
  | some n => some (n, 10 ^ fraction.length)
  | none => none

/-- A `SAMPLE` operand: a minus sign may lead, a plus sign may not (DESIGN CHOICE, log 20). -/
def readSample (w : List Char) : Option AsmLine :=
  match w with
  | '-' :: rest => (readUnsignedReal rest).map fun r => .sample true r.1 r.2
  | _ => (readUnsignedReal w).map fun r => .sample false r.1 r.2

/-- `SAMPLES` or `BITS`. -/
def readMode (w : List Char) : Option InputMode :=
  if w = ['S', 'A', 'M', 'P', 'L', 'E', 'S'] then some .samples
  else if w = ['B', 'I', 'T', 'S'] then some .bits
  else none

/-- `BIC1` to `BIC4`. -/
def readBic (w : List Char) : Option BicWord :=
  if w = ['B', 'I', 'C', '1'] then some Config.bic1
  else if w = ['B', 'I', 'C', '2'] then some Config.bic2
  else if w = ['B', 'I', 'C', '3'] then some Config.bic3
  else if w = ['B', 'I', 'C', '4'] then some Config.bic4
  else none

/-- The flip list of a `BLOCK` line. DESIGN CHOICE, R101 is silent: `flip=` without an index lists no flips (log 20). -/
def readFlips : List (List Char) → Option (List Nat)
  | [] => some []
  | key :: indices => if key = ['f', 'l', 'i', 'p'] then indices.mapM (readNat 10) else none

/-- A `CONFIG` line's operands. -/
def readConfig : List (List Char) → Option AsmLine
  | [fsKey, fs, modeKey, mode] =>
    if fsKey = ['f', 's'] ∧ modeKey = ['m', 'o', 'd', 'e'] then
      match readNat 10 fs, readMode mode with
      | some f, some m => some (.config f m)
      | _, _ => none
    else none
  | _ => none

/-- A line's operands by its mnemonic (R100, R101). DESIGN CHOICE, R101 is silent: BLOCK information with another number
of hexadecimal digits than 44 is taken modulo 2^176 (log 20). -/
def readOperands (mnemonic : List Char) (args : List (List Char)) : Option AsmLine :=
  if mnemonic = ['N', 'O', 'P'] then (if args = [] then some .nop else none)
  else if mnemonic = ['R', 'E', 'S', 'E', 'T'] then (if args = [] then some .reset else none)
  else if mnemonic = ['E', 'O', 'S'] then (if args = [] then some .eos else none)
  else if mnemonic = ['C', 'O', 'N', 'F', 'I', 'G'] then readConfig args
  else if mnemonic = ['S', 'A', 'M', 'P', 'L', 'E'] then
    match args with
    | [x] => readSample x
    | _ => none
  else if mnemonic = ['B', 'I', 'T'] then
    if args = [['0']] then some (.bit false) else if args = [['1']] then some (.bit true) else none
  else if mnemonic = ['Z', 'E', 'R', 'O', 'S'] then
    match args with
    | [n] => (readNat 10 n).map .zeros
    | _ => none
  else if mnemonic = ['B', 'I', 'T', 'S'] then
    match args with
    | [n, v] =>
      match readNat 10 n, readHex v with
      | some n, some v => some (.bits n v)
      | _, _ => none
    | _ => none
  else if mnemonic = ['B', 'L', 'O', 'C', 'K'] then
    match args with
    | bic :: info :: flips =>
      match readBic bic, readHex info, readFlips flips with
      | some k, some v, some fl => some (.block k (BitVec.ofNat 176 v) fl)
      | _, _, _ => none
    | _ => none
  else none

/-- The command words of a line of text; none for a line that is no command, no words for an empty line or a comment. -/
def assembleText (line : List Char) : Option (List CmdWord) :=
  match tokens line [] with
  | [] => some []
  | mnemonic :: args => (readOperands mnemonic args).map assemble

end Sys2Proof.Machine
end

