-- ==== Sys2Proof/Safety.lean ====
section
/-! DEFINITION. What counts as a sound state of the block: the invariants that 10_state.md gives its elements between
steps. No run is unsafe by a fault, since no step faults (60_exceptions.md R344). -/

namespace Sys2Proof.Machine

/-- The delay line has its `FIR_TAPS` entries (R29), both oscillators run at their nominal increment, since the PLL
gains are 0 (R28, R34), and the gain is a positive finite number (R31). -/
abbrev Demod.Sound (d : Demod) : Prop :=
  d.fir.length = Config.firTaps ∧ d.ncoC.freq = Config.incC ∧ d.ncoT.freq = Config.incT ∧
    d.agcGain.finite = true ∧ numPos d.agcGain = true

/-- `CNT` is 0 while unsynchronised and 0 to 271 always (R39); a block being filled is tagged with a BIC (R38). -/
abbrev Sync.Sound (y : Sync) : Prop :=
  (y.state = .unsynchronized → y.cnt = 0#9) ∧ y.cnt.toNat < Config.frameBits ∧
    (y.state = .filling → isBic y.bic = true)

/-- `LEN` is `19 × (BN + 1)` while valid and 0 otherwise (R42), and the bytes that hold a value are the first `LEN`. -/
abbrev Sech.Sound (a : Sech) : Prop :=
  a.buf.length = a.len.toNat ∧
    a.len.toNat = if a.valid = true then Config.blockPayloadBytes * (a.bn.toNat + 1) else 0

/-- `LEN` is a whole number of blocks, at least one, at most `LONG_MAX_BYTES`, while valid; without a live
accumulation the buffer is empty and no last block is remembered (R43, R44, R283, R285). -/
abbrev Long.Sound (a : Long) : Prop :=
  a.buf.length = a.len.toNat ∧ a.len.toNat ≤ Config.longMaxBytes ∧
    a.len.toNat % Config.blockPayloadBytes = 0 ∧
    if a.valid = true then Config.blockPayloadBytes ≤ a.len.toNat else a.len.toNat = 0 ∧ a.last = false

/-- `CFG_ERR` is set exactly while the configuration is one that `CONFIG` refuses (R23, R340). -/
abbrev State.ConfigSound (s : State) : Prop :=
  s.status.cfgErr = (s.cfg.mode == .samples && !ratioLegal s.cfg.fsIn)

/-- `STATUS` shows the state (R26, R129), and a block on `L2_OUT` is tagged with a BIC, is a codeword, and names a
position of the frame, 0 unless it was corrected (R94, R236, R237). -/
abbrev State.OutputsSound (s : State) : Prop :=
  s.out.status = statusWord s ∧
    ∀ b ∈ s.out.l2, isBic b.bic = true ∧ syn b.frame = 0#82 ∧ b.pos.toNat < Config.frameBits ∧
      (b.corrected = false → b.pos = 0#9)

/-- The state is sound. -/
abbrev State.Sound (s : State) : Prop :=
  s.demod.Sound ∧ s.sync.Sound ∧ s.sech.Sound ∧ s.long.Sound ∧ s.ConfigSound ∧ s.OutputsSound

/-- Two states that differ at most in frame bits that are stale: at index `CNT` or above (R40). -/
def State.SameButStale (s t : State) : Prop :=
  (∀ i, i < s.sync.cnt.toNat → bitAt s.sync.frame i = bitAt t.sync.frame i) ∧
    t = { s with sync := { s.sync with frame := t.sync.frame } }

end Sys2Proof.Machine
end

