-- ==== Sys2Proof/Certificates/Slice0/Obligations.lean ====
section
/-! DEFINITION. The statements for the provers, in the order of the spec's files. A result stated as an equation
`exec i s = .next t` is also the instruction's completion and its frame: whatever `t` does not name is as in `s`. -/

open Sys2Proof Sys2Proof.Machine

namespace Sys2Proof.Statements

/-- `s` with exactly these outputs driven, and `STATUS` with the values of `s`. -/
def driven (bit : Option Bool) (l2 : Option L2Block) (record : Option Record) (s : State) : State :=
  { s with out := { bit, l2, record, status := statusWord s } }

/-- The conditions of R128 for BIT. -/
abbrev TakesBits (s : State) : Prop :=
  s.status.cfgErr = false ∧ s.status.eos = false ∧ s.cfg.mode = .bits

/-- The conditions of R128 for SAMPLE. -/
abbrev TakesSamples (s : State) : Prop :=
  s.status.cfgErr = false ∧ s.status.eos = false ∧ s.cfg.mode = .samples

/-- `SYNC.SR` after a bit (R231). -/
def srAfter (b : Bool) (y : Sync) : BicWord := (y.sr <<< 1) ||| (BitVec.ofBool b).setWidth 16

/-- The command bits R82 names for an opcode, beside the opcode itself. -/
def namedBits (op : BitVec 4) : CmdWord :=
  if op = 2#4 then 0x1FFFFFFFF#64 else if op = 3#4 then 0xFFFFFFFF#64 else if op = 4#4 then 1#64 else 0#64

/-- In how many bits two 16-bit values differ. -/
def bitDistance (v w : BicWord) : Nat := (seqOf (v ^^^ w)).count true

/-- `f` is the frame that `b`, received last, completes: bits 0..270 are those collected (R235). -/
abbrev Completes (s : State) (b : Bool) (f : Frame) : Prop :=
  s.sync.state = .filling ∧ s.sync.cnt = 271#9 ∧ bitAt f 271 = (b ^^ scrAt 271) ∧
    ∀ j < 271, bitAt f j = bitAt s.sync.frame j

/-- The synchroniser after a whole frame `f` (R236, R238). -/
def syncAfterFrame (sr : BicWord) (f : Frame) (y : Sync) : Sync :=
  { y with state := .unsynchronized, sr, cnt := 0#9, frame := f }

/-- `s` in the middle of the step that accepted a block: `L2_OUT` is driven, the block not yet routed (R124, R125). -/
def withBlock (block : L2Block) (y : Sync) (s : State) : State :=
  { s with sync := y, out := { s.out with bit := none, l2 := some block, record := none } }

/-- The accumulation that block 0 starts (R273). -/
def sechStarted (b : SechBlock) : Sech :=
  { valid := true, du := b.du, cid := b.cid, dt := b.dt, nid := b.nid, bn := 0#4, buf := bytesOf b.pay, len := 19#9 }

/-- The accumulation after a continuing block (R274). -/
def sechContinued (b : SechBlock) (a : Sech) : Sech :=
  { a with bn := b.bn, buf := a.buf ++ bytesOf b.pay, len := a.len + 19#9 }

/-- A block of this header and number continues the accumulation (R274). -/
abbrev SechFollows (b : SechBlock) (a : Sech) : Prop :=
  a.valid = true ∧ b.du = a.du ∧ b.cid = a.cid ∧ b.dt = a.dt ∧ b.nid = a.nid ∧ b.bn.toNat = a.bn.toNat + 1

/-- The accumulator after a reset by a rule (R275, R276). -/
def sechEmptied (a : Sech) : Sech := { a with valid := false, len := 0#9, buf := [] }

/-- The long accumulator after a reset by a rule (R283, R285). -/
def longEmptied (a : Long) : Long := { a with valid := false, len := 0#13, last := false, buf := [] }

/-- The mini-header CRC of a LongBlock passes (R283). -/
abbrev MiniHeaderPasses (b : LongBlock) : Prop := crc6 (seqOf (miniHeader b)) = b.c6

/-- The block continues a live buffer (R284). -/
abbrev LongFollows (b : LongBlock) (a : Long) : Prop :=
  a.valid = true ∧ a.last = false ∧ b.seq.toNat = (a.seq.toNat + 1) % 16

/-- The accumulator after an accepted LongBlock, with the bytes `bytes` (R284, R285). -/
def longHolding (b : LongBlock) (bytes : List Byte) : Long :=
  { valid := true, seq := b.seq, last := b.lf, buf := bytes, len := BitVec.ofNat 13 bytes.length }

/-- The bytes of TLV records one after another, without padding or separator (R97). -/
def tlvBytes (records : List Tlv) : List Byte :=
  records.flatMap fun r => r.tag :: r.length :: r.value

/-- Bytes that hold no whole TLV record: fewer than two, or a record cut short (R291). -/
def TlvTail (tail : List Byte) : Prop :=
  tail.length < 2 ∨ ∃ tag len rest, tail = tag :: len :: rest ∧ rest.length < len.toNat

/-- Days from 1858-11-17 (Modified Julian Date 0) to a date of the Gregorian calendar. -/
def gregorianMjd (year month day : Int) : Int :=
  let y := if month ≤ 2 then year - 1 else year
  let m := if month ≤ 2 then month + 9 else month - 3
  365 * y + y / 4 - y / 100 + y / 400 + (153 * m + 2) / 5 + day - 678882

/-- Days in a month of the Gregorian calendar. -/
def monthDays (year month : Int) : Int :=
  if month = 2 then (if year % 4 = 0 ∧ (year % 100 ≠ 0 ∨ year % 400 = 0) then 29 else 28)
  else if month = 4 ∨ month = 6 ∨ month = 9 ∨ month = 11 then 30 else 31

/-- A bit sequence as a polynomial over GF(2), the first bit the highest power (R153). -/
noncomputable def bitsPoly (f : List Bool) : Polynomial (ZMod 2) :=
  f.foldl (fun acc b => acc * Polynomial.X + Polynomial.C (if b then 1 else 0)) 0

/-- The demodulator after the stages up to the AGC, and the gain-scaled sample (R181 to R187). -/
def afterAgc (x : Scalar) (d : Demod) : Cplx × Demod :=
  let dl := (mixSample x d.ncoC.phase :: d.fir).take 256
  let a := cplxScale d.agcGain (firSum 0 dl Cplx.zero)
  (a, { d with
    ncoC := { d.ncoC with phase := d.ncoC.phase + d.ncoC.freq }
    fir := dl
    agcGain := agcUpdate d.agcGain (cplxMag a) })

/-- The demodulator after a kept sample, before the slicer (R190 to R196). -/
def afterTiming (x : Scalar) (d : Demod) : Demod :=
  let a := (afterAgc x d).1
  { (afterAgc x d).2 with
    decCnt := 0#1
    discPrev := a
    ncoT := { d.ncoT with phase := d.ncoT.phase + d.ncoT.freq }
    sliceAcc := numAdd d.sliceAcc (numMul (numAbs (cosP d.ncoT.phase)) (phaseStep a d.discPrev)) }

/-- A zero crossing of the timing oscillator on this sample (R194). -/
abbrev Crosses (n : Nco) : Prop := cneg (n.phase + n.freq) ≠ cneg n.phase

/-- The 8-bit status word `v` shows the elements of `s` in the layout of R26. -/
abbrev ShowsStatus (v : BitVec 8) (s : State) : Prop :=
  v.getLsbD 0 = s.status.cfgErr ∧ v.getLsbD 1 = s.status.eos ∧
    (v.getLsbD 2 = true ↔ s.sync.state = .filling) ∧ v.getLsbD 3 = s.status.cmdIgn ∧
    (v.getLsbD 4 = true ↔ s.cfg.mode = .bits) ∧ v.toNat < 32

/-- `n` bits of an information field from bit `a`, as a number: bit `i` of the field is the bit of weight 2^(175-i)
(R63, R86). -/
def infoNat (f : Info) (a n : Nat) : Nat := f.toNat / 2 ^ (176 - a - n) % 2 ^ n

/-- A complex number with finite parts. -/
abbrev FiniteParts (z : Cplx) : Prop := z.re.finite = true ∧ z.im.finite = true

/-- A demodulator that has seen only zero samples (R49, R197). -/
abbrev Silent (d : Demod) : Prop :=
  d.fir = List.replicate 256 Cplx.zero ∧ d.discPrev = Cplx.zero ∧ d.sliceAcc = Scalar.zero ∧ d.agcGain.finite = true

end Sys2Proof.Statements

open Sys2Proof.Statements

/-! ## Encodings (30_encoding.md) -/

/-- Decoding the encoding of a well-formed instruction gives it back, for every row of the opcode table and every
operand value (R81, R84, R86 to R89, R96). -/
def Obligations.DecodeOfEncodeIsTheInstruction : Prop :=
  ∀ i : Instr, i.wellFormed = true → decode (encode i) = .instr i

/-- Words written out from the spec's encodings decode to the instruction they stand for (R81, R84, R86, R96, V-CMD-1).
That a bare 8-bit word is read as an information header, and 0xB0 as BMCH's, is the model's choice: log 12. -/
def Obligations.TableWordsDecode : Prop :=
  decodeTableWord 64 0x0000000000000000 = some .nop ∧
  decodeTableWord 64 0x200000010003E800 = some (.config .bits 256000#32) ∧
  decodeTableWord 64 0x300000003F800000 = some (.sample 0x3F800000#32) ∧
  decodeTableWord 64 0x4FFFFFFFFFFFFFFE = some (.bit false) ∧
  decodeTableWord 64 0xF000000000000000 = some (.reserved8F 7#3) ∧
  decodeTableWord 16 0xA791 = some .bic3 ∧
  decodeTableWord 16 0x135F = none ∧
  decodeTableWord 8 0xB0 = some (.bmch 0#168) ∧
  decodeTableWord 8 0xD0 = some (.silcCF 1#2 0#172) ∧
  decode (.l4 [0x0C#8, 0x24#8, 0x07#8]) =
    .instr (.l4Tlv { first := false, last := false, ext := none, crc := 0x24#8, data := [0x07#8] })

/-- R81: the opcode map, every value of `OP` decoded, with the operand bits of R82. -/
def Obligations.OpcodeMapOfCommands : Prop :=
  ∀ w : CmdWord, let op := (w >>> 60).toNat
    (op = 0 → decodeCmd w = .nop) ∧ (op = 1 → decodeCmd w = .reset) ∧
    (op = 2 → decodeCmd w = .config (if w.getLsbD 32 then .bits else .samples) (BitVec.ofNat 32 w.toNat)) ∧
    (op = 3 → decodeCmd w = .sample (BitVec.ofNat 32 w.toNat)) ∧
    (op = 4 → decodeCmd w = .bit (w.getLsbD 0)) ∧ (op = 5 → decodeCmd w = .eos) ∧
    (6 ≤ op → op < 8 → decodeCmd w = .reserved67 (BitVec.ofNat 1 op)) ∧
    (8 ≤ op → decodeCmd w = .reserved8F (BitVec.ofNat 3 op))

/-- R83: command bits that R82 does not name for the opcode change neither what is decoded nor what the step does. -/
def Obligations.ReservedCommandBitsAreIgnored : Prop :=
  ∀ w w' : CmdWord, cmdOp w = cmdOp w' → w &&& namedBits (cmdOp w) = w' &&& namedBits (cmdOp w) →
    decodeCmd w = decodeCmd w' ∧
      ∀ (s : State) (rest : List CmdWord), step { s with port := w :: rest } = step { s with port := w' :: rest }

/-- R232: the four constants are BICs and no other 16-bit value is, and the decoder rejects every other value by name;
two of them differ in at least 10 bits, and some two in no more. -/
def Obligations.OnlyTheFourConstantsAreBics : Prop :=
  (∀ v : BicWord,
    (isBic v = true ↔ v = 0x135E#16 ∨ v = 0x74A6#16 ∨ v = 0xA791#16 ∨ v = 0xC875#16) ∧
    (decode (.bic v) = .reject .notABic ↔ isBic v = false)) ∧
  (∀ v w : BicWord, isBic v = true → isBic w = true → v ≠ w → 10 ≤ bitDistance v w) ∧
  ∃ v w : BicWord, isBic v = true ∧ isBic w = true ∧ v ≠ w ∧ bitDistance v w = 10

/-- R287: a message of at least 19 bytes always has its header, so one of the three long-message rows is decoded. -/
def Obligations.LongMessagesAlwaysHaveAHeader : Prop :=
  ∀ bytes : List Byte, 19 ≤ bytes.length →
    (∃ f l e t rest, decode (.l4 bytes) = .instr (.l4Ca f l e t rest)) ∨
    (∃ m, decode (.l4 bytes) = .instr (.l4Tlv m)) ∨
    (∃ t m, t ≠ 12#4 ∧ decode (.l4 bytes) = .instr (.l4Payload t m))

/-! ## The command step (40_ports.md) -/

/-- The step runs the decoded command on the state whose port no longer holds it (R120). While the host presents no
command the block idles: the model's choice, log 1, no rule of the spec. -/
def Obligations.StepRunsTheFirstPresentedCommand : Prop :=
  (∀ (s : State) (w : CmdWord) (rest : List CmdWord), s.port = w :: rest →
    step s = exec (decodeCmd w) { s with port := rest }) ∧
  (∀ s : State, s.port = [] → step s = .next (driven none none none s))

/-- R121, R126, R127: NOP changes nothing, EOS sets `STATUS.EOS` and flushes nothing, a reserved opcode sets
`STATUS.CMD_IGN`; each in every state, driving only `STATUS`. -/
def Obligations.NopEosAndReservedCommands : Prop :=
  ∀ s : State,
    exec .nop s = .next (driven none none none s) ∧
    exec .eos s = .next (driven none none none { s with status := { s.status with eos := true } }) ∧
    (∀ low, exec (.reserved67 low) s =
      .next (driven none none none { s with status := { s.status with cmdIgn := true } })) ∧
    (∀ low, exec (.reserved8F low) s =
      .next (driven none none none { s with status := { s.status with cmdIgn := true } }))

/-- Every step completes: no command, sample, bit, frame or fragment stops the block (R120, R344). -/
def Obligations.EveryStepCompletes : Prop :=
  ∀ s : State, ∃ t, step s = .next t

/-- RESET leaves the reset state, whatever the state before (R122, R370); the contents of `SYNC.FRAME` are left open
here, since R49 gives none. -/
def Obligations.ResetLeavesTheResetState : Prop :=
  ∀ s : State, ∃ t, exec .reset s = .next t ∧
    t = { State.reset with
      sync := { State.reset.sync with frame := t.sync.frame }
      port := s.port }

/-- The values of R49 in the reset state, and `STATUS` = 0x00 (R122, R371); `AGC_G0` is only known to be positive. -/
def Obligations.ResetValues : Prop :=
  let s := State.reset
  s.cfg = { fsIn := 256000#32, mode := .samples } ∧
  s.status = { cfgErr := false, eos := false, cmdIgn := false } ∧
  s.demod.ncoC = { phase := 0#32, freq := 0x4C000000#32 } ∧
  s.demod.fir = List.replicate 256 Cplx.zero ∧ s.demod.decCnt = 0#1 ∧
  (s.demod.agcGain = agcG0 ∧ s.demod.agcGain.finite = true ∧ numPos s.demod.agcGain = true) ∧
  s.demod.discPrev = Cplx.zero ∧
  s.demod.ncoT = { phase := 0#32, freq := 0x10000000#32 } ∧ s.demod.sliceAcc = Scalar.zero ∧
  (s.sync.state = .unsynchronized ∧ s.sync.sr = 0#16 ∧ s.sync.bic = 0#16 ∧ s.sync.cnt = 0#9) ∧
  (s.sech.valid = false ∧ s.sech.du = 0#2 ∧ s.sech.cid = 0#4 ∧ s.sech.dt = 0#4 ∧ s.sech.nid = 0#4 ∧
    s.sech.bn = 0#4 ∧ s.sech.len = 0#9) ∧
  (s.long.valid = false ∧ s.long.seq = 0#4 ∧ s.long.last = false ∧ s.long.len = 0#13) ∧
  statusWord s = 0x00#8

/-- R123: CONFIG resets, loads the configuration, and raises ConfigError exactly where the ratio check fails in SAMPLES
mode, with the default `F_INT` = 256000; `STATUS` is 0x10 in BITS mode, else 0x01 with the error and 0x00 without. -/
def Obligations.ConfigResetsLoadsAndChecks : Prop :=
  ∀ (mode : InputMode) (fsIn : BitVec 32) (s : State),
    let bad := mode = .samples ∧ (fsIn.toNat = 0 ∨ 4 * fsIn.toNat < 256000 ∨ 250 * 256000 < fsIn.toNat)
    ∃ t, exec (.config mode fsIn) s = .next t ∧
      t = { State.reset with
        cfg := { fsIn, mode }
        status := { cfgErr := decide bad, eos := false, cmdIgn := false }
        sync := { State.reset.sync with frame := t.sync.frame }
        out := { bit := none, l2 := none, record := none
                 status := if mode = .bits then 0x10#8 else if bad then 0x01#8 else 0x00#8 }
        port := s.port }

/-- R128: an input that is not accepted changes nothing but `STATUS.CMD_IGN`; an accepted one leaves the flags as they
are. -/
def Obligations.InputGating : Prop :=
  ∀ s : State,
    let t := driven none none none { s with status := { s.status with cmdIgn := true } }
    (∀ x, ¬ TakesSamples s → exec (.sample x) s = .next t) ∧ (∀ b, ¬ TakesBits s → exec (.bit b) s = .next t) ∧
    (∀ x, TakesSamples s → ∃ u, exec (.sample x) s = .next u ∧ u.status = s.status) ∧
    (∀ b, TakesBits s → ∃ u, exec (.bit b) s = .next u ∧ u.status = s.status)

/-- R129: `BIT_OUT` is driven only by an accepted SAMPLE, `L2_OUT` only by an accepted SAMPLE or BIT, and `REC_OUT` only
where `L2_OUT` is; `STATUS` is driven by every step with the values after it, in the layout of R26: bit 0 `CFG_ERR`, bit 1
`EOS`, bit 2 `SYNC`, bit 3 `CMD_IGN`, bit 4 `MODE`, bits 7:5 zero. -/
def Obligations.OutputsComeFromAcceptedInputs : Prop :=
  (∀ s : State, ShowsStatus (statusWord s) s) ∧
  (∀ s t : State, step s = .next t → ShowsStatus t.out.status t) ∧
  ∀ (s t : State) (w : CmdWord) (rest : List CmdWord), s.port = w :: rest → step s = .next t →
    (t.out.bit.isSome = true → ∃ x, decodeCmd w = .sample x ∧ TakesSamples s) ∧
    (t.out.l2.isSome = true →
      (∃ x, decodeCmd w = .sample x ∧ TakesSamples s) ∨ (∃ b, decodeCmd w = .bit b ∧ TakesBits s)) ∧
    (t.out.record.isSome = true → t.out.l2.isSome = true)

/-- Only a CONFIG whose check fails sets `CFG_ERR` (R340, R344). -/
def Obligations.OnlyARefusedConfigSetsCfgErr : Prop :=
  ∀ s t : State, step s = .next t → s.status.cfgErr = false → t.status.cfgErr = true →
    ∃ w rest fsIn, s.port = w :: rest ∧ decodeCmd w = .config .samples fsIn ∧
      ¬ (64000 ≤ fsIn.toNat ∧ fsIn.toNat ≤ 64000000)

/-- Apart from RESET and CONFIG no step changes the configuration or `CFG_ERR`, and none clears `EOS` or `CMD_IGN`
(R21 to R25). -/
def Obligations.OnlyResetAndConfigClearTheFlags : Prop :=
  ∀ (s t : State) (w : CmdWord) (rest : List CmdWord), s.port = w :: rest → step s = .next t →
    decodeCmd w ≠ .reset → (∀ m f, decodeCmd w ≠ .config m f) →
    t.cfg = s.cfg ∧ t.status.cfgErr = s.status.cfgErr ∧
      (s.status.eos = true → t.status.eos = true) ∧ (s.status.cmdIgn = true → t.status.cmdIgn = true)

/-- A table word placed by `withFetchWord` runs as the next step: a command word as itself, a BIC or an information
header inside the BIT command that completes it (log 11, the model's own arrangement). -/
def Obligations.PlacedTableWordsRunNext : Prop :=
  ∀ (s : State) (w : Nat),
    (step (s.withFetchWord 64 w) = exec (decodeCmd (BitVec.ofNat 64 w)) s) ∧
    (∀ i, decodeTableWord 16 w = some i → ∃ s', step (s.withFetchWord 16 w) = exec i s' ∧
      s'.sync.sr = BitVec.ofNat 16 w ∧ s'.sync.state = .unsynchronized ∧ s'.demod = s.demod ∧
      s'.sech = s.sech ∧ s'.long = s.long) ∧
    (∃ s', step (s.withFetchWord 8 w) = exec (decodeInfo (infoOfHeader w)) s' ∧
      s'.out.l2 = some ⟨0x135E#16, encodeFrame (infoOfHeader w), false, 0#9⟩ ∧ s'.demod = s.demod ∧
      s'.sech = s.sech ∧ s'.long = s.long)

/-! ## Bit utilities, CRC, syndrome, scrambling (41_bitutil_crc.md) -/

/-- R151: bytes and bits are inverse conversions, in both directions. -/
def Obligations.BytesAndBitsAreInverse : Prop :=
  (∀ (k : Nat) (f : BitVec (8 * k)), bitsOf (bytesOf f) = seqOf f) ∧
  (∀ bytes : List Byte, let f := BitVec.ofNat (8 * bytes.length) (beNat bytes)
    seqOf f = bitsOf bytes ∧ bytesOf f = bytes)

/-- R153: the engine computes the remainder of `F(x) · x^W` by the generator; a sequence of zeros, the empty one too,
gives 0, and the engine is linear on sequences of equal length. -/
def Obligations.CrcIsThePolynomialRemainder : Prop :=
  ∀ (W : Nat) (p : BitVec W), 0 < W →
    (∀ f : List Bool, bitsPoly (seqOf (crc p f)) =
      (bitsPoly f * Polynomial.X ^ W) %ₘ (Polynomial.X ^ W + bitsPoly (seqOf p))) ∧
    (∀ n : Nat, crc p (List.replicate n false) = 0#W) ∧
    (∀ f g : List Bool, f.length = g.length →
      crc p (List.zipWith (fun a b => a ^^ b) f g) = crc p f ^^^ crc p g)

/-- R158: an encoded frame is the information field, its CRC-14 and the parity of both; it has syndrome 0. -/
def Obligations.EncodedFramesAreCodewords : Prop :=
  ∀ info : Info,
    let f := encodeFrame info
    infoOf f = info ∧ msb f 176 14 = crc14 (seqOf info) ∧ msb f 190 82 = crc82 (seqOf (msb f 0 190)) ∧
      syn f = 0#82

/-- The syndrome table's entries are non-zero and pairwise distinct, so the lookup finds exactly the flipped bit
(R160, R161, R162). -/
def Obligations.SyndromeTableNamesEachPosition : Prop :=
  ∀ i < 272, romSyn i ≠ 0#82 ∧ findSyn (romSyn i) = some i

/-- Two flipped bits in an error-free frame never look like none or one (R161). -/
def Obligations.TwoFlipsAreNeverACodewordNorCorrectable : Prop :=
  ∀ (c : Frame) (i j : Nat), syn c = 0#82 → i < j → j < 272 →
    syn (c ^^^ unitFrame i ^^^ unitFrame j) ≠ 0#82 ∧ findSyn (syn (c ^^^ unitFrame i ^^^ unitFrame j)) = none

/-- Three flipped bits in an error-free frame never look like none or one (R161). -/
def Obligations.ThreeFlipsAreNeverACodewordNorCorrectable : Prop :=
  ∀ (c : Frame) (i j k : Nat), syn c = 0#82 → i < j → j < k → k < 272 →
    syn (c ^^^ unitFrame i ^^^ unitFrame j ^^^ unitFrame k) ≠ 0#82 ∧
      findSyn (syn (c ^^^ unitFrame i ^^^ unitFrame j ^^^ unitFrame k)) = none

/-- R170: the sequence starts with the seed's bits and follows a[k] = a[k-5] XOR a[k-9]; scrambling with it is
position by position and its own inverse (R172). -/
def Obligations.ScramblingSequenceAndInverse : Prop :=
  romScr = 0xFF83DF1732094ED1E7CD8A91C6D5C4C44021184E5586F4DC8A15A7EC92DF93533018CA34BFA2#304 ∧
  (∀ k < 9, scrAt k = (0x1FF#9).getLsbD (8 - k)) ∧
  (∀ k < 304, 9 ≤ k → scrAt k = (scrAt (k - 5) ^^ scrAt (k - 9))) ∧
  ∀ f : Frame, scramble (scramble f) = f ∧ ∀ i < 272, bitAt (scramble f) i = (bitAt f i ^^ scrAt i)

/-! ## Demodulator (42_demodulator.md) -/

/-- R183, R195: with the default gains any phase error leaves both oscillators as they are. -/
def Obligations.PhaseErrorsChangeNothing : Prop :=
  ∀ (e : Scalar) (d : Demod), pllC e d = d ∧ pllT e d = d

/-- The datapath's arithmetic, as the rules state it in exact arithmetic and the model reads it in `Num`: a sample whose
exponent field is not all ones is finite and not of the other sign than `cmd[31]` (R82); `cosP` and `sinP` are finite,
exact at the quarter turns and not of the other sign than cosine and sine (R180, R196); the mixer turns 0 into 0, leaves
a sample as it is at phase 0, and turns 1 into cosP(P) - j·sinP(P) at every phase (R182, V-DM-1); a single sample in the
delay line is weighted by the tap of its place (R186); `w` = 0 gives 0 and keeps the gain, and a positive gain stays
positive (R187); the discriminator stores its operand (R192), gives 0 when it or the one before is 0, the angles of
V-DM-3 and of the conjugate for a previous j (R192, R193), and 0 for a positive real after a positive real; `arg` of
finite parts lies in (-π, π] and is not of the other sign than the imaginary part (R192); the slicer answers whether a
finite accumulator is positive (R197). The model's own, and no rule of the spec: what a code names (log 3), exact results
in `Num` (log 4), a gain that stays positive (log 5), finite taps (log 6), `cosP` and `sinP` exact or of the right sign
in `Num` (log 7), the finite patterns (log 15), and the expansion of the complex operations (log 21). -/
def Obligations.DatapathArithmetic : Prop :=
  (∀ x : BitVec 32, x.extractLsb' 23 8 ≠ 0xFF#8 → (numOfBinary32 x).finite = true ∧
    (x.getLsbD 31 = false → 0 ≤ (numOfBinary32 x).code) ∧ (x.getLsbD 31 = true → (numOfBinary32 x).code ≤ 0)) ∧
  ([0x00000000#32, 0x40000000#32, 0x80000000#32, 0xC0000000#32].map (fun p => (cosP p, sinP p)) =
    [(Scalar.one, Scalar.zero), (Scalar.zero, Scalar.one), (Scalar.negOne, Scalar.zero),
      (Scalar.zero, Scalar.negOne)]) ∧
  (∀ p : BitVec 32, (cosP p).finite = true ∧ (sinP p).finite = true ∧
    (p.toNat ≤ 0x40000000 ∨ 0xC0000000 ≤ p.toNat → 0 ≤ (cosP p).code) ∧
    (0x40000000 ≤ p.toNat → p.toNat ≤ 0xC0000000 → (cosP p).code ≤ 0) ∧
    (p.toNat ≤ 0x80000000 → 0 ≤ (sinP p).code) ∧ (0x80000000 ≤ p.toNat → (sinP p).code ≤ 0)) ∧
  (∀ p, mixSample Scalar.zero p = Cplx.zero) ∧
  (∀ x : Scalar, x.finite = true → mixSample x 0#32 = ⟨x, Scalar.zero⟩) ∧
  (∀ p, mixSample Scalar.one p = ⟨cosP p, numNeg (sinP p)⟩) ∧
  (∀ (d : Demod) (z : Cplx) (k : Nat), k < 256 → d.fir = (List.replicate 256 Cplx.zero).set k z →
    firOut d = cplxScale (romFir k) z) ∧
  (∀ d : Demod, d.agcGain.finite = true → agc Cplx.zero d = (Cplx.zero, d)) ∧
  (∀ (w : Cplx) (d : Demod), d.agcGain.finite = true → 0 < d.agcGain.code →
    ∃ g : Scalar, (agc w d).2 = { d with agcGain := g } ∧ g.finite = true ∧ 0 < g.code) ∧
  (∀ (a : Cplx) (d : Demod), (disc a d).2 = { d with discPrev := a } ∧
    (a = Cplx.zero ∨ d.discPrev = Cplx.zero → (disc a d).1 = Scalar.zero) ∧
    ∀ x y : Scalar, x.finite = true → 0 < x.code → y.finite = true → 0 < y.code → (numMul x y).finite = true →
      d.discPrev = ⟨y, Scalar.zero⟩ → a = ⟨x, Scalar.zero⟩ → (disc a d).1 = Scalar.zero) ∧
  (∀ (prev a : Cplx) (angle : Scalar), (prev, a, angle) ∈
      [(⟨Scalar.one, Scalar.zero⟩, ⟨Scalar.zero, Scalar.one⟩, Scalar.halfPi),
        (⟨Scalar.one, Scalar.zero⟩, ⟨Scalar.negOne, Scalar.zero⟩, Scalar.pi),
        (⟨Scalar.one, Scalar.zero⟩, ⟨Scalar.zero, Scalar.negOne⟩, numNeg Scalar.halfPi),
        (⟨Scalar.zero, Scalar.one⟩, ⟨Scalar.one, Scalar.zero⟩, numNeg Scalar.halfPi),
        (⟨Scalar.zero, Scalar.one⟩, ⟨Scalar.zero, Scalar.one⟩, Scalar.zero)] →
    ∀ d : Demod, d.discPrev = prev → (disc a d).1 = angle) ∧
  (∀ z : Cplx, FiniteParts z → (cplxArg z).finite = true ∧ numLess (numNeg Scalar.pi) (cplxArg z) = true ∧
    numLess Scalar.pi (cplxArg z) = false ∧ (0 < z.im.code → 0 ≤ (cplxArg z).code) ∧
    (z.im.code < 0 → (cplxArg z).code ≤ 0)) ∧
  ∀ d : Demod, d.sliceAcc.finite = true →
    ((slice d).1 = true ↔ 0 < d.sliceAcc.code) ∧ (slice d).2 = { d with sliceAcc := Scalar.zero }

/-- An accepted sample that the decimator drops changes the mixer phase, the delay line, the gain and `DEC.CNT`, and
drives no bit (R181, R182, R185, R186, R187, R190). The order of the mixer's factors, the order of the filter's sum and the
guard of the gain are the model's choice: log 21, 6, 5. -/
def Obligations.DroppedSampleOnlyMovesTheFrontEnd : Prop :=
  ∀ (x : BitVec 32) (s : State), TakesSamples s → s.demod.decCnt = 0#1 →
    exec (.sample x) s = .next (driven none none none
      { s with demod := { (afterAgc (numOfBinary32 x) s.demod).2 with decCnt := 1#1 } })

/-- A kept sample without a zero crossing also updates the discriminator, the timing phase and the accumulator, and
drives no bit (R190, R192, R194, R196). The order of the factors of the weight product and the expansion of the complex
product are the model's choice: log 21; so are those of the front end: log 21, 6, 5. -/
def Obligations.KeptSampleWithoutCrossingIntegrates : Prop :=
  ∀ (x : BitVec 32) (s : State), TakesSamples s → s.demod.decCnt = 1#1 → ¬ Crosses s.demod.ncoT →
    exec (.sample x) s = .next (driven none none none { s with demod := afterTiming (numOfBinary32 x) s.demod })

/-- A kept sample at a zero crossing drives the sign of the accumulator, clears it, and does to the synchroniser and
the reassembler what BIT does with that bit in BITS mode (R194, R197, R198, R378). The accumulator is that of the statement
above, so the order of the factors of its weight product (R196) is the model's choice too: log 21, and log 6, 5 for the
front end. -/
def Obligations.KeptSampleAtACrossingDeliversItsBit : Prop :=
  ∀ (x : BitVec 32) (s : State), TakesSamples s → s.demod.decCnt = 1#1 → Crosses s.demod.ncoT →
    let d := afterTiming (numOfBinary32 x) s.demod
    let b := numPos d.sliceAcc
    ∃ u, exec (.bit b) { s with cfg := { s.cfg with mode := .bits } } = .next u ∧
      exec (.sample x) s = .next (driven (some b) u.out.l2 u.out.record
        { u with cfg := s.cfg, demod := { d with sliceAcc := Scalar.zero } })

/-- R199: from reset, bits are driven on the samples n = 7 + 16k and on no other, whatever the samples are. -/
def Obligations.BitsComeEverySixteenSamples : Prop :=
  ∀ (xs : List (BitVec 32)) (x : BitVec 32) (rest : List CmdWord) (t : State),
    Host.Core.run Sys2Proof.core (xs.length + 1)
      { State.reset with port := (xs ++ [x]).flatMap (fun x => commandWord (.sample x)) ++ rest } = .next t →
    (t.out.bit.isSome = true ↔ xs.length % 16 = 7)

/-- A demodulator that has seen only zeros answers a zero sample with no bit but 0 and stays so (R197, R49).
That products with 0 are 0 in `Num`, and taps and cosines finite, is the model's reading: log 4, 6, 7. -/
def Obligations.ZeroSamplesGiveZeroBits : Prop :=
  ∀ (s : State), Silent s.demod → ∃ t, exec (.sample 0#32) s = .next t ∧
    Silent t.demod ∧ (t.out.bit = none ∨ t.out.bit = some false)

/-! ## Synchroniser (43_l2_sync.md) -/

/-- R231, R234: while unsynchronised, a bit that completes no BIC changes only `SYNC.SR`. -/
def Obligations.BitWithoutABicOnlyShifts : Prop :=
  ∀ (b : Bool) (s : State), TakesBits s → s.sync.state = .unsynchronized → isBic (srAfter b s.sync) = false →
    exec (.bit b) s = .next (driven none none none { s with sync := { s.sync with sr := srAfter b s.sync } })

/-- While unsynchronised, a bit that completes a BIC runs that BIC's row after the shift (R230, R231). -/
def Obligations.BitThatCompletesABicRunsItsRow : Prop :=
  ∀ (b : Bool) (s : State) (i : Instr), TakesBits s → s.sync.state = .unsynchronized →
    decodeBic (srAfter b s.sync) = some i →
    exec (.bit b) s = exec i (driven none none none { s with sync := { s.sync with sr := srAfter b s.sync } })

/-- A BIC row starts a block tagged with that BIC while unsynchronised (R233), and has no effect while filling (R240, an
inference the spec marks as its own). That a BIC is a row with a meaning of its own is the model's choice: log 11. -/
def Obligations.BicRowsStartABlock : Prop :=
  ∀ (s : State) (i : Instr) (v : BicWord), (i, v) ∈ [(.bic1, 0x135E#16), (.bic2, 0x74A6#16), (.bic3, 0xA791#16),
      (.bic4, 0xC875#16)] →
    exec i s = .next (driveStatus (if s.sync.state = .unsynchronized then
      { s with sync := { s.sync with bic := v, cnt := 0#9, state := .filling } } else s))

/-- R235, R240: while filling before the last position, a bit is descrambled and stored at index `CNT`; every other
frame bit stays, nothing is searched and nothing is driven. -/
def Obligations.FillingBitIsDescrambledAndStored : Prop :=
  ∀ (b : Bool) (s : State), TakesBits s → s.sync.state = .filling → s.sync.cnt.toNat < 271 →
    ∃ f : Frame, exec (.bit b) s = .next (driven none none none
        { s with sync := { s.sync with sr := srAfter b s.sync, cnt := s.sync.cnt + 1#9, frame := f } }) ∧
      bitAt f s.sync.cnt.toNat = (b ^^ scrAt s.sync.cnt.toNat) ∧
      ∀ j < 272, j ≠ s.sync.cnt.toNat → bitAt f j = bitAt s.sync.frame j

/-- R236, R238, R239: a completed frame with syndrome 0 is driven on `L2_OUT` uncorrected, synchronisation is dropped,
and the row of its information field runs in the same step. -/
def Obligations.ErrorFreeFrameIsAcceptedAndRouted : Prop :=
  ∀ (b : Bool) (s : State) (f : Frame), TakesBits s → Completes s b f → syn f = 0#82 →
    exec (.bit b) s = exec (decodeInfo (infoOf f))
      (withBlock ⟨s.sync.bic, f, false, 0#9⟩ (syncAfterFrame (srAfter b s.sync) f s.sync) s)

/-- R237: a completed frame that is an error-free frame with one bit flipped, at any position, is corrected: `L2_OUT`
carries the error-free frame and the position, and the row of its information field runs. -/
def Obligations.SingleFlippedBitIsCorrected : Prop :=
  ∀ (b : Bool) (s : State) (c : Frame) (i : Nat), TakesBits s → syn c = 0#82 → i < 272 →
    Completes s b (c ^^^ unitFrame i) →
    exec (.bit b) s = exec (decodeInfo (infoOf c))
      (withBlock ⟨s.sync.bic, c, true, BitVec.ofNat 9 i⟩
        (syncAfterFrame (srAfter b s.sync) (c ^^^ unitFrame i) s.sync) s)

/-- R237, R342: a completed frame whose syndrome is neither 0 nor in the table is discarded: no output, no change but in
the synchroniser. -/
def Obligations.UncorrectableFrameIsDiscarded : Prop :=
  ∀ (b : Bool) (s : State) (f : Frame), TakesBits s → Completes s b f → syn f ≠ 0#82 →
    (∀ i < 272, syn f ≠ romSyn i) →
    exec (.bit b) s = .next (driven none none none
      { s with sync := syncAfterFrame (srAfter b s.sync) f s.sync })

/-- After a BIC, 272 BIT commands that carry the scrambled bits of an error-free frame deliver that frame on the last of
them, wherever the bits came from and whatever was in the frame buffer (R235, R236, R239). -/
def Obligations.ScrambledFrameIsDelivered : Prop :=
  ∀ (s : State) (f : Frame) (rest : List CmdWord), TakesBits s → s.sync.state = .filling → s.sync.cnt = 0#9 →
    s.port = bitWords (seqOf (scramble f)) ++ rest → syn f = 0#82 →
    Host.Core.run Sys2Proof.core 272 s = exec (decodeInfo (infoOf f))
      (withBlock ⟨s.sync.bic, f, false, 0#9⟩ (syncAfterFrame (msb (scramble f) 256 16) f s.sync) { s with port := rest })

/-- Every block ever driven on `L2_OUT` has syndrome 0, whatever the state (R236, R237). -/
def Obligations.EveryAcceptedBlockIsACodeword : Prop :=
  ∀ (s t : State) (block : L2Block), step s = .next t → t.out.l2 = some block → syn block.frame = 0#82

/-! ## Reassembler (44_reassembler.md) -/

/-- R270: routing an information field is running the row it decodes to; and the routing map and layouts of R86 to R89
over every 176-bit field: info bit 23 of a SechBlock and bits 22 and 23 of a LongBlock are in no operand and ignored
(R87, R88, R99). -/
def Obligations.RoutingRunsTheDecodedRow : Prop :=
  (∀ (f : Info) (s : State), exec (decodeInfo f) s = .next (driveStatus (reassemble f s))) ∧
  (∀ f : Info, let silc := infoNat f 0 4
    (silc = 8 → decodeInfo f = .sech
      { lf := infoNat f 4 1 = 1, du := BitVec.ofNat 2 (infoNat f 5 2), cid := BitVec.ofNat 4 (infoNat f 7 4)
        dt := BitVec.ofNat 4 (infoNat f 11 4), nid := BitVec.ofNat 4 (infoNat f 15 4)
        bn := BitVec.ofNat 4 (infoNat f 19 4), pay := BitVec.ofNat 152 (infoNat f 24 152) }) ∧
    (silc = 10 → decodeInfo f = .lmch
      { lf := infoNat f 4 1 = 1, seq := BitVec.ofNat 4 (infoNat f 5 4), mhRsv := BitVec.ofNat 7 (infoNat f 9 7)
        c6 := BitVec.ofNat 6 (infoNat f 16 6), pay := BitVec.ofNat 152 (infoNat f 24 152) }) ∧
    (silc = 11 → infoNat f 4 4 = 0 → decodeInfo f = .bmch (BitVec.ofNat 168 (infoNat f 8 168))) ∧
    (silc = 11 → infoNat f 4 4 ≠ 0 → decodeInfo f =
      .bmchOtherSub (BitVec.ofNat 4 (infoNat f 4 4)) (BitVec.ofNat 168 (infoNat f 8 168))) ∧
    (silc < 8 → decodeInfo f = .silc07 (BitVec.ofNat 3 silc) (BitVec.ofNat 172 (infoNat f 4 172))) ∧
    (silc = 9 → decodeInfo f = .silc9 (BitVec.ofNat 172 (infoNat f 4 172))) ∧
    (12 ≤ silc → decodeInfo f = .silcCF (BitVec.ofNat 2 silc) (BitVec.ofNat 172 (infoNat f 4 172)))) ∧
  ∀ (f : Info) (s : State),
    (infoNat f 0 4 = 8 → reassemble (f ^^^ (1#176 <<< 152)) s = reassemble f s) ∧
    (infoNat f 0 4 = 10 → ∀ r : BitVec 2, reassemble (f ^^^ (r.setWidth 176 <<< 152)) s = reassemble f s)

/-- R271, R293: the unrouted rows drop the block: nothing changes. -/
def Obligations.UnroutedBlocksChangeNothing : Prop :=
  ∀ s : State,
    (∀ a r, exec (.silc07 a r) s = .next (driveStatus s)) ∧ (∀ r, exec (.silc9 r) s = .next (driveStatus s)) ∧
    (∀ a r, exec (.silcCF a r) s = .next (driveStatus s)) ∧
    (∀ a r, exec (.bmchOtherSub a r) s = .next (driveStatus s))

/-- R273, R276: block 0 starts an accumulation whatever was there; with the last-fragment flag it is emitted at once and
the accumulator emptied. -/
def Obligations.ServiceBlockZeroStartsAnAccumulation : Prop :=
  ∀ (b : SechBlock) (s : State), b.bn = 0#4 →
    (b.lf = false → exec (.sech b) s = .next (driveStatus { s with sech := sechStarted b })) ∧
    (b.lf = true → exec (.sech b) s = .next (driveStatus
      (emitRec (.sech (sechRecord (sechStarted b))) { s with sech := sechEmptied (sechStarted b) })))

/-- R274, R276: a block that continues the accumulation is appended; with the last-fragment flag the message is emitted
and the accumulator emptied. The premise on the buffer is part of `Sech.Sound`. -/
def Obligations.ServiceContinuationIsAppended : Prop :=
  ∀ (b : SechBlock) (s : State), b.bn ≠ 0#4 → SechFollows b s.sech → s.sech.buf.length = s.sech.len.toNat →
    (b.lf = false → exec (.sech b) s = .next (driveStatus { s with sech := sechContinued b s.sech })) ∧
    (b.lf = true → exec (.sech b) s = .next (driveStatus
      (emitRec (.sech (sechRecord (sechContinued b s.sech)))
        { s with sech := sechEmptied (sechContinued b s.sech) })))

/-- R275: any other block with a number other than 0 empties the accumulator and emits nothing. -/
def Obligations.ServiceBlockOutOfSequenceEmpties : Prop :=
  ∀ (b : SechBlock) (s : State), b.bn ≠ 0#4 → ¬ SechFollows b s.sech →
    exec (.sech b) s = .next (driveStatus { s with sech := sechEmptied s.sech })

/-- R277: the record of a service message carries the accumulation's header and bytes; only data type 5 has a name and a
time. The premise is part of `Sech.Sound`. -/
def Obligations.ServiceRecordContent : Prop :=
  ∀ a : Sech, a.buf.length = a.len.toNat →
    sechRecord a =
      { dataUpdate := a.du, countryId := a.cid, dataType := a.dt, networkId := a.nid, payload := a.buf
        networkName := if a.dt = 5#4 then dt5Name a.buf else none
        time := if a.dt = 5#4 then dt5Time a.buf else none }

/-- R278, R279, R281: a payload that is a length-prefixed name and 40 time bits gives that name, and the time exactly
when every field is in its range. -/
def Obligations.NameAndTimeAreDecoded : Prop :=
  ∀ (name rest : List Byte) (t : BitVec 40), name.length ≤ 255 →
    let p := BitVec.ofNat 8 name.length :: (name ++ bytesOf t ++ rest)
    let date := mjdToDate (msb t 0 17).toNat
    let ofs : Int := (msb t 35 5).toNat
    dt5Name p = some name ∧
    dt5Time p =
      if 1 ≤ date.2.1 ∧ date.2.1 ≤ 12 ∧ 1 ≤ date.2.2 ∧ date.2.2 ≤ 31 ∧ (msb t 17 5).toNat ≤ 23 ∧
          (msb t 22 6).toNat ≤ 59 ∧ (msb t 28 6).toNat ≤ 59 ∧ (msb t 35 5).toNat ≤ 28 then
        some { year := date.1, month := date.2.1, day := date.2.2, hour := (msb t 17 5).toNat
               minute := (msb t 22 6).toNat, second := (msb t 28 6).toNat
               offsetHalfHours := if bitAt t 34 then -ofs else ofs }
      else none

/-- R278: a name that fits is copied; one that does not leaves out name and time. A time that does not fit leaves out the
time (R279). -/
def Obligations.NameOrTimeThatDoesNotFitIsAbsent : Prop :=
  ∀ (n : Byte) (rest : List Byte),
    (n.toNat ≤ rest.length → dt5Name (n :: rest) = some (rest.take n.toNat)) ∧
    (rest.length < n.toNat → dt5Name (n :: rest) = none ∧ dt5Time (n :: rest) = none) ∧
    (rest.length < n.toNat + 5 → dt5Time (n :: rest) = none)

/-- The conversion of R280 is the Gregorian calendar on 15079 to 88127 (1900-03-01 to 2100-02-28, the dates R280 names;
its text gives 88069 for the last, log 18); outside, the formula's own value with division truncated toward zero, by the
days of V-D5-7. -/
def Obligations.DateConversionIsGregorian : Prop :=
  (∀ mjd : Int, 15079 ≤ mjd → mjd ≤ 88127 →
    let d := mjdToDate mjd
    gregorianMjd d.1 d.2.1 d.2.2 = mjd ∧ 1 ≤ d.2.1 ∧ d.2.1 ≤ 12 ∧ 1 ≤ d.2.2 ∧ d.2.2 ≤ monthDays d.1 d.2.1) ∧
  mjdToDate 0 = (1859, -1, 19) ∧ mjdToDate 15017 = (1900, 0, 31) ∧ mjdToDate 15018 = (1900, 1, 1) ∧
    mjdToDate 131071 = (2217, 9, 25)

/-- R283: a block whose mini-header CRC fails empties the long accumulator and is discarded. -/
def Obligations.LongBlockWithABadCrcEmpties : Prop :=
  ∀ (b : LongBlock) (s : State), ¬ MiniHeaderPasses b →
    exec (.lmch b) s = .next (driveStatus { s with long := longEmptied s.long })

/-- R284: a block that passes its CRC and continues nothing restarts the buffer; not last, it emits nothing. -/
def Obligations.LongBlockOutOfSequenceRestarts : Prop :=
  ∀ (b : LongBlock) (s : State), MiniHeaderPasses b → ¬ LongFollows b s.long → b.lf = false →
    exec (.lmch b) s = .next (driveStatus { s with long := longHolding b (bytesOf b.pay) })

/-- R284, R285: a block that continues the buffer is appended while it fits and empties the buffer when it does not. The
premise is part of `Long.Sound`. -/
def Obligations.LongContinuationIsAppendedOrOverflows : Prop :=
  ∀ (b : LongBlock) (s : State), MiniHeaderPasses b → LongFollows b s.long →
    s.long.buf.length = s.long.len.toNat →
    (s.long.len.toNat + 19 ≤ 4864 → b.lf = false →
      exec (.lmch b) s = .next (driveStatus { s with long := longHolding b (s.long.buf ++ bytesOf b.pay) })) ∧
    (4864 < s.long.len.toNat + 19 →
      exec (.lmch b) s = .next (driveStatus { s with long := longEmptied s.long }))

/-- R286: an accepted last fragment runs the long-message row that the assembled bytes decode to. The premise on the
buffer is part of `Long.Sound`. -/
def Obligations.LastLongFragmentRunsItsL4Row : Prop :=
  ∀ (b : LongBlock) (s : State) (i : Instr) (bytes : List Byte), MiniHeaderPasses b → b.lf = true →
    s.long.buf.length = s.long.len.toNat →
    ((¬ LongFollows b s.long ∧ bytes = bytesOf b.pay) ∨
      (LongFollows b s.long ∧ s.long.len.toNat + 19 ≤ 4864 ∧ bytes = s.long.buf ++ bytesOf b.pay)) →
    decode (.l4 bytes) = .instr i →
    exec (.lmch b) s = exec i { s with long := longHolding b bytes }

/-- R288, R289, R290: a complete-audience message emits nothing; any other emits its record exactly when the header CRC
passes, type 12 with its TLV records, every other type with the raw data. -/
def Obligations.LongMessagesEmitTheirRecord : Prop :=
  ∀ s : State,
    (∀ f l e t rest, exec (.l4Ca f l e t rest) s = .next (driveStatus s)) ∧
    (∀ m : L4Message, exec (.l4Tlv m) s = .next (driveStatus
      (if crc8 (bitsOf (l4Byte0 m.first m.last m.ext.isSome false 12#4 :: m.ext.toList)) = m.crc then
        emitRec (.long ⟨m.first, m.last, m.ext.isSome, 12#4, m.ext, .tlv (tlvParse m.data)⟩) s else s))) ∧
    (∀ (t : BitVec 4) (m : L4Message), exec (.l4Payload t m) s = .next (driveStatus
      (if crc8 (bitsOf (l4Byte0 m.first m.last m.ext.isSome false t :: m.ext.toList)) = m.crc then
        emitRec (.long ⟨m.first, m.last, m.ext.isSome, t, m.ext, .payload m.data⟩) s else s)))

/-- R291, R97: TLV records written one after another, with at most a truncated record after them, are read back exactly;
and whatever the data, the parser leaves unread at most a single byte or a truncated record. -/
def Obligations.TlvParsingReadsWholeRecords : Prop :=
  (∀ (records : List Tlv) (tail : List Byte), (∀ r ∈ records, r.value.length = r.length.toNat) → TlvTail tail →
    tlvParse (tlvBytes records ++ tail) = records) ∧
  (∀ d : List Byte, ∃ tail, d = tlvBytes (tlvParse d) ++ tail ∧
    (∀ r ∈ tlvParse d, r.value.length = r.length.toNat) ∧ TlvTail tail)

/-- R292: a block application message is passed through as 21 bytes and no accumulator changes. -/
def Obligations.BlockApplicationMessageIsPassedThrough : Prop :=
  ∀ (payload : BitVec 168) (s : State),
    exec (.bmch payload) s = .next (driveStatus (emitRec (.bmch ⟨0#4, bytesOf payload⟩) s)) ∧
      (bytesOf payload).length = 21

/-- R295: no step changes both accumulators unless it resets; a step changes the service accumulator only if the block it
accepts has SILC 0x8, and the long accumulator only if it has SILC 0xA. -/
def Obligations.ChannelsAreIndependent : Prop :=
  ∀ (s t : State) (w : CmdWord) (rest : List CmdWord), s.port = w :: rest → step s = .next t →
    decodeCmd w ≠ .reset → (∀ m f, decodeCmd w ≠ .config m f) →
    (t.sech ≠ s.sech → ∃ block, t.out.l2 = some block ∧ infoSilc (infoOf block.frame) = 0x8#4) ∧
    (t.long ≠ s.long → ∃ block, t.out.l2 = some block ∧ infoSilc (infoOf block.frame) = 0xA#4)

/-! ## Whole-machine invariants (10_state.md) -/

/-- The reset state is sound (R49). -/
def Obligations.ResetIsSound : Prop := State.reset.Sound

/-- Every step from a sound state, reached by a run or not, ends in a sound state (R23, R26, R29, R31, R38, R39, R42 to
R44). -/
def Obligations.EveryStepKeepsTheStateSound : Prop :=
  ∀ s t : State, s.Sound → step s = .next t → t.Sound

/-- R40: frame bits at index `CNT` and above are never read: states that differ only there step to states that differ at
most there, with the same outputs. -/
def Obligations.StaleFrameBitsAreNeverRead : Prop :=
  ∀ s t s' t' : State, s.sync.cnt.toNat < 272 → s.SameButStale t → step s = .next s' → step t = .next t' →
    s'.SameButStale t'
end

