-- ==== Sys2Proof/Laws/Bits.lean ====
section
/-! SUPPORT. Bits of fixed-length sequences in arrival order: extraction, XOR, single-bit frames, the frame buffer. -/

namespace Sys2Proof.Machine

/-! ### Bits by arrival index -/

/-- Two sequences with the same bits are equal. -/
theorem eq_of_bitAt {n : Nat} {f g : BitVec n} (h : ∀ i < n, bitAt f i = bitAt g i) : f = g :=
  BitVec.eq_of_getMsbD_eq fun i hi => h i hi

theorem bitAt_eq_getLsbD {n : Nat} (f : BitVec n) {i : Nat} (hi : i < n) : bitAt f i = f.getLsbD (n - 1 - i) := by
  simp [bitAt, BitVec.getMsbD, hi]

@[simp] theorem bitAt_xor {n : Nat} (f g : BitVec n) (i : Nat) : bitAt (f ^^^ g) i = (bitAt f i ^^ bitAt g i) := by
  simp [bitAt]

@[simp] theorem bitAt_zero {n : Nat} (i : Nat) : bitAt (0#n) i = false := by
  simp [bitAt]

/-- The field `msb(f, off, w)` holds the bits from `off` on (R150). -/
theorem bitAt_msb {n : Nat} (f : BitVec n) {off w i : Nat} (h : off + w ≤ n) (hi : i < w) :
    bitAt (msb f off w) i = bitAt f (off + i) := by
  rw [bitAt_eq_getLsbD _ hi, bitAt_eq_getLsbD _ (by omega), msb, BitVec.getLsbD_extractLsb']
  have : w - 1 - i < w := by omega
  simp only [this, decide_true, Bool.true_and]
  congr 1
  omega

/-- Bits of a concatenation. -/
theorem bitAt_append {m n : Nat} (f : BitVec m) (g : BitVec n) (i : Nat) :
    bitAt (f ++ g) i = if i < m then bitAt f i else bitAt g (i - m) := by
  by_cases hm : i < m
  · rw [if_pos hm, bitAt_eq_getLsbD _ (by omega), bitAt_eq_getLsbD _ hm, BitVec.getLsbD_append]
    have : ¬ m + n - 1 - i < n := by omega
    simp only [this, if_false]
    congr 1
    omega
  · rw [if_neg hm]
    by_cases hn : i < m + n
    · rw [bitAt_eq_getLsbD _ hn, bitAt_eq_getLsbD _ (by omega), BitVec.getLsbD_append]
      have : m + n - 1 - i < n := by omega
      simp only [this, if_true]
      congr 1
      omega
    · simp [bitAt, BitVec.getMsbD, hn, show ¬ i - m < n by omega]

/-- Reading a field of XORed sequences. -/
theorem msb_xor {n : Nat} (f g : BitVec n) (off w : Nat) : msb (f ^^^ g) off w = msb f off w ^^^ msb g off w := by
  simp [msb, BitVec.extractLsb'_xor]

/-! ### Sequences as lists -/

@[simp] theorem seqOf_length {n : Nat} (f : BitVec n) : (seqOf f).length = n := by
  simp [seqOf]

theorem seqOf_getElem {n : Nat} (f : BitVec n) {i : Nat} (h : i < (seqOf f).length) :
    (seqOf f)[i] = bitAt f i := by
  simp [seqOf]

/-- A concatenation as a list. -/
theorem seqOf_append {m n : Nat} (f : BitVec m) (g : BitVec n) : seqOf (f ++ g) = seqOf f ++ seqOf g := by
  apply List.ext_getElem
  · simp
  · intro i h1 h2
    rw [seqOf_getElem, bitAt_append, List.getElem_append]
    simp only [seqOf_length]
    split <;> rw [seqOf_getElem]

/-- A XOR as a list. -/
theorem seqOf_xor {n : Nat} (f g : BitVec n) :
    seqOf (f ^^^ g) = List.zipWith (fun a b => a ^^ b) (seqOf f) (seqOf g) := by
  apply List.ext_getElem
  · simp
  · intro i h1 h2
    rw [seqOf_getElem, List.getElem_zipWith, seqOf_getElem, seqOf_getElem, bitAt_xor]

@[simp] theorem bytesOf_length {n : Nat} (f : BitVec n) : (bytesOf f).length = n / 8 := by
  simp [bytesOf]

@[simp] theorem sechPayload_length (b : SechBlock) : (bytesOf b.pay).length = 19 := by simp

@[simp] theorem longPayload_length (b : LongBlock) : (bytesOf b.pay).length = 19 := by simp

/-! ### Single-bit frames and the frame buffer -/

/-- `e_i` has bit i and no other (R160). -/
theorem bitAt_unitFrame (i : Nat) {j : Nat} (hj : j < 272) : bitAt (unitFrame i) j = decide (i = j) := by
  rw [bitAt_eq_getLsbD _ hj, unitFrame, BitVec.getLsbD_ushiftRight, BitVec.getLsbD_twoPow]
  simp only [show (271 : Nat) < 272 by omega, decide_true, Bool.true_and]
  apply decide_eq_decide.mpr
  omega

/-- Writing a frame bit changes that bit alone (R235). -/
theorem bitAt_setFrameBit (i : Nat) (v : Bool) (f : Frame) {j : Nat} (hj : j < 272) :
    bitAt (setFrameBit i v f) j = if i = j then v else bitAt f j := by
  have hu : (unitFrame i).getMsbD j = decide (i = j) := bitAt_unitFrame i hj
  cases v
  · simp only [setFrameBit, bitAt, Bool.false_eq_true, if_false, BitVec.getMsbD_and, BitVec.getMsbD_not, hu, hj,
      decide_true, Bool.true_and]
    by_cases h : i = j <;> simp [h]
  · simp only [setFrameBit, bitAt, if_true, BitVec.getMsbD_or, hu]
    by_cases h : i = j <;> simp [h]

/-- A frame is fixed by the bits collected and the last one. -/
theorem setFrameBit_eq {f g : Frame} {i : Nat} {v : Bool} (hi : bitAt f i = v)
    (h : ∀ j < 272, j ≠ i → bitAt f j = bitAt g j) : setFrameBit i v g = f := by
  refine eq_of_bitAt fun j hj => ?_
  rw [bitAt_setFrameBit i v g hj]
  split
  · next he => rw [← he, hi]
  · next he => exact (h j hj (Ne.symm he)).symm

/-! ### Status bits -/

/-- Shifting the register twice with the same bit of a block (R231) reads bit 0 last. -/
theorem shiftSr_sr (b : Bool) (y : Sync) :
    (shiftSr b y).sr = (y.sr <<< 1) ||| (BitVec.ofBool b).setWidth 16 := rfl

end Sys2Proof.Machine
end

