-- ==== Sys2Proof/Laws/Crc.lean ====
section
/-! SUPPORT. The CRC engine one bit at a time: the lemmas from which the whole-sequence facts of 41_bitutil_crc.md R153 to
R162 follow. -/

namespace Sys2Proof.Machine

/-- The register after a sequence and one more bit. -/
theorem crc_append_bit {W : Nat} (p : BitVec W) (f : List Bool) (b : Bool) :
    crc p (f ++ [b]) = crcBit p (crc p f) b := by
  simp [crc]

/-- The register after two sequences. -/
theorem crc_append {W : Nat} (p : BitVec W) (f g : List Bool) :
    crc p (f ++ g) = g.foldl (crcBit p) (crc p f) := by
  simp [crc]

@[simp] theorem crc_nil {W : Nat} (p : BitVec W) : crc p [] = 0#W := rfl

/-- One step of the register is linear in the register and the bit. -/
theorem crcBit_xor {W : Nat} (p r r' : BitVec W) (b b' : Bool) :
    crcBit p (r ^^^ r') (b ^^ b') = crcBit p r b ^^^ crcBit p r' b' := by
  have hs : (r ^^^ r') <<< 1 = (r <<< 1) ^^^ (r' <<< 1) := BitVec.shiftLeft_xor_distrib r r' 1
  simp only [crcBit, BitVec.msb_xor, hs]
  cases r.msb <;> cases r'.msb <;> cases b <;> cases b' <;>
    (ext i hi
     simp only [Bool.xor_false, Bool.xor_true, Bool.not_true, Bool.not_false, Bool.false_eq_true, if_true, if_false,
       BitVec.getElem_xor]
     try (cases p[i] <;> cases (r <<< 1)[i] <;> cases (r' <<< 1)[i] <;> rfl))

/-- A zero bit through a zero register leaves it zero (R153: all-zero sequences give 0). -/
@[simp] theorem crcBit_zero {W : Nat} (p : BitVec W) : crcBit p 0#W false = 0#W := by
  simp [crcBit]

/-- The register stays zero through any number of zero bits. -/
theorem foldl_crcBit_zero {W : Nat} (p : BitVec W) (n : Nat) :
    (List.replicate n false).foldl (crcBit p) 0#W = 0#W := by
  induction n with
  | zero => rfl
  | succ n ih => rw [List.replicate_succ, List.foldl_cons, crcBit_zero, ih]

/-- The bits of the frame with the single bit `i` set. -/
theorem seqOf_unitFrame {i : Nat} (hi : i < 272) :
    seqOf (unitFrame i) = List.replicate i false ++ true :: List.replicate (271 - i) false := by
  apply List.ext_getElem
  · simp; omega
  · intro j h1 h2
    have hj : j < 272 := by simpa using h1
    rw [seqOf_getElem, bitAt_unitFrame _ hj, List.getElem_append]
    split
    · next h => simp only [List.length_replicate] at h; simp; omega
    · next h =>
      simp only [List.length_replicate] at h
      rw [List.getElem_cons]
      split
      · next h0 => simp only [List.length_replicate] at h0; simp; omega
      · next h0 => simp only [List.length_replicate] at h0; simp; omega

/-- An entry of the syndrome table is the register after a one and the zeros that follow it. -/
theorem romSyn_eq_foldl {i : Nat} (hi : i < 272) :
    romSyn i = (List.replicate (271 - i) false).foldl (crcBit Config.g82) (crcBit Config.g82 0#82 true) := by
  unfold romSyn syn crc82
  rw [seqOf_unitFrame hi, crc_append, show crc Config.g82 (List.replicate i false) = 0#82 from
    foldl_crcBit_zero _ _]
  rfl

/-- The register's values while zero bits arrive: the syndrome table computed one step an entry. -/
def zeroRun : Nat → BitVec 82 → List (BitVec 82)
  | 0, _ => []
  | n + 1, r => r :: zeroRun n (crcBit Config.g82 r false)

theorem mem_zeroRun {n k : Nat} (h : k < n) (r : BitVec 82) :
    (List.replicate k false).foldl (crcBit Config.g82) r ∈ zeroRun n r := by
  induction n generalizing k r with
  | zero => omega
  | succ n ih =>
    cases k with
    | zero => exact List.mem_cons_self
    | succ k => exact List.mem_cons_of_mem _ (ih (by omega) _)

/-- Every entry of the syndrome table is among the values of that run. -/
theorem romSyn_mem_zeroRun {i : Nat} (hi : i < 272) :
    romSyn i ∈ zeroRun 272 (crcBit Config.g82 0#82 true) := by
  rw [romSyn_eq_foldl hi]
  exact mem_zeroRun (by omega) _

end Sys2Proof.Machine
end

