-- ==== Sys2Proof/Laws/State.lean ====
section
/-! SUPPORT. One lemma per field for each operation on the state. -/

namespace Sys2Proof.Machine

/-! ### Outputs of the operations, field by field -/

@[simp] theorem beginStep_out_bit (s : State) : (beginStep s).out.bit = none := rfl
@[simp] theorem beginStep_out_l2 (s : State) : (beginStep s).out.l2 = none := rfl
@[simp] theorem beginStep_out_record (s : State) : (beginStep s).out.record = none := rfl
@[simp] theorem driveStatus_out_bit (s : State) : (driveStatus s).out.bit = s.out.bit := rfl
@[simp] theorem driveStatus_out_l2 (s : State) : (driveStatus s).out.l2 = s.out.l2 := rfl
@[simp] theorem driveStatus_out_record (s : State) : (driveStatus s).out.record = s.out.record := rfl

/-- Driving `STATUS` again changes nothing. -/
@[simp] theorem driveStatus_idem (s : State) : driveStatus (driveStatus s) = driveStatus s := rfl

/-- The status word reads nothing of the outputs or the port. -/
@[simp] theorem statusWord_driveStatus (s : State) : statusWord (driveStatus s) = statusWord s := rfl
@[simp] theorem statusWord_beginStep (s : State) : statusWord (beginStep s) = statusWord s := rfl

/-! ### emitRec? -/

@[simp] theorem emitRec?_none (s : State) : emitRec? none s = s := rfl
@[simp] theorem emitRec?_some (r : Record) (s : State) : emitRec? (some r) s = emitRec r s := rfl
@[simp] theorem emitRec?_cfg (r : Option Record) (s : State) : (emitRec? r s).cfg = s.cfg := by cases r <;> rfl
@[simp] theorem emitRec?_status (r : Option Record) (s : State) : (emitRec? r s).status = s.status := by cases r <;> rfl
@[simp] theorem emitRec?_demod (r : Option Record) (s : State) : (emitRec? r s).demod = s.demod := by cases r <;> rfl
@[simp] theorem emitRec?_sync (r : Option Record) (s : State) : (emitRec? r s).sync = s.sync := by cases r <;> rfl
@[simp] theorem emitRec?_sech (r : Option Record) (s : State) : (emitRec? r s).sech = s.sech := by cases r <;> rfl
@[simp] theorem emitRec?_long (r : Option Record) (s : State) : (emitRec? r s).long = s.long := by cases r <;> rfl
@[simp] theorem emitRec?_port (r : Option Record) (s : State) : (emitRec? r s).port = s.port := by cases r <;> rfl
@[simp] theorem emitRec?_out_bit (r : Option Record) (s : State) : (emitRec? r s).out.bit = s.out.bit := by cases r <;> rfl
@[simp] theorem emitRec?_out_l2 (r : Option Record) (s : State) : (emitRec? r s).out.l2 = s.out.l2 := by cases r <;> rfl
@[simp] theorem emitRec?_out_status (r : Option Record) (s : State) : (emitRec? r s).out.status = s.out.status := by cases r <;> rfl

/-- The record driven is the one given, else the one already there. -/
@[simp] theorem emitRec?_out_record (r : Option Record) (s : State) : (emitRec? r s).out.record = (r <|> s.out.record) := by
  cases r <;> rfl

/-! ### beginStep -/

@[simp] theorem beginStep_cfg (s : State) : (beginStep s).cfg = s.cfg := rfl
@[simp] theorem beginStep_status (s : State) : (beginStep s).status = s.status := rfl
@[simp] theorem beginStep_demod (s : State) : (beginStep s).demod = s.demod := rfl
@[simp] theorem beginStep_sync (s : State) : (beginStep s).sync = s.sync := rfl
@[simp] theorem beginStep_sech (s : State) : (beginStep s).sech = s.sech := rfl
@[simp] theorem beginStep_long (s : State) : (beginStep s).long = s.long := rfl
@[simp] theorem beginStep_out (s : State) : (beginStep s).out = { s.out with bit := none, l2 := none, record := none } := rfl
@[simp] theorem beginStep_port (s : State) : (beginStep s).port = s.port := rfl

/-! ### driveStatus -/

@[simp] theorem driveStatus_cfg (s : State) : (driveStatus s).cfg = s.cfg := rfl
@[simp] theorem driveStatus_status (s : State) : (driveStatus s).status = s.status := rfl
@[simp] theorem driveStatus_demod (s : State) : (driveStatus s).demod = s.demod := rfl
@[simp] theorem driveStatus_sync (s : State) : (driveStatus s).sync = s.sync := rfl
@[simp] theorem driveStatus_sech (s : State) : (driveStatus s).sech = s.sech := rfl
@[simp] theorem driveStatus_long (s : State) : (driveStatus s).long = s.long := rfl
@[simp] theorem driveStatus_out (s : State) : (driveStatus s).out = { s.out with status := statusWord s } := rfl
@[simp] theorem driveStatus_port (s : State) : (driveStatus s).port = s.port := rfl

/-! ### emitBit -/

@[simp] theorem emitBit_cfg (b : Bool) (s : State) : (emitBit b s).cfg = s.cfg := rfl
@[simp] theorem emitBit_status (b : Bool) (s : State) : (emitBit b s).status = s.status := rfl
@[simp] theorem emitBit_demod (b : Bool) (s : State) : (emitBit b s).demod = s.demod := rfl
@[simp] theorem emitBit_sync (b : Bool) (s : State) : (emitBit b s).sync = s.sync := rfl
@[simp] theorem emitBit_sech (b : Bool) (s : State) : (emitBit b s).sech = s.sech := rfl
@[simp] theorem emitBit_long (b : Bool) (s : State) : (emitBit b s).long = s.long := rfl
@[simp] theorem emitBit_out (b : Bool) (s : State) : (emitBit b s).out = { s.out with bit := some b } := rfl
@[simp] theorem emitBit_port (b : Bool) (s : State) : (emitBit b s).port = s.port := rfl

/-! ### emitL2 -/

@[simp] theorem emitL2_cfg (v : BicWord) (f : Frame) (p : Option Nat) (s : State) : (emitL2 v f p s).cfg = s.cfg := rfl
@[simp] theorem emitL2_status (v : BicWord) (f : Frame) (p : Option Nat) (s : State) : (emitL2 v f p s).status = s.status := rfl
@[simp] theorem emitL2_demod (v : BicWord) (f : Frame) (p : Option Nat) (s : State) : (emitL2 v f p s).demod = s.demod := rfl
@[simp] theorem emitL2_sync (v : BicWord) (f : Frame) (p : Option Nat) (s : State) : (emitL2 v f p s).sync = s.sync := rfl
@[simp] theorem emitL2_sech (v : BicWord) (f : Frame) (p : Option Nat) (s : State) : (emitL2 v f p s).sech = s.sech := rfl
@[simp] theorem emitL2_long (v : BicWord) (f : Frame) (p : Option Nat) (s : State) : (emitL2 v f p s).long = s.long := rfl
@[simp] theorem emitL2_out (v : BicWord) (f : Frame) (p : Option Nat) (s : State) : (emitL2 v f p s).out = { s.out with l2 := some { bic := v, frame := f, corrected := p.isSome, pos := BitVec.ofNat 9 (p.getD 0) } } := rfl
@[simp] theorem emitL2_port (v : BicWord) (f : Frame) (p : Option Nat) (s : State) : (emitL2 v f p s).port = s.port := rfl

/-! ### emitRec -/

@[simp] theorem emitRec_cfg (r : Record) (s : State) : (emitRec r s).cfg = s.cfg := rfl
@[simp] theorem emitRec_status (r : Record) (s : State) : (emitRec r s).status = s.status := rfl
@[simp] theorem emitRec_demod (r : Record) (s : State) : (emitRec r s).demod = s.demod := rfl
@[simp] theorem emitRec_sync (r : Record) (s : State) : (emitRec r s).sync = s.sync := rfl
@[simp] theorem emitRec_sech (r : Record) (s : State) : (emitRec r s).sech = s.sech := rfl
@[simp] theorem emitRec_long (r : Record) (s : State) : (emitRec r s).long = s.long := rfl
@[simp] theorem emitRec_out (r : Record) (s : State) : (emitRec r s).out = { s.out with record := some r } := rfl
@[simp] theorem emitRec_port (r : Record) (s : State) : (emitRec r s).port = s.port := rfl

/-! ### resetState -/

@[simp] theorem resetState_cfg (s : State) : (resetState s).cfg = State.reset.cfg := rfl
@[simp] theorem resetState_status (s : State) : (resetState s).status = State.reset.status := rfl
@[simp] theorem resetState_demod (s : State) : (resetState s).demod = State.reset.demod := rfl
@[simp] theorem resetState_sync (s : State) : (resetState s).sync = State.reset.sync := rfl
@[simp] theorem resetState_sech (s : State) : (resetState s).sech = State.reset.sech := rfl
@[simp] theorem resetState_long (s : State) : (resetState s).long = State.reset.long := rfl
@[simp] theorem resetState_out (s : State) : (resetState s).out = State.reset.out := rfl
@[simp] theorem resetState_port (s : State) : (resetState s).port = s.port := rfl

/-! ### State.reset (R49) -/

@[simp] theorem reset_cfg : State.reset.cfg = { fsIn := BitVec.ofNat 32 Config.fInt, mode := .samples } := rfl
@[simp] theorem reset_status : State.reset.status = { cfgErr := false, eos := false, cmdIgn := false } := rfl
@[simp] theorem reset_sync :
    State.reset.sync = { state := .unsynchronized, sr := 0#16, bic := 0#16, cnt := 0#9, frame := 0#272 } := rfl
@[simp] theorem reset_out : State.reset.out = { bit := none, l2 := none, record := none, status := 0x00#8 } := rfl
@[simp] theorem reset_port : State.reset.port = [] := rfl

/-! ### ignoreCommand -/

@[simp] theorem ignoreCommand_cfg (s : State) : (ignoreCommand s).cfg = s.cfg := rfl
@[simp] theorem ignoreCommand_status (s : State) : (ignoreCommand s).status = { s.status with cmdIgn := true } := rfl
@[simp] theorem ignoreCommand_demod (s : State) : (ignoreCommand s).demod = s.demod := rfl
@[simp] theorem ignoreCommand_sync (s : State) : (ignoreCommand s).sync = s.sync := rfl
@[simp] theorem ignoreCommand_sech (s : State) : (ignoreCommand s).sech = s.sech := rfl
@[simp] theorem ignoreCommand_long (s : State) : (ignoreCommand s).long = s.long := rfl
@[simp] theorem ignoreCommand_out (s : State) : (ignoreCommand s).out = s.out := rfl
@[simp] theorem ignoreCommand_port (s : State) : (ignoreCommand s).port = s.port := rfl

/-! ### raiseConfigError -/

@[simp] theorem raiseConfigError_cfg (s : State) : (raiseConfigError s).cfg = s.cfg := rfl
@[simp] theorem raiseConfigError_status (s : State) : (raiseConfigError s).status = { s.status with cfgErr := true } := rfl
@[simp] theorem raiseConfigError_demod (s : State) : (raiseConfigError s).demod = s.demod := rfl
@[simp] theorem raiseConfigError_sync (s : State) : (raiseConfigError s).sync = s.sync := rfl
@[simp] theorem raiseConfigError_sech (s : State) : (raiseConfigError s).sech = s.sech := rfl
@[simp] theorem raiseConfigError_long (s : State) : (raiseConfigError s).long = s.long := rfl
@[simp] theorem raiseConfigError_out (s : State) : (raiseConfigError s).out = s.out := rfl
@[simp] theorem raiseConfigError_port (s : State) : (raiseConfigError s).port = s.port := rfl

/-! ### endOfStream -/

@[simp] theorem endOfStream_cfg (s : State) : (endOfStream s).cfg = s.cfg := rfl
@[simp] theorem endOfStream_status (s : State) : (endOfStream s).status = { s.status with eos := true } := rfl
@[simp] theorem endOfStream_demod (s : State) : (endOfStream s).demod = s.demod := rfl
@[simp] theorem endOfStream_sync (s : State) : (endOfStream s).sync = s.sync := rfl
@[simp] theorem endOfStream_sech (s : State) : (endOfStream s).sech = s.sech := rfl
@[simp] theorem endOfStream_long (s : State) : (endOfStream s).long = s.long := rfl
@[simp] theorem endOfStream_out (s : State) : (endOfStream s).out = s.out := rfl
@[simp] theorem endOfStream_port (s : State) : (endOfStream s).port = s.port := rfl

/-! ### bmchPass -/

@[simp] theorem bmchPass_cfg (p : BitVec 168) (s : State) : (bmchPass p s).cfg = s.cfg := rfl
@[simp] theorem bmchPass_status (p : BitVec 168) (s : State) : (bmchPass p s).status = s.status := rfl
@[simp] theorem bmchPass_demod (p : BitVec 168) (s : State) : (bmchPass p s).demod = s.demod := rfl
@[simp] theorem bmchPass_sync (p : BitVec 168) (s : State) : (bmchPass p s).sync = s.sync := rfl
@[simp] theorem bmchPass_sech (p : BitVec 168) (s : State) : (bmchPass p s).sech = s.sech := rfl
@[simp] theorem bmchPass_long (p : BitVec 168) (s : State) : (bmchPass p s).long = s.long := rfl
@[simp] theorem bmchPass_out (p : BitVec 168) (s : State) : (bmchPass p s).out = { s.out with record := some (bmchRecord p) } := rfl
@[simp] theorem bmchPass_port (p : BitVec 168) (s : State) : (bmchPass p s).port = s.port := rfl

/-! ### dropBlock -/

@[simp] theorem dropBlock_cfg (s : State) : (dropBlock s).cfg = s.cfg := rfl
@[simp] theorem dropBlock_status (s : State) : (dropBlock s).status = s.status := rfl
@[simp] theorem dropBlock_demod (s : State) : (dropBlock s).demod = s.demod := rfl
@[simp] theorem dropBlock_sync (s : State) : (dropBlock s).sync = s.sync := rfl
@[simp] theorem dropBlock_sech (s : State) : (dropBlock s).sech = s.sech := rfl
@[simp] theorem dropBlock_long (s : State) : (dropBlock s).long = s.long := rfl
@[simp] theorem dropBlock_out (s : State) : (dropBlock s).out = s.out := rfl
@[simp] theorem dropBlock_port (s : State) : (dropBlock s).port = s.port := rfl

/-! ### sechPush -/

@[simp] theorem sechPush_cfg (b : SechBlock) (s : State) : (sechPush b s).cfg = s.cfg := by simp [sechPush]
@[simp] theorem sechPush_status (b : SechBlock) (s : State) : (sechPush b s).status = s.status := by simp [sechPush]
@[simp] theorem sechPush_demod (b : SechBlock) (s : State) : (sechPush b s).demod = s.demod := by simp [sechPush]
@[simp] theorem sechPush_sync (b : SechBlock) (s : State) : (sechPush b s).sync = s.sync := by simp [sechPush]
@[simp] theorem sechPush_sech (b : SechBlock) (s : State) : (sechPush b s).sech = (sechNext b s.sech).1 := by simp [sechPush]
@[simp] theorem sechPush_long (b : SechBlock) (s : State) : (sechPush b s).long = s.long := by simp [sechPush]
@[simp] theorem sechPush_port (b : SechBlock) (s : State) : (sechPush b s).port = s.port := by simp [sechPush]

/-! ### longPush -/

@[simp] theorem longPush_cfg (b : LongBlock) (s : State) : (longPush b s).cfg = s.cfg := by simp [longPush]
@[simp] theorem longPush_status (b : LongBlock) (s : State) : (longPush b s).status = s.status := by simp [longPush]
@[simp] theorem longPush_demod (b : LongBlock) (s : State) : (longPush b s).demod = s.demod := by simp [longPush]
@[simp] theorem longPush_sync (b : LongBlock) (s : State) : (longPush b s).sync = s.sync := by simp [longPush]
@[simp] theorem longPush_sech (b : LongBlock) (s : State) : (longPush b s).sech = s.sech := by simp [longPush]
@[simp] theorem longPush_long (b : LongBlock) (s : State) : (longPush b s).long = (longNext b s.long).1 := by simp [longPush]
@[simp] theorem longPush_port (b : LongBlock) (s : State) : (longPush b s).port = s.port := by simp [longPush]

/-! ### seeBic -/

@[simp] theorem seeBic_cfg (v : BicWord) (s : State) : (seeBic v s).cfg = s.cfg := rfl
@[simp] theorem seeBic_status (v : BicWord) (s : State) : (seeBic v s).status = s.status := rfl
@[simp] theorem seeBic_demod (v : BicWord) (s : State) : (seeBic v s).demod = s.demod := rfl
@[simp] theorem seeBic_sync (v : BicWord) (s : State) : (seeBic v s).sync = meetBic v s.sync := rfl
@[simp] theorem seeBic_sech (v : BicWord) (s : State) : (seeBic v s).sech = s.sech := rfl
@[simp] theorem seeBic_long (v : BicWord) (s : State) : (seeBic v s).long = s.long := rfl
@[simp] theorem seeBic_out (v : BicWord) (s : State) : (seeBic v s).out = s.out := rfl
@[simp] theorem seeBic_port (v : BicWord) (s : State) : (seeBic v s).port = s.port := rfl

/-! ### placeCmd -/

@[simp] theorem placeCmd_cfg (w : CmdWord) (s : State) : (placeCmd w s).cfg = s.cfg := rfl
@[simp] theorem placeCmd_status (w : CmdWord) (s : State) : (placeCmd w s).status = s.status := rfl
@[simp] theorem placeCmd_demod (w : CmdWord) (s : State) : (placeCmd w s).demod = s.demod := rfl
@[simp] theorem placeCmd_sync (w : CmdWord) (s : State) : (placeCmd w s).sync = s.sync := rfl
@[simp] theorem placeCmd_sech (w : CmdWord) (s : State) : (placeCmd w s).sech = s.sech := rfl
@[simp] theorem placeCmd_long (w : CmdWord) (s : State) : (placeCmd w s).long = s.long := rfl
@[simp] theorem placeCmd_out (w : CmdWord) (s : State) : (placeCmd w s).out = s.out := rfl
@[simp] theorem placeCmd_port (w : CmdWord) (s : State) : (placeCmd w s).port = w :: s.port := rfl

end Sys2Proof.Machine
end

