-- ==== Sys2Proof/Laws/Demod.lean ====
section
/-! SUPPORT. What the demodulator's operations can do: the numeric facts the rules state, the oscillators, the
decimator, and that every sample keeps the demodulator sound. -/

namespace Sys2Proof.Machine

/-! ### Numbers (log 3, 4) -/

@[simp] theorem numAdd_zero_left (a : Scalar) : numAdd Scalar.zero a = a := by simp [numAdd]

@[simp] theorem numAdd_zero_right (a : Scalar) : numAdd a Scalar.zero = a := by
  simp only [numAdd]
  split
  · next h => exact h.symm
  · simp

theorem numMul_zero_right {k : Scalar} (h : k.finite = true) : numMul k Scalar.zero = Scalar.zero := by
  simp [numMul, h]

@[simp] theorem numNeg_zero : numNeg Scalar.zero = Scalar.zero := by decide

@[simp] theorem numPos_zero : numPos Scalar.zero = false := by decide

@[simp] theorem numPos_one : numPos Scalar.one = true := by decide

@[simp] theorem real_finite (x : Scalar) : (Scalar.real x).finite = true := rfl

@[simp] theorem numNeg_finite (x : Scalar) : (numNeg x).finite = x.finite := rfl

@[simp] theorem numAbs_finite (x : Scalar) : (numAbs x).finite = x.finite := rfl

@[simp] theorem cosP_finite (p : BitVec 32) : (cosP p).finite = true := by
  unfold cosP; repeat' split <;> try rfl

@[simp] theorem sinP_finite (p : BitVec 32) : (sinP p).finite = true := by
  unfold sinP; repeat' split <;> try rfl

@[simp] theorem romFir_finite (i : Nat) : (romFir i).finite = true := rfl

/-- A value with the sign of `s` is not of the other sign. -/
theorem withSign_nonneg {s : Int} (h : 0 ≤ s) (x : Scalar) : 0 ≤ (withSign s x).code :=
  Int.mul_nonneg (Int.sign_nonneg_iff.mpr h) (Int.natCast_nonneg _)

/-- A value with the sign of `s` is not of the other sign. -/
theorem withSign_nonpos {s : Int} (h : s ≤ 0) (x : Scalar) : (withSign s x).code ≤ 0 :=
  Int.mul_nonpos_of_nonpos_of_nonneg (Int.sign_nonpos_iff.mpr h) (Int.natCast_nonneg _)

/-- A positive finite number is one whose code is positive. -/
theorem numPos_iff {x : Scalar} (h : x.finite = true) : numPos x = true ↔ 0 < x.code := by
  simp [numPos, h]

/-- A product of finite numbers has the sign of the factors together, or is 0. -/
theorem numMul_sign {k x : Scalar} (hk : k.finite = true) (hx : x.finite = true) :
    (numMul k x).code.sign = (k.code * x.code).sign ∨ (numMul k x).code = 0 := by
  have h1 : Scalar.one.code = 1 := rfl
  unfold numMul
  split
  · exact .inr rfl
  split
  · exact .inr rfl
  split
  · next h => subst h; simp [h1]
  split
  · next h => subst h; simp [h1]
  rw [if_pos ⟨hk, hx⟩]
  simp only [withSign, Int.sign_mul, Int.sign_sign, Int.mul_eq_zero]
  by_cases hz : (Config.mulNum k x).code = 0
  · simp [hz]
  · left
    rw [show ((Config.mulNum k x).code.natAbs : Int).sign = 1 from Int.sign_eq_one_of_pos (by omega), Int.mul_one]

/-- The quarter turns are in the range of `arg`. -/
theorem isAngle_quarterTurn (im : Scalar) : isAngle (quarterTurn im) = true := by
  unfold quarterTurn
  split <;> decide

/-- The range of `arg` (R192). -/
theorem isAngle_cplxArg {z : Cplx} (hr : z.re.finite = true) (hi : z.im.finite = true) :
    isAngle (cplxArg z) = true := by
  unfold cplxArg
  rw [if_pos ⟨hr, hi⟩]
  split
  · split <;> decide
  split
  · exact isAngle_quarterTurn z.im
  unfold slantedArg
  dsimp only
  split
  · assumption
  · exact isAngle_quarterTurn z.im

/-- The one property R187 lets a rule use: a positive finite gain stays one. -/
theorem agcUpdate_positive {g r : Scalar} (hf : g.finite = true) (hp : numPos g = true) :
    (agcUpdate g r).finite = true ∧ numPos (agcUpdate g r) = true := by
  unfold agcUpdate
  split
  · exact ⟨hf, hp⟩
  · dsimp only
    split
    · next h => simpa using h
    · exact ⟨hf, hp⟩

/-- `AGC_G0` is a positive finite number (R5). -/
theorem agcG0_positive : agcG0.finite = true ∧ numPos agcG0 = true := by
  unfold agcG0
  split
  · next h => simpa using h
  · exact ⟨rfl, numPos_one⟩

/-- Without input, the filter sum is what it started from. -/
theorem firSum_replicate_zero (i n : Nat) (acc : Cplx) :
    firSum i (List.replicate n Cplx.zero) acc = acc := by
  induction n generalizing i acc with
  | zero => rfl
  | succ n ih =>
    simp only [List.replicate_succ, firSum, ih]
    simp [cplxAdd, cplxScale, Cplx.zero, numMul_zero_right (romFir_finite i)]

/-! ### Oscillators and decimator -/

/-- A gain of 0 corrects nothing (R183). -/
@[simp] theorem pllDelta_zero (e : Scalar) : pllDelta Scalar.zero e = 0#32 := by simp [pllDelta]

/-- The decimator drops a sample at count 0 (R190). -/
theorem decimate_drop {d : Demod} (h : d.decCnt = 0#1) : decimate d = (false, { d with decCnt := 1#1 }) := by
  simp [decimate, h, Config.dec]

/-- The decimator keeps a sample at count 1 (R190). -/
theorem decimate_keep {d : Demod} (h : d.decCnt = 1#1) : decimate d = (true, { d with decCnt := 0#1 }) := by
  simp [decimate, h, Config.dec]

/-- `DEC.CNT` is 0 or 1 (R30). -/
theorem decCnt_cases (d : Demod) : d.decCnt = 0#1 ∨ d.decCnt = 1#1 := by
  have h := d.decCnt.isLt
  rcases (by omega : d.decCnt.toNat = 0 ∨ d.decCnt.toNat = 1) with h | h
  · exact .inl (BitVec.eq_of_toNat_eq h)
  · exact .inr (BitVec.eq_of_toNat_eq h)

/-! ### Soundness, stage by stage -/

theorem ncoAdvance_freq (n : Nco) : (ncoAdvance n).freq = n.freq := rfl

theorem ncoCorrect_zero (e : Scalar) (n : Nco) : ncoCorrect Scalar.zero Scalar.zero e n = n := by
  simp [ncoCorrect]

/-- Soundness depends on four things only. -/
theorem Demod.Sound.congr {d d' : Demod} (h : d.Sound) (hl : d'.fir.length = d.fir.length)
    (hc : d'.ncoC.freq = d.ncoC.freq) (ht : d'.ncoT.freq = d.ncoT.freq) (hg : d'.agcGain = d.agcGain) : d'.Sound := by
  unfold Demod.Sound
  rw [hl, hc, ht, hg]
  exact h

theorem mix_sound (x : Scalar) {d : Demod} (h : d.Sound) : (mix x d).2.Sound := Demod.Sound.congr h rfl rfl rfl rfl

theorem firShift_length (z : Cplx) {d : Demod} (h : d.fir.length = Config.firTaps) :
    (firShift z d).fir.length = Config.firTaps := by
  simp only [firShift, List.length_take, List.length_cons, h]
  omega

theorem firShift_sound (z : Cplx) {d : Demod} (h : d.Sound) : (firShift z d).Sound :=
  Demod.Sound.congr h ((firShift_length z h.1).trans h.1.symm) rfl rfl rfl

theorem agc_sound (w : Cplx) {d : Demod} (h : d.Sound) : (agc w d).2.Sound := by
  obtain ⟨hl, hc, ht, hf, hp⟩ := h
  exact ⟨hl, hc, ht, agcUpdate_positive hf hp⟩

theorem pllC_default (e : Scalar) (d : Demod) : pllC e d = d := by
  simp [pllC, Config.pllAlphaC, Config.pllBetaC, ncoCorrect_zero]

theorem pllT_default (e : Scalar) (d : Demod) : pllT e d = d := by
  simp [pllT, Config.pllAlphaT, Config.pllBetaT, ncoCorrect_zero]

/-- The front end, one stage after another (R181). -/
theorem frontEnd_eq (x : Scalar) (d : Demod) : frontEnd x d =
    agc (firOut (firShift (mix x d).1 (pllC Config.phaseErrorC (mix x d).2)))
      (firShift (mix x d).1 (pllC Config.phaseErrorC (mix x d).2)) := by
  unfold frontEnd
  split
  next z d' h => simp only [h]

theorem frontEnd_sound (x : Scalar) {d : Demod} (h : d.Sound) : (frontEnd x d).2.Sound := by
  rw [frontEnd_eq, pllC_default]
  exact agc_sound _ (firShift_sound _ (mix_sound x h))

theorem decimate_sound {d : Demod} (h : d.Sound) : (decimate d).2.Sound := by
  rcases decCnt_cases d with h0 | h1
  · rw [decimate_drop h0]; exact Demod.Sound.congr h rfl rfl rfl rfl
  · rw [decimate_keep h1]; exact Demod.Sound.congr h rfl rfl rfl rfl

/-- A sample's state before the slicer (R194). -/
def beforeSlice (x : Scalar) (d : Demod) : Demod := advanceT (integrate x d)

theorem timing_eq (x : Scalar) (d : Demod) : timing x d =
    if cneg (d.ncoT.phase + d.ncoT.freq) != cneg d.ncoT.phase then
      (some (numPos (beforeSlice x d).sliceAcc), { beforeSlice x d with sliceAcc := Scalar.zero })
    else (none, beforeSlice x d) := by
  unfold timing
  rw [pllT_default]
  rfl

theorem beforeSlice_sound (x : Scalar) {d : Demod} (h : d.Sound) : (beforeSlice x d).Sound :=
  Demod.Sound.congr h rfl rfl rfl rfl

theorem timing_sound (x : Scalar) {d : Demod} (h : d.Sound) : (timing x d).2.Sound := by
  rw [timing_eq]
  have key := beforeSlice_sound x h
  generalize beforeSlice x d = e at *
  split
  · exact Demod.Sound.congr key rfl rfl rfl rfl
  · exact key

/-- A sample, by whether the decimator keeps it (R181, R190). -/
theorem demodStep_drop (x : Scalar) {d : Demod} (h : (frontEnd x d).2.decCnt = 0#1) :
    demodStep x d = (none, { (frontEnd x d).2 with decCnt := 1#1 }) := by
  unfold demodStep
  generalize frontEnd x d = r at *
  obtain ⟨a, d'⟩ := r
  simp [decimate_drop h]

theorem demodStep_keep (x : Scalar) {d : Demod} (h : (frontEnd x d).2.decCnt = 1#1) :
    demodStep x d = timing (phaseStep (frontEnd x d).1 (frontEnd x d).2.discPrev)
      { (frontEnd x d).2 with decCnt := 0#1, discPrev := (frontEnd x d).1 } := by
  unfold demodStep
  generalize frontEnd x d = r at *
  obtain ⟨a, d'⟩ := r
  simp [decimate_keep h, disc]

/-- Every sample keeps the demodulator sound. -/
theorem demodStep_sound (x : Scalar) {d : Demod} (h : d.Sound) : (demodStep x d).2.Sound := by
  have hf := frontEnd_sound x h
  rcases decCnt_cases (frontEnd x d).2 with h0 | h1
  · rw [demodStep_drop x h0]; exact Demod.Sound.congr hf rfl rfl rfl rfl
  · rw [demodStep_keep x h1]; exact timing_sound _ (Demod.Sound.congr hf rfl rfl rfl rfl)

end Sys2Proof.Machine
end

