-- ==== Sys2Proof/Laws/Reassembler.lean ====
section
/-! SUPPORT. What the reassembler can do: its frame, and that each accumulator stays sound. -/

namespace Sys2Proof.Machine

/-! ### Frame of the router (R270, R295): it touches the accumulators and the record port only -/

theorem reassemble_cases (f : Info) (s : State) :
    (infoSilc f = 0x8#4 ∧ reassemble f s = sechPush (sechFields f) s) ∨
    (infoSilc f = 0xA#4 ∧ reassemble f s = longPush (longFields f) s) ∨
    (infoSilc f = 0xB#4 ∧ infoSub f = 0#4 ∧ reassemble f s = bmchPass (bmchPayload f) s) ∨
    (infoSilc f ≠ 0x8#4 ∧ infoSilc f ≠ 0xA#4 ∧ reassemble f s = s) := by
  unfold reassemble
  simp only [Config.silcSech, Config.silcLong, Config.silcBmch, dropBlock]
  by_cases h8 : infoSilc f = 0x8#4
  · exact .inl ⟨h8, by simp [h8]⟩
  · by_cases hA : infoSilc f = 0xA#4
    · exact .inr (.inl ⟨hA, by simp [hA]⟩)
    · by_cases hB : infoSilc f = 0xB#4
      · by_cases h0 : infoSub f = 0#4
        · exact .inr (.inr (.inl ⟨hB, h0, by simp [hB, h0]⟩))
        · exact .inr (.inr (.inr ⟨h8, hA, by simp [hB, h0]⟩))
      · exact .inr (.inr (.inr ⟨h8, hA, by simp [h8, hA, hB]⟩))

@[simp] theorem reassemble_cfg (f : Info) (s : State) : (reassemble f s).cfg = s.cfg := by
  rcases reassemble_cases f s with ⟨_, h⟩ | ⟨_, h⟩ | ⟨_, _, h⟩ | ⟨_, _, h⟩ <;> simp [h]

@[simp] theorem reassemble_status (f : Info) (s : State) : (reassemble f s).status = s.status := by
  rcases reassemble_cases f s with ⟨_, h⟩ | ⟨_, h⟩ | ⟨_, _, h⟩ | ⟨_, _, h⟩ <;> simp [h]

@[simp] theorem reassemble_demod (f : Info) (s : State) : (reassemble f s).demod = s.demod := by
  rcases reassemble_cases f s with ⟨_, h⟩ | ⟨_, h⟩ | ⟨_, _, h⟩ | ⟨_, _, h⟩ <;> simp [h]

@[simp] theorem reassemble_sync (f : Info) (s : State) : (reassemble f s).sync = s.sync := by
  rcases reassemble_cases f s with ⟨_, h⟩ | ⟨_, h⟩ | ⟨_, _, h⟩ | ⟨_, _, h⟩ <;> simp [h]

@[simp] theorem reassemble_port (f : Info) (s : State) : (reassemble f s).port = s.port := by
  rcases reassemble_cases f s with ⟨_, h⟩ | ⟨_, h⟩ | ⟨_, _, h⟩ | ⟨_, _, h⟩ <;> simp [h]

@[simp] theorem reassemble_out_bit (f : Info) (s : State) : (reassemble f s).out.bit = s.out.bit := by
  rcases reassemble_cases f s with ⟨_, h⟩ | ⟨_, h⟩ | ⟨_, _, h⟩ | ⟨_, _, h⟩ <;> simp [h, sechPush, longPush]

@[simp] theorem reassemble_out_l2 (f : Info) (s : State) : (reassemble f s).out.l2 = s.out.l2 := by
  rcases reassemble_cases f s with ⟨_, h⟩ | ⟨_, h⟩ | ⟨_, _, h⟩ | ⟨_, _, h⟩ <;> simp [h, sechPush, longPush]

/-- Only SILC 0x8 reaches the service accumulator (R270). -/
theorem reassemble_sech_of_ne {f : Info} (h : infoSilc f ≠ 0x8#4) (s : State) : (reassemble f s).sech = s.sech := by
  rcases reassemble_cases f s with ⟨h8, _⟩ | ⟨_, e⟩ | ⟨_, _, e⟩ | ⟨_, _, e⟩
  · exact absurd h8 h
  all_goals simp [e]

/-- Only SILC 0xA reaches the long accumulator (R270). -/
theorem reassemble_long_of_ne {f : Info} (h : infoSilc f ≠ 0xA#4) (s : State) : (reassemble f s).long = s.long := by
  rcases reassemble_cases f s with ⟨_, e⟩ | ⟨hA, _⟩ | ⟨_, _, e⟩ | ⟨_, _, e⟩
  · simp [e]
  · exact absurd hA h
  all_goals simp [e]

/-! ### Soundness of the accumulators -/

/-- An empty accumulator is sound. -/
theorem sechClear_sound (a : Sech) : (sechClear a).Sound := ⟨rfl, rfl⟩

theorem sechComplete_sound {lf : Bool} {a : Sech} (h : a.Sound) : (sechComplete lf a).1.Sound := by
  cases lf
  · exact h
  · exact sechClear_sound a

theorem sechStart_sound (b : SechBlock) : (sechStart b).Sound := by
  refine ⟨?_, rfl⟩
  simp [sechStart, sechPayload, Config.blockPayloadBytes]

/-- In a sound accumulator all bytes are valid ones. -/
theorem sechBytes_eq {a : Sech} (h : a.buf.length = a.len.toNat) : sechBytes a = a.buf := by
  simp [sechBytes, ← h]

theorem longBytes_eq {a : Long} (h : a.buf.length = a.len.toNat) : longBytes a = a.buf := by
  simp [longBytes, ← h]

theorem sechAppend_sound {b : SechBlock} {a : Sech} (h : a.Sound) (hc : sechContinues b a = true) :
    (sechAppend b a).Sound := by
  obtain ⟨hl, hv⟩ := h
  simp only [sechContinues, Bool.and_eq_true, decide_eq_true_eq] at hc
  obtain ⟨hval, -, -, -, -, hbn⟩ := hc
  rw [if_pos hval] at hv
  have hlt := b.bn.isLt
  simp only [Config.blockPayloadBytes] at hv
  have hlen : (a.len + 19#9).toNat = a.len.toNat + 19 := by
    rw [BitVec.toNat_add]
    exact Nat.mod_eq_of_lt (by simp; omega)
  refine ⟨?_, ?_⟩
  · show (sechBytes a ++ sechPayload b).length = (a.len + 19#9).toNat
    simp [sechBytes_eq hl, sechPayload, hl, hlen]
  · show (a.len + 19#9).toNat = if a.valid = true then 19 * (b.bn.toNat + 1) else 0
    rw [if_pos hval, hlen]
    omega

/-- One service block keeps the service accumulator sound (R273 to R276). -/
theorem sechNext_sound (b : SechBlock) {a : Sech} (h : a.Sound) : (sechNext b a).1.Sound := by
  unfold sechNext
  split
  · exact sechComplete_sound (sechStart_sound b)
  · split
    · next hc => exact sechComplete_sound (sechAppend_sound h hc)
    · exact sechClear_sound a

theorem longClear_sound (a : Long) : (longClear a).Sound :=
  ⟨rfl, Nat.zero_le _, rfl, by simp [longClear]⟩

/-- The buffer after an accepted block is a whole number of blocks within the bound. -/
theorem longAccept_sound {b : LongBlock} {a : Long} (hl : a.buf.length = a.len.toNat)
    (hm : a.len.toNat ≤ 4864) (hd : a.len.toNat % 19 = 0) (hp : 19 ≤ a.len.toNat) (hv : a.valid = true) :
    (longAccept b a).1.Sound :=
  ⟨hl, hm, hd, by simp [longAccept, hv, Config.blockPayloadBytes, hp]⟩

/-- One long block keeps the long accumulator sound (R283 to R286). -/
theorem longNext_sound (b : LongBlock) {a : Long} (h : a.Sound) : (longNext b a).1.Sound := by
  obtain ⟨hl, hm, hd, hv⟩ := h
  unfold longNext
  split
  · split
    · next hc =>
      have hval : a.valid = true := by
        simp only [longContinues, Bool.and_eq_true] at hc
        exact hc.1.1
      rw [if_pos hval] at hv
      simp only [Config.blockPayloadBytes, Config.longMaxBytes] at hm hd hv
      split
      · next hroom =>
        simp only [Config.blockPayloadBytes, Config.longMaxBytes] at hroom
        have hlen : (a.len + 19#13).toNat = a.len.toNat + 19 := by
          rw [BitVec.toNat_add]
          exact Nat.mod_eq_of_lt (by simp; omega)
        have e : (longAppend b a).len = a.len + 19#13 := rfl
        apply longAccept_sound
        · rw [e, hlen]
          simp [longAppend, longBytes_eq hl, longPayload, hl]
        · rw [e, hlen]; exact hroom
        · rw [e, hlen]; omega
        · rw [e, hlen]; omega
        · exact hval
      · exact longClear_sound a
    · have e : (longRestart b a).len = 19#13 := rfl
      apply longAccept_sound
      · simp [longRestart, longPayload, Config.blockPayloadBytes]
      · rw [e]; decide
      · rw [e]; decide
      · rw [e]; decide
      · rfl
  · exact longClear_sound a

end Sys2Proof.Machine
end

