-- ==== Sys2Proof/Laws/Sync.lean ====
section
/-! SUPPORT. What one bit through the synchroniser can do (43_l2_sync.md R230), one lemma per case, and that it keeps the
synchroniser sound. -/

namespace Sys2Proof.Machine

/-- Unsynchronised, no BIC: only the register shifts (R234). -/
theorem syncStep_search {b : Bool} {y : Sync} (h : y.state = .unsynchronized) (hb : isBic (shiftSr b y).sr = false) :
    syncStep b y = (none, shiftSr b y) := by
  have hs : (shiftSr b y).state = .unsynchronized := h
  simp [syncStep, hs, hb]

/-- Unsynchronised, a BIC: a block starts (R233). -/
theorem syncStep_start {b : Bool} {y : Sync} (h : y.state = .unsynchronized) (hb : isBic (shiftSr b y).sr = true) :
    syncStep b y = (none, startBlock (shiftSr b y).sr (shiftSr b y)) := by
  have hs : (shiftSr b y).state = .unsynchronized := h
  simp [syncStep, hs, hb]

/-- Filling before the last position: the bit is appended (R235). -/
theorem syncStep_fill {b : Bool} {y : Sync} (h : y.state = .filling) (hc : y.cnt.toNat < 271) :
    syncStep b y = (none, append b (shiftSr b y)) := by
  have hs : (shiftSr b y).state = .filling := h
  have hn : (append b (shiftSr b y)).cnt.toNat = y.cnt.toNat + 1 := by
    show (y.cnt + 1#9).toNat = _
    rw [BitVec.toNat_add]
    exact Nat.mod_eq_of_lt (by simp; omega)
  simp only [syncStep, hs, hn, Config.frameBits]
  rw [if_pos (by omega)]

/-- Filling at the last position: the block is finished (R236). -/
theorem syncStep_finish {b : Bool} {y : Sync} (h : y.state = .filling) (hc : y.cnt = 271#9) :
    syncStep b y = finishBlock (append b (shiftSr b y)) := by
  have hs : (shiftSr b y).state = .filling := h
  have hn : (append b (shiftSr b y)).cnt.toNat = 272 := by
    show (y.cnt + 1#9).toNat = _
    rw [hc]; rfl
  simp [syncStep, hs, hn, Config.frameBits]

/-- The lookup answers a position of the frame whose table entry is the syndrome (R162). -/
theorem findSyn_some {s : BitVec 82} {i : Nat} (h : findSyn s = some i) : i < 272 ∧ romSyn i = s := by
  have h1 := List.mem_of_find?_eq_some h
  have h2 := List.find?_some h
  exact ⟨by simpa [Config.frameBits] using h1, by simpa using h2⟩

/-- The lookup answers nothing exactly when no entry is the syndrome (R162). -/
theorem findSyn_none {s : BitVec 82} : findSyn s = none ↔ ∀ i < 272, romSyn i ≠ s := by
  simp [findSyn, Config.frameBits]

/-- The lookup corrects at the position it finds (R237). -/
theorem correct_eq_some {v : BicWord} {f : Frame} {s : BitVec 82} {a : Accepted} (h : correct v f s = some a) :
    ∃ i, findSyn s = some i ∧ a = { bic := v, frame := f ^^^ unitFrame i, pos := some i } := by
  obtain ⟨i, hi, he⟩ := Option.map_eq_some_iff.mp h
  exact ⟨i, hi, he.symm⟩

/-- The validation by cases of the syndrome (R236). -/
theorem validate_eq (v : BicWord) (f : Frame) : validate v f =
    if syn f = 0#82 then some { bic := v, frame := f, pos := none } else correct v f (syn f) := rfl

/-- A frame of syndrome 0 is accepted as it is (R236). -/
theorem validate_zero {v : BicWord} {f : Frame} (h : syn f = 0#82) :
    validate v f = some { bic := v, frame := f, pos := none } := by
  rw [validate_eq, if_pos h]

/-- A frame whose syndrome the table names is corrected there (R237). -/
theorem validate_single {v : BicWord} {f : Frame} {i : Nat} (h : syn f ≠ 0#82) (hi : findSyn (syn f) = some i) :
    validate v f = some { bic := v, frame := f ^^^ unitFrame i, pos := some i } := by
  rw [validate_eq, if_neg h, correct, hi, Option.map_some]

/-- Any other frame is discarded (R237). -/
theorem validate_none {v : BicWord} {f : Frame} (h : syn f ≠ 0#82) (hn : findSyn (syn f) = none) :
    validate v f = none := by
  rw [validate_eq, if_neg h, correct, hn, Option.map_none]

/-- What validation accepts: the tag is the block's, and a corrected position is one of the frame, named by the
syndrome (R236, R237). -/
theorem validate_cases {v : BicWord} {f : Frame} {a : Accepted} (h : validate v f = some a) :
    (syn f = 0#82 ∧ a = { bic := v, frame := f, pos := none }) ∨
    ∃ i < 272, romSyn i = syn f ∧ a = { bic := v, frame := f ^^^ unitFrame i, pos := some i } := by
  by_cases h0 : syn f = 0#82
  · rw [validate_zero h0] at h
    injection h with h
    exact .inl ⟨h0, h.symm⟩
  · rw [validate_eq, if_neg h0] at h
    obtain ⟨i, hi, he⟩ := correct_eq_some h
    exact .inr ⟨i, (findSyn_some hi).1, (findSyn_some hi).2, he⟩

/-- An accepted block keeps the tag (R236, R237). -/
theorem validate_bic {v : BicWord} {f : Frame} {a : Accepted} (h : validate v f = some a) : a.bic = v := by
  rcases validate_cases h with ⟨_, rfl⟩ | ⟨_, _, _, rfl⟩ <;> rfl

/-- A corrected position is one of the frame (R237). -/
theorem validate_pos {v : BicWord} {f : Frame} {a : Accepted} (h : validate v f = some a) :
    ∀ i ∈ a.pos, i < 272 := by
  rcases validate_cases h with ⟨_, rfl⟩ | ⟨i, hi, _, rfl⟩
  · simp
  · intro j hj
    cases hj
    exact hi

/-- One bit keeps the synchroniser sound (R38, R39). -/
theorem syncStep_sound (b : Bool) {y : Sync} (h : y.Sound) : (syncStep b y).2.Sound := by
  obtain ⟨h0, hc, hb⟩ := h
  cases hs : y.state with
  | unsynchronized =>
    cases hv : isBic (shiftSr b y).sr with
    | false =>
      rw [syncStep_search hs hv]
      exact ⟨fun _ => h0 hs, hc, fun hf => absurd (hs.symm.trans hf) (by decide)⟩
    | true =>
      rw [syncStep_start hs hv]
      refine ⟨fun hf => ?_, (by decide : (0#9).toNat < 272), fun _ => hv⟩
      cases hf
  | filling =>
    by_cases hlt : y.cnt.toNat < 271
    · rw [syncStep_fill hs hlt]
      refine ⟨fun hf => absurd (hs.symm.trans hf) (by decide), ?_, fun _ => hb hs⟩
      show (y.cnt + 1#9).toNat < 272
      rw [BitVec.toNat_add]
      exact Nat.lt_of_le_of_lt (Nat.mod_le _ _) (by simp; omega)
    · have he : y.cnt = 271#9 := BitVec.eq_of_toNat_eq (by
        simp only [Config.frameBits] at hc
        show y.cnt.toNat = 271
        omega)
      rw [syncStep_finish hs he]
      refine ⟨fun _ => rfl, (by decide : (0#9).toNat < 272), fun hf => ?_⟩
      cases hf

/-- What is accepted is tagged with the block's BIC, and only a block being filled is accepted (R239, R242). -/
theorem syncStep_accepted {b : Bool} {y : Sync} {a : Accepted} (h : (syncStep b y).1 = some a) :
    y.state = .filling ∧ (∃ f, validate y.bic f = some a) ∧ (syncStep b y).2.state = .unsynchronized := by
  unfold syncStep at h ⊢
  cases hs : y.state with
  | unsynchronized =>
    have hs' : (shiftSr b y).state = .unsynchronized := hs
    simp [hs'] at h
  | filling =>
    have hs' : (shiftSr b y).state = .filling := hs
    simp only [hs'] at h ⊢
    split at h
    · cases h
    · next hc => exact ⟨trivial, ⟨_, h⟩, by simp [hc, finishBlock, dropSync]⟩

end Sys2Proof.Machine
end

