-- ==== Sys2Proof/Laws/Exec.lean ====
section
/-! SUPPORT. What a step can do, said once: the command step by case of the command, the bit pipeline by what the
synchroniser answers, and the sample pipeline by what the demodulator answers. -/

namespace Sys2Proof.Machine

/-! ### Host commands -/

/-- The rows of format CMD64 (R81). -/
def isCommand : Instr → Bool
  | .nop | .reset | .config _ _ | .sample _ | .bit _ | .eos | .reserved67 _ | .reserved8F _ => true
  | .bic1 | .bic2 | .bic3 | .bic4 | .sech _ | .lmch _ | .bmch _ | .bmchOtherSub _ _ | .silc07 _ _ | .silc9 _
  | .silcCF _ _ | .l4Ca _ _ _ _ _ | .l4Tlv _ | .l4Payload _ _ => false

/-- A command word decodes to a command. -/
theorem decodeCmd_isCommand (w : CmdWord) : isCommand (decodeCmd w) = true := by
  unfold decodeCmd
  dsimp only
  iterate 7 (split; · rfl)
  rfl

/-! ### The step -/

/-- A step on a presented command is the command's meaning (R120). -/
theorem step_cons {s : State} {w : CmdWord} {rest : List CmdWord} (h : s.port = w :: rest) :
    step s = exec (decodeCmd w) { s with port := rest } := by
  simp [step, h]

/-- A step without a command idles (log 1). -/
theorem step_nil {s : State} (h : s.port = []) : step s = .next (idle s) := by
  simp [step, h]

/-- A run of one step more, from its first step. -/
theorem run_succ {k : Nat} {s t : State} (h : step s = .next t) :
    Sys2Proof.core.run (k + 1) s = Sys2Proof.core.run k t := by
  have h' : Sys2Proof.core.step s = .next t := h
  simp only [Host.Core.run, h']

/-- A run of one step more, from its last step. -/
theorem run_last {k : Nat} {s t : State} (h : Sys2Proof.core.run k s = .next t) :
    Sys2Proof.core.run (k + 1) s = step t := by
  induction k generalizing s with
  | zero =>
    simp only [Host.Core.run] at h
    injection h with h
    subst h
    show Sys2Proof.core.run 1 s = Sys2Proof.core.step s
    simp only [Host.Core.run]
    cases Sys2Proof.core.step s <;> rfl
  | succ k ih =>
    cases hs : Sys2Proof.core.step s with
    | next u =>
      rw [run_succ hs] at h ⊢
      exact ih h
    | fault r => simp only [Host.Core.run, hs] at h; cases h
    | refused r => simp only [Host.Core.run, hs] at h; cases h

/-- The accepting conditions as propositions (R128). -/
theorem accepts_iff {m : InputMode} {s : State} :
    accepts m s = true ↔ s.status.cfgErr = false ∧ s.status.eos = false ∧ s.cfg.mode = m := by
  simp [accepts, and_assoc]

@[simp] theorem accepts_beginStep (m : InputMode) (s : State) : accepts m (beginStep s) = accepts m s := rfl

/-! ### The input commands -/

theorem execBit_accepted {s : State} (h : accepts .bits s = true) (b : Bool) :
    execBit b s = .next (driveStatus (bitPipeline b (beginStep s))) := by
  simp [execBit, command, h]

theorem execBit_ignored {s : State} (h : accepts .bits s = false) (b : Bool) :
    execBit b s = .next (driveStatus (ignoreCommand (beginStep s))) := by
  simp [execBit, command, h]

theorem execSample_accepted {s : State} (h : accepts .samples s = true) (x : BitVec 32) :
    execSample x s = .next (driveStatus (samplePipeline (numOfBinary32 x) (beginStep s))) := by
  simp [execSample, command, h]

theorem execSample_ignored {s : State} (h : accepts .samples s = false) (x : BitVec 32) :
    execSample x s = .next (driveStatus (ignoreCommand (beginStep s))) := by
  simp [execSample, command, h]

/-- Everything a presented command can do. -/
inductive CommandEffect (w : CmdWord) (s : State) : State → Prop
  | nothing : decodeCmd w = .nop → CommandEffect w s s
  | reset : decodeCmd w = .reset → CommandEffect w s (resetState s)
  | configured (m : InputMode) (f : BitVec 32) : decodeCmd w = .config m f → CommandEffect w s (configure m f s)
  | sampled (x : BitVec 32) : decodeCmd w = .sample x → accepts .samples s = true →
      CommandEffect w s (samplePipeline (numOfBinary32 x) s)
  | received (b : Bool) : decodeCmd w = .bit b → accepts .bits s = true → CommandEffect w s (bitPipeline b s)
  | ended : decodeCmd w = .eos → CommandEffect w s (endOfStream s)
  | ignored : decodeCmd w ≠ .reset → (∀ m f, decodeCmd w ≠ .config m f) → CommandEffect w s (ignoreCommand s)

/-- The inversion of a step (R120 to R128). -/
theorem step_cases {s t : State} (h : step s = .next t) :
    (s.port = [] ∧ t = idle s) ∨
    ∃ w rest u, s.port = w :: rest ∧ CommandEffect w (beginStep { s with port := rest }) u ∧ t = driveStatus u := by
  cases hp : s.port with
  | nil =>
    rw [step_nil hp] at h
    injection h with h
    exact .inl ⟨rfl, h.symm⟩
  | cons w rest =>
    refine .inr ⟨w, rest, ?_⟩
    rw [step_cons hp] at h
    generalize { s with port := rest } = s' at *
    have hd : ∀ i, decodeCmd w = i → exec i s' = .next t := fun i hi => hi ▸ h
    cases hi : decodeCmd w with
    | nop =>
      have := hd _ hi
      simp only [exec, execNop, command, Host.Outcome.next.injEq] at this
      exact ⟨_, rfl, .nothing hi, this.symm⟩
    | reset =>
      have := hd _ hi
      simp only [exec, execReset, command, Host.Outcome.next.injEq] at this
      exact ⟨_, rfl, .reset hi, this.symm⟩
    | config m f =>
      have := hd _ hi
      simp only [exec, execConfig, command, Host.Outcome.next.injEq] at this
      exact ⟨_, rfl, .configured m f hi, this.symm⟩
    | sample x =>
      have := hd _ hi
      simp only [exec] at this
      cases ha : accepts .samples s' with
      | true =>
        rw [execSample_accepted ha] at this
        injection this with this
        exact ⟨_, rfl, .sampled x hi ha, this.symm⟩
      | false =>
        rw [execSample_ignored ha] at this
        injection this with this
        exact ⟨_, rfl, .ignored (by simp [hi]) (by simp [hi]), this.symm⟩
    | bit b =>
      have := hd _ hi
      simp only [exec] at this
      cases ha : accepts .bits s' with
      | true =>
        rw [execBit_accepted ha] at this
        injection this with this
        exact ⟨_, rfl, .received b hi ha, this.symm⟩
      | false =>
        rw [execBit_ignored ha] at this
        injection this with this
        exact ⟨_, rfl, .ignored (by simp [hi]) (by simp [hi]), this.symm⟩
    | eos =>
      have := hd _ hi
      simp only [exec, execEos, command, Host.Outcome.next.injEq] at this
      exact ⟨_, rfl, .ended hi, this.symm⟩
    | reserved67 low =>
      have := hd _ hi
      simp only [exec, execReserved67, command, Host.Outcome.next.injEq] at this
      exact ⟨_, rfl, .ignored (by simp [hi]) (by simp [hi]), this.symm⟩
    | reserved8F low =>
      have := hd _ hi
      simp only [exec, execReserved8F, command, Host.Outcome.next.injEq] at this
      exact ⟨_, rfl, .ignored (by simp [hi]) (by simp [hi]), this.symm⟩
    | _ =>
      have := decodeCmd_isCommand w
      rw [hi] at this
      cases this

/-! ### The pipelines -/

/-- What a bit does, by what the synchroniser answers (R124, R125). -/
theorem bitPipeline_none {b : Bool} {s : State} (h : (syncStep b s.sync).1 = none) :
    bitPipeline b s = { s with sync := (syncStep b s.sync).2 } := by
  simp [bitPipeline, afterBlock, h]

theorem bitPipeline_some {b : Bool} {s : State} {a : Accepted} (h : (syncStep b s.sync).1 = some a) :
    bitPipeline b s = reassemble (infoOf a.frame)
      (emitL2 a.bic a.frame a.pos { s with sync := (syncStep b s.sync).2 }) := by
  simp [bitPipeline, afterBlock, h]

/-- What a sample does, by what the demodulator answers (R124). -/
theorem samplePipeline_none {x : Scalar} {s : State} (h : (demodStep x s.demod).1 = none) :
    samplePipeline x s = { s with demod := (demodStep x s.demod).2 } := by
  simp [samplePipeline, afterDemod, h]

theorem samplePipeline_some {x : Scalar} {s : State} {b : Bool} (h : (demodStep x s.demod).1 = some b) :
    samplePipeline x s = bitPipeline b (emitBit b { s with demod := (demodStep x s.demod).2 }) := by
  simp [samplePipeline, afterDemod, h]

/-! #### Frames of the pipelines -/

@[simp] theorem bitPipeline_cfg (b : Bool) (s : State) : (bitPipeline b s).cfg = s.cfg := by
  cases h : (syncStep b s.sync).1 <;> simp [bitPipeline, afterBlock, h]

@[simp] theorem bitPipeline_status (b : Bool) (s : State) : (bitPipeline b s).status = s.status := by
  cases h : (syncStep b s.sync).1 <;> simp [bitPipeline, afterBlock, h]

@[simp] theorem bitPipeline_demod (b : Bool) (s : State) : (bitPipeline b s).demod = s.demod := by
  cases h : (syncStep b s.sync).1 <;> simp [bitPipeline, afterBlock, h]

@[simp] theorem bitPipeline_port (b : Bool) (s : State) : (bitPipeline b s).port = s.port := by
  cases h : (syncStep b s.sync).1 <;> simp [bitPipeline, afterBlock, h]

@[simp] theorem bitPipeline_sync (b : Bool) (s : State) : (bitPipeline b s).sync = (syncStep b s.sync).2 := by
  cases h : (syncStep b s.sync).1 <;> simp [bitPipeline, afterBlock, h]

@[simp] theorem bitPipeline_out_bit (b : Bool) (s : State) : (bitPipeline b s).out.bit = s.out.bit := by
  cases h : (syncStep b s.sync).1 <;> simp [bitPipeline, afterBlock, h]

@[simp] theorem samplePipeline_cfg (x : Scalar) (s : State) : (samplePipeline x s).cfg = s.cfg := by
  cases h : (demodStep x s.demod).1 <;> simp [samplePipeline, afterDemod, h]

@[simp] theorem samplePipeline_status (x : Scalar) (s : State) : (samplePipeline x s).status = s.status := by
  cases h : (demodStep x s.demod).1 <;> simp [samplePipeline, afterDemod, h]

@[simp] theorem samplePipeline_port (x : Scalar) (s : State) : (samplePipeline x s).port = s.port := by
  cases h : (demodStep x s.demod).1 <;> simp [samplePipeline, afterDemod, h]

@[simp] theorem samplePipeline_demod (x : Scalar) (s : State) :
    (samplePipeline x s).demod = (demodStep x s.demod).2 := by
  cases h : (demodStep x s.demod).1 <;> simp [samplePipeline, afterDemod, h]

@[simp] theorem samplePipeline_out_bit (x : Scalar) (s : State) (h : s.out.bit = none) :
    (samplePipeline x s).out.bit = (demodStep x s.demod).1 := by
  cases hd : (demodStep x s.demod).1 <;> simp [samplePipeline, afterDemod, hd, h]

end Sys2Proof.Machine
end

