-- ==== Sys2Proof/Laws/PerInstr.lean ====
section
/-! SUPPORT. Per instruction: the encoder's words carry the bits that the instruction's row of spec/opcode_table.json
fixes (its mask and match). -/

namespace Sys2Proof.Laws.TableMatch

open Sys2Proof.Machine

/-- The mask of the instruction's row. -/
def rowMask : Instr → Nat
  | .nop => 0xF000000000000000
  | .reset => 0xF000000000000000
  | .config _ _ => 0xF000000000000000
  | .sample _ => 0xF000000000000000
  | .bit _ => 0xF000000000000000
  | .eos => 0xF000000000000000
  | .reserved67 _ => 0xE000000000000000
  | .reserved8F _ => 0x8000000000000000
  | .bic1 => 0xFFFF
  | .bic2 => 0xFFFF
  | .bic3 => 0xFFFF
  | .bic4 => 0xFFFF
  | .sech _ => 0xF0
  | .lmch _ => 0xF0
  | .bmch _ => 0xFF
  | .bmchOtherSub _ _ => 0xF0
  | .silc07 _ _ => 0x80
  | .silc9 _ => 0xF0
  | .silcCF _ _ => 0xC0
  | .l4Ca _ _ _ _ _ => 0x10
  | .l4Tlv _ => 0x1F
  | .l4Payload _ _ => 0x10

/-- The match of the instruction's row. -/
def rowMatch : Instr → Nat
  | .nop => 0x0000000000000000
  | .reset => 0x1000000000000000
  | .config _ _ => 0x2000000000000000
  | .sample _ => 0x3000000000000000
  | .bit _ => 0x4000000000000000
  | .eos => 0x5000000000000000
  | .reserved67 _ => 0x6000000000000000
  | .reserved8F _ => 0x8000000000000000
  | .bic1 => 0x135E
  | .bic2 => 0x74A6
  | .bic3 => 0xA791
  | .bic4 => 0xC875
  | .sech _ => 0x80
  | .lmch _ => 0xA0
  | .bmch _ => 0xB0
  | .bmchOtherSub _ _ => 0xB0
  | .silc07 _ _ => 0x00
  | .silc9 _ => 0x90
  | .silcCF _ _ => 0xC0
  | .l4Ca _ _ _ _ _ => 0x10
  | .l4Tlv _ => 0x0C
  | .l4Payload _ _ => 0x00

/-- The fixed bits of the row stand in the encoding: in the command word, in the 16 bits of the BIC, in the 8-bit header
of the information field, in byte 0 of the long message. -/
def Statement (i : Instr) : Prop :=
  match encode i with
  | .cmd w => w &&& BitVec.ofNat 64 (rowMask i) = BitVec.ofNat 64 (rowMatch i)
  | .bic v => v &&& BitVec.ofNat 16 (rowMask i) = BitVec.ofNat 16 (rowMatch i)
  | .info f => msb f 0 8 &&& BitVec.ofNat 8 (rowMask i) = BitVec.ofNat 8 (rowMatch i)
  | .l4 bytes => (bytes.head?.map fun b => b &&& BitVec.ofNat 8 (rowMask i)) = some (BitVec.ofNat 8 (rowMatch i))

/-- Masking the opcode out of a command word. -/
theorem cmdWord_and (op : BitVec 4) (low : BitVec 60) : cmdWord op low &&& 0xF000000000000000#64 = op ++ 0#60 := by
  have h : (0xF000000000000000#64 : CmdWord) = 0xF#4 ++ 0#60 := by decide
  rw [h, cmdWord, BitVec.and_append, show (0xF#4 : BitVec 4) = BitVec.allOnes 4 by decide, BitVec.and_allOnes,
    BitVec.and_zero]

/-- The 8-bit header is the SILC and the four bits after it. -/
theorem header_eq (f : Info) : msb f 0 8 = infoSilc f ++ infoSub f := by
  refine eq_of_bitAt fun i hi => ?_
  rw [bitAt_msb _ (by omega) hi, bitAt_append]
  split
  · rw [infoSilc, bitAt_msb _ (by omega) (by omega)]
  · rw [infoSub, bitAt_msb _ (by omega) (by omega)]
    congr 1
    omega

/-- Masking the SILC out of the header. -/
theorem header_and (f : Info) : msb f 0 8 &&& 0xF0#8 = infoSilc f ++ 0#4 := by
  have h : (0xF0#8 : BitVec 8) = 0xF#4 ++ 0#4 := by decide
  rw [header_eq, h, BitVec.and_append, show (0xF#4 : BitVec 4) = BitVec.allOnes 4 by decide, BitVec.and_allOnes,
    BitVec.and_zero]

/-- The SILC of a field written as its first four bits and the rest. -/
theorem infoSilc_append (silc : BitVec 4) (rest : BitVec 172) : infoSilc (silc ++ rest) = silc := by
  refine eq_of_bitAt fun i hi => ?_
  rw [infoSilc, bitAt_msb _ (by omega) hi, bitAt_append, if_pos (by omega), Nat.zero_add]

theorem infoSilc_encodeSech (b : SechBlock) : infoSilc (encodeSech b) = 0x8#4 := by
  refine eq_of_bitAt fun i hi => ?_
  rw [infoSilc, bitAt_msb _ (by omega) hi]
  simp only [encodeSech, bitAt_append]
  repeat rw [if_pos (by omega)]
  rw [Nat.zero_add]
  rfl

theorem infoSilc_encodeLong (b : LongBlock) : infoSilc (encodeLong b) = 0xA#4 := by
  refine eq_of_bitAt fun i hi => ?_
  rw [infoSilc, bitAt_msb _ (by omega) hi]
  simp only [encodeLong, miniHeader, bitAt_append]
  repeat rw [if_pos (by omega)]
  rw [Nat.zero_add]
  rfl

theorem infoSilc_bmch (sub : BitVec 4) (payload : BitVec 168) :
    infoSilc (Config.silcBmch ++ sub ++ payload) = 0xB#4 := by
  refine eq_of_bitAt fun i hi => ?_
  rw [infoSilc, bitAt_msb _ (by omega) hi]
  simp only [bitAt_append]
  repeat rw [if_pos (by omega)]
  rw [Nat.zero_add]
  rfl

theorem infoSub_bmch (sub : BitVec 4) (payload : BitVec 168) :
    infoSub (Config.silcBmch ++ sub ++ payload) = sub := by
  refine eq_of_bitAt fun i hi => ?_
  rw [infoSub, bitAt_msb _ (by omega) hi]
  simp only [bitAt_append]
  rw [if_pos (by omega), if_neg (by omega), Nat.add_sub_cancel_left]

theorem nop : Statement .nop :=
  (cmdWord_and 0x0#4 _).trans (by decide : (0x0#4 ++ 0#60 : CmdWord) = 0x0000000000000000#64)
theorem reset : Statement .reset :=
  (cmdWord_and 0x1#4 _).trans (by decide : (0x1#4 ++ 0#60 : CmdWord) = 0x1000000000000000#64)
theorem config (mode : InputMode) (fsIn : BitVec 32) : Statement (.config mode fsIn) :=
  (cmdWord_and 0x2#4 _).trans (by decide : (0x2#4 ++ 0#60 : CmdWord) = 0x2000000000000000#64)
theorem sample (x : BitVec 32) : Statement (.sample x) :=
  (cmdWord_and 0x3#4 _).trans (by decide : (0x3#4 ++ 0#60 : CmdWord) = 0x3000000000000000#64)
theorem bit (b : Bool) : Statement (.bit b) :=
  (cmdWord_and 0x4#4 _).trans (by decide : (0x4#4 ++ 0#60 : CmdWord) = 0x4000000000000000#64)
theorem eos : Statement .eos :=
  (cmdWord_and 0x5#4 _).trans (by decide : (0x5#4 ++ 0#60 : CmdWord) = 0x5000000000000000#64)
theorem reserved67 (low : BitVec 1) : Statement (.reserved67 low) := by
  show cmdWord (0b011#3 ++ low) 0#60 &&& 0xE000000000000000#64 = 0x6000000000000000#64
  revert low
  decide
theorem reserved8F (low : BitVec 3) : Statement (.reserved8F low) := by
  show cmdWord (1#1 ++ low) 0#60 &&& 0x8000000000000000#64 = 0x8000000000000000#64
  revert low
  decide
theorem bic1 : Statement .bic1 := rfl
theorem bic2 : Statement .bic2 := rfl
theorem bic3 : Statement .bic3 := rfl
theorem bic4 : Statement .bic4 := rfl

theorem sech (b : SechBlock) : Statement (.sech b) := by
  show msb (encodeSech b) 0 8 &&& 0xF0#8 = 0x80#8
  rw [header_and, infoSilc_encodeSech]
  rfl

theorem lmch (b : LongBlock) : Statement (.lmch b) := by
  show msb (encodeLong b) 0 8 &&& 0xF0#8 = 0xA0#8
  rw [header_and, infoSilc_encodeLong]
  rfl

theorem bmch (payload : BitVec 168) : Statement (.bmch payload) := by
  show msb (Config.silcBmch ++ 0#4 ++ payload) 0 8 &&& 0xFF#8 = 0xB0#8
  rw [header_eq, infoSilc_bmch, infoSub_bmch]
  rfl

theorem bmchOtherSub (sub : BitVec 4) (payload : BitVec 168) : Statement (.bmchOtherSub sub payload) := by
  show msb (Config.silcBmch ++ sub ++ payload) 0 8 &&& 0xF0#8 = 0xB0#8
  rw [header_and, infoSilc_bmch]
  rfl

theorem silc07 (silc : BitVec 3) (rest : BitVec 172) : Statement (.silc07 silc rest) := by
  show msb (0#1 ++ silc ++ rest) 0 8 &&& 0x80#8 = 0x00#8
  have h : (0x80#8 : BitVec 8) = 0xF0#8 &&& 0x80#8 := by decide
  rw [h, ← BitVec.and_assoc, header_and, infoSilc_append (0#1 ++ silc) rest]
  revert silc
  decide

theorem silc9 (rest : BitVec 172) : Statement (.silc9 rest) := by
  show msb (0x9#4 ++ rest) 0 8 &&& 0xF0#8 = 0x90#8
  rw [header_and, infoSilc_append]
  rfl

theorem silcCF (silc : BitVec 2) (rest : BitVec 172) : Statement (.silcCF silc rest) := by
  show msb (0b11#2 ++ silc ++ rest) 0 8 &&& 0xC0#8 = 0xC0#8
  have h : (0xC0#8 : BitVec 8) = 0xF0#8 &&& 0xC0#8 := by decide
  rw [h, ← BitVec.and_assoc, header_and, infoSilc_append (0b11#2 ++ silc) rest]
  revert silc
  decide

/-- Byte 0 of a long message carries the `CA` bit and the type code (R96). -/
theorem l4Byte0_and (first last ext ca : Bool) (type : BitVec 4) :
    l4Byte0 first last ext ca type &&& 0x1F#8 = 0#3 ++ BitVec.ofBool ca ++ type ∧
      l4Byte0 first last ext ca type &&& 0x10#8 = 0#3 ++ BitVec.ofBool ca ++ 0#4 := by
  revert first last ext ca type
  decide

theorem l4Ca (first last ext : Bool) (type : BitVec 4) (rest : List Byte) :
    Statement (.l4Ca first last ext type rest) := by
  show some (l4Byte0 first last ext true type &&& 0x10#8) = some 0x10#8
  rw [(l4Byte0_and first last ext true type).2]
  rfl

theorem l4Tlv (m : L4Message) : Statement (.l4Tlv m) := by
  show some (l4Byte0 m.first m.last m.ext.isSome false 12#4 &&& 0x1F#8) = some 0x0C#8
  rw [(l4Byte0_and m.first m.last m.ext.isSome false 12#4).1]
  rfl

theorem l4Payload (type : BitVec 4) (m : L4Message) : Statement (.l4Payload type m) := by
  show some (l4Byte0 m.first m.last m.ext.isSome false type &&& 0x10#8) = some 0x00#8
  rw [(l4Byte0_and m.first m.last m.ext.isSome false type).2]
  rfl

end Sys2Proof.Laws.TableMatch
end

