-- ==== Sys2Proof/Tests/Slice0.lean ====
section
/-! SUPPORT. The model's own tests. Expected results come from spec/95_test_vectors.md (V-…, PROG-…), from the examples
of the rules (R…), or from hand calculation on the tables of spec/30_encoding.md; then one witness for the hypotheses
of each statement of Sys2Proof/Certificates/Slice0/Obligations.lean. -/

namespace Sys2Proof.Tests

set_option Elab.async false

open Sys2Proof.Machine Sys2Proof.Statements

/-! ## Helpers -/

/-- What `f` reads in the next state; none where there is none. -/
def observe {α : Type} (o : Host.Outcome State Fault Refusal) (f : State → α) : Option α :=
  match o with
  | .next t => some (f t)
  | .fault _ => none
  | .refused _ => none

theorem next_of_observe {α : Type} {o : Host.Outcome State Fault Refusal} {f : State → α} {v : α}
    (h : observe o f = some v) : ∃ t, o = .next t ∧ f t = v := by
  cases o with
  | next t =>
    simp only [observe, Option.some.injEq] at h
    exact ⟨t, rfl, h⟩
  | fault r => cases h
  | refused r => cases h

/-- After `CONFIG fs=0, mode=BITS`. -/
def bitsState : State := { State.reset with cfg := { fsIn := 0#32, mode := .bits } }

/-- Filling a block of BIC1 with `cnt` bits collected, the frame buffer holding `f`. -/
def filling (cnt : BitVec 9) (f : Frame) : State :=
  { bitsState with sync := { state := .filling, sr := 0#16, bic := 0x135E#16, cnt, frame := f } }

/-- The bit that brings the last frame bit of `f`. -/
def lastBit (f : Frame) : Bool := bitAt f 271 ^^ scrAt 271

/-- SAMPLES mode, before the sample that makes the timing oscillator cross zero (V-DM-2, m = 3), the accumulator 1. -/
def crossing : State :=
  { State.reset with demod := { State.reset.demod with
      decCnt := 1#1, agcGain := Scalar.one
      ncoT := { phase := 0x30000000#32, freq := 0x10000000#32 }, sliceAcc := Scalar.one } }

/-- The information field of V-E2E-1. -/
def infoE2E : Info := 0x89AA6004544553547530322E04000000000000000000#176

/-- The frame of V-BU-6. -/
def frameE2E : Frame := 0x89AA6004544553547530322E04000000000000000000745F02F759B478D9109CCDA4#272

/-- A service block of the V-SE header with 19 bytes of one value. -/
def seBlock (lf : Bool) (bn : BitVec 4) (v : Byte) : SechBlock :=
  { lf, du := 0#2, cid := 0xD#4, dt := 1#4, nid := 3#4, bn
    pay := v ++ v ++ v ++ v ++ v ++ v ++ v ++ v ++ v ++ v ++ v ++ v ++ v ++ v ++ v ++ v ++ v ++ v ++ v }

/-- A live service accumulation of the V-SE header. -/
def seLive (bn : BitVec 4) (len : BitVec 9) : State :=
  { bitsState with sech :=
      { valid := true, du := 0#2, cid := 0xD#4, dt := 1#4, nid := 3#4, bn
        buf := List.replicate len.toNat 0x11#8, len } }

/-- A live long accumulation. -/
def lmLive (seq : BitVec 4) (last : Bool) (len : BitVec 13) : State :=
  { bitsState with long := { valid := true, seq, last, buf := List.replicate len.toNat 0x00#8, len } }

/-- A long block with a zero payload. -/
def lmBlock (lf : Bool) (seq : BitVec 4) (c6 : BitVec 6) : LongBlock :=
  { lf, seq, mhRsv := 0#7, c6, pay := 0#152 }

/-- The message of V-LM-9. -/
def extMessage : L4Message :=
  { first := true, last := true, ext := some 0x5A#8, crc := 0xFD#8, data := [0x01#8, 0x02#8] }

/-! ## Well-formedness smoke test: each check refuses an ill-formed term -/

theorem test_bmch_other_sub_zero_is_ill_formed : (Instr.bmchOtherSub 0#4 0#168).wellFormed = false := by decide
theorem test_l4_payload_type_12_is_ill_formed (m : L4Message) : (Instr.l4Payload 12#4 m).wellFormed = false := rfl

/-! ## Decoding: words written out from spec/30_encoding.md -/

-- CMD64: V-CMD-1
theorem test_decode_nop : decodeTableWord 64 0x0000000000000000 = some .nop := by decide
theorem test_decode_reset : decodeTableWord 64 0x1000000000000000 = some .reset := by decide
theorem test_decode_config : decodeTableWord 64 0x200000010003E800 = some (.config .bits 256000#32) := by decide
theorem test_decode_config_reserved_bits :
    decodeTableWord 64 0x2FFFFFFE0003E800 = some (.config .samples 256000#32) := by decide
theorem test_decode_sample : decodeTableWord 64 0x30000000BF800000 = some (.sample 0xBF800000#32) := by decide
theorem test_decode_bit_1 : decodeTableWord 64 0x4000000000000001 = some (.bit true) := by decide
theorem test_decode_bit_reserved_bits : decodeTableWord 64 0x4FFFFFFFFFFFFFFE = some (.bit false) := by decide
theorem test_decode_eos : decodeTableWord 64 0x5000000000000000 = some .eos := by decide
theorem test_decode_reserved_6 : decodeTableWord 64 0x6000000000000000 = some (.reserved67 0#1) := by decide
theorem test_decode_reserved_7 : decodeTableWord 64 0x7000000000000000 = some (.reserved67 1#1) := by decide
theorem test_decode_reserved_8 : decodeTableWord 64 0x8000000000000000 = some (.reserved8F 0#3) := by decide
theorem test_decode_reserved_f : decodeTableWord 64 0xF000000000000000 = some (.reserved8F 7#3) := by decide
-- BIC16: R84, first received bit on the left
theorem test_decode_bic1 : decodeTableWord 16 0b0001001101011110 = some .bic1 := by decide
theorem test_decode_bic2 : decodeTableWord 16 0b0111010010100110 = some .bic2 := by decide
theorem test_decode_bic3 : decodeTableWord 16 0b1010011110010001 = some .bic3 := by decide
theorem test_decode_bic4 : decodeTableWord 16 0b1100100001110101 = some .bic4 := by decide
theorem test_decode_not_a_bic : decodeTableWord 16 0x135F = none := by decide
-- INFO8 headers: R86
theorem test_decode_sech_header : (decodeTableWord 8 0b10001000).map (·.wellFormed) = some true ∧
    decodeInfo (infoOfHeader 0b10001000) = .sech ⟨true, 0#2, 0#4, 0#4, 0#4, 0#4, 0#152⟩ := by decide +kernel
theorem test_decode_lmch_header :
    decodeTableWord 8 0b10100000 = some (.lmch ⟨false, 0#4, 0#7, 0#6, 0#152⟩) := by decide +kernel
theorem test_decode_bmch_header : decodeTableWord 8 0b10110000 = some (.bmch 0#168) := by decide +kernel
theorem test_decode_bmch_other_sub : decodeTableWord 8 0b10110001 = some (.bmchOtherSub 1#4 0#168) := by decide +kernel
theorem test_decode_silc_0_7 : decodeTableWord 8 0b01110000 = some (.silc07 7#3 0#172) := by decide +kernel
theorem test_decode_silc_9 : decodeTableWord 8 0b10010000 = some (.silc9 0#172) := by decide +kernel
theorem test_decode_silc_c_f : decodeTableWord 8 0b11100000 = some (.silcCF 2#2 0#172) := by decide +kernel
-- whole information fields: V-E2E-1, V-LM-1, V-BM-1
theorem test_decode_sech_fields : decode (.info infoE2E) =
    .instr (.sech ⟨true, 0#2, 0xD#4, 5#4, 3#4, 0#4, 0x04544553547530322E04000000000000000000#152⟩) := by decide +kernel
theorem test_decode_lmch_fields : decode (.info 0xA180ECCC6A01034142430202BEEF0000000000000000#176) =
    .instr (.lmch ⟨false, 3#4, 0#7, 0x3B#6, 0xCC6A01034142430202BEEF0000000000000000#152⟩) := by decide +kernel
theorem test_decode_bmch_fields : decode (.info 0xB0101112131415161718191A1B1C1D1E1F2021222324#176) =
    .instr (.bmch 0x101112131415161718191A1B1C1D1E1F2021222324#168) := by decide +kernel
-- L4B0: R96; V-LM-7, V-LM-10, V-LM-9
theorem test_decode_l4_ca : decode (.l4 [0xDC#8, 0x00#8]) = .instr (.l4Ca true true false 12#4 [0x00#8]) := by decide
theorem test_decode_l4_tlv : decode (.l4 [0x0C#8, 0x24#8, 0x07#8]) =
    .instr (.l4Tlv ⟨false, false, none, 0x24#8, [0x07#8]⟩) := by decide
theorem test_decode_l4_payload : decode (.l4 [0xE3#8, 0x5A#8, 0xFD#8, 0x01#8, 0x02#8]) =
    .instr (.l4Payload 3#4 extMessage) := by decide
theorem test_decode_l4_truncated : decode (.l4 [0x2C#8, 0x5A#8]) = .reject .l4Truncated := by decide

/-! ## Utilities and tables: V-BU -/

theorem test_msb_lsb : msb 0b1011#4 0 4 = 0xB#4 ∧ lsb 0b1011#4 0 4 = 0xD#4 := by decide
theorem test_hex : hexDigits [0x10#8, 0xAB#8] = ['1', '0', 'a', 'b'] := by decide
theorem test_crc6_vector : crc6 (seqOf 0xA280#16) = 0x07#6 ∧ crc6 (seqOf 0xAA80#16) = 0x21#6 := by decide +kernel
theorem test_crc8_vector : crc8 (bitsOf [0xEC#8, 0x01#8]) = 0xB8#8 := by decide +kernel
theorem test_crc14_and_parity : encodeFrame infoE2E = frameE2E := by decide +kernel
theorem test_syndrome_entries :
    romSyn 200 = 0x20F76AB343573527C035F#82 ∧ romSyn 271 = 0x308C0111011401440411#82 := by decide +kernel
theorem test_scrambling_default : seqOf romScr = scrLfsr 304 0x1FF#9 := by decide +kernel

/-! ## Commands: V-CMD, V-DM -/

theorem test_nop_keeps_flags :
    observe (exec .nop { State.reset with status := ⟨false, true, true⟩ }) (·.out.status) = some 0x0A#8 := by decide
theorem test_reset_clears_flags :
    observe (exec .reset { bitsState with status := ⟨true, true, true⟩ }) (·.out.status) = some 0x00#8 := by decide
theorem test_config_bounds :
    [63999#32, 64000#32, 64000000#32, 64000001#32].map
        (fun f => observe (exec (.config .samples f) State.reset) (·.out.status)) =
      [some 0x01#8, some 0x00#8, some 0x00#8, some 0x01#8] := by decide +kernel
theorem test_config_bits_mode :
    observe (exec (.config .bits 0#32) { State.reset with status := ⟨false, true, true⟩ }) (·.out.status) =
      some 0x10#8 := by decide
theorem test_sample_after_eos :
    observe (exec (.sample 0#32) { State.reset with status := ⟨false, true, false⟩ }) (·.out.status) = some 0x0A#8 := by
  decide
theorem test_sample_at_crossing : observe (exec (.sample 0#32) crossing)
    (fun t => (t.out.bit, t.sync.sr, t.demod.decCnt, t.demod.ncoC.phase, t.demod.ncoT.phase)) =
      some (some true, 0x0001#16, 0#1, 0x4C000000#32, 0x40000000#32) := by decide +kernel
theorem test_bit_completes_bic1 :
    observe (exec (.bit false) { bitsState with sync := { bitsState.sync with sr := 0x09AF#16 } })
      (fun t => (t.sync.state, t.sync.bic, t.sync.cnt, t.out.status)) =
        some (.filling, 0x135E#16, 0#9, 0x14#8) := by decide
theorem test_bit_refused_in_samples_mode :
    observe (exec (.bit true) State.reset) (fun t => (t.sync.sr, t.out.status)) = some (0#16, 0x08#8) := by decide
theorem test_eos : observe (exec .eos State.reset) (·.out.status) = some 0x02#8 := by decide
theorem test_reserved_6 : observe (exec (.reserved67 0#1) bitsState) (·.out.status) = some 0x18#8 := by decide
theorem test_reserved_f : observe (exec (.reserved8F 7#3) State.reset) (·.out.status) = some 0x08#8 := by decide

/-! ## Synchroniser: V-L2 -/

theorem test_bic1_row : observe (exec .bic1 bitsState) (fun t => (t.sync.bic, t.out.status)) =
    some (0x135E#16, 0x14#8) := by decide
theorem test_bic2_row : observe (exec .bic2 bitsState) (fun t => (t.sync.bic, t.out.status)) =
    some (0x74A6#16, 0x14#8) := by decide
theorem test_bic3_row : observe (exec .bic3 bitsState) (fun t => (t.sync.bic, t.out.status)) =
    some (0xA791#16, 0x14#8) := by decide
theorem test_bic4_row : observe (exec .bic4 bitsState) (fun t => (t.sync.bic, t.out.status)) =
    some (0xC875#16, 0x14#8) := by decide
theorem test_bic_row_while_filling : observe (exec .bic2 (filling 7#9 0#272)) (fun t => (t.sync.bic, t.sync.cnt)) =
    some (0x135E#16, 7#9) := by decide
theorem test_frame_completes : observe (exec (.bit (lastBit frameE2E)) (filling 271#9 frameE2E))
    (fun t => (t.out.l2, t.sync.state, t.sync.cnt)) =
      some (some ⟨0x135E#16, frameE2E, false, 0#9⟩, .unsynchronized, 0#9) := by decide +kernel
theorem test_frame_corrected : observe
    (exec (.bit (lastBit frameE2E)) (filling 271#9 (frameE2E ^^^ unitFrame 20))) (fun t => t.out.l2) =
      some (some ⟨0x135E#16, frameE2E, true, 20#9⟩) := by decide +kernel

/-! ## Reassembler: V-SE, V-D5, V-LM, V-BM -/

theorem test_sech_name_and_time : observe
    (exec (.sech ⟨true, 0#2, 0xD#4, 5#4, 3#4, 0#4, 0x04544553547530322E04000000000000000000#152⟩) bitsState)
    (fun t => (t.out.record, t.sech.valid)) =
      some (some (.sech ⟨0#2, 13#4, 5#4, 3#4, bytesOf 0x04544553547530322E04000000000000000000#152,
        some [0x54#8, 0x45#8, 0x53#8, 0x54#8], some ⟨2023, 2, 25, 12, 34, 56, 4⟩⟩), false) := by decide +kernel
theorem test_sech_last_continuation : observe (exec (.sech (seBlock true 1#4 0x22#8)) (seLive 0#4 19#9))
    (fun t => (t.out.record, t.sech.valid, t.sech.len)) =
      some (some (.sech ⟨0#2, 0xD#4, 1#4, 3#4, List.replicate 19 0x11#8 ++ List.replicate 19 0x22#8, none, none⟩),
        false, 0#9) := by decide +kernel
theorem test_dt5_edges : dt5Time (bytesOf 0x02414264AC5FBEFC#64) = some ⟨2000, 1, 1, 23, 59, 59, -28⟩ ∧
    dt5Time (bytesOf 0x02414264AC5FBEDD#64) = none := by decide +kernel
/-- V-D5-7. -/
theorem test_mjd_to_date :
    [(0 : Int), 15017, 15018, 60000, 88069, 131071].map mjdToDate =
      [(1859, -1, 19), (1900, 0, 31), (1900, 1, 1), (2023, 2, 25), (2100, 1, 1), (2217, 9, 25)] := by decide
theorem test_lmch_one_block : observe
    (exec (.lmch ⟨true, 7#4, 0#7, 0x35#6, 0xCC6A01034142430202BEEF0000000000000000#152⟩) bitsState)
    (fun t => (t.out.record, t.long.last)) =
      some (some (.long ⟨true, true, false, 12#4, none, .tlv ([⟨1#8, 3#8, [0x41#8, 0x42#8, 0x43#8]⟩,
        ⟨2#8, 2#8, [0xBE#8, 0xEF#8]⟩] ++ List.replicate 4 ⟨0#8, 0#8, []⟩)⟩), true) := by decide +kernel
theorem test_lmch_bad_crc : observe (exec (.lmch (lmBlock false 4#4 0x0C#6)) (lmLive 3#4 false 19#13))
    (fun t => (t.long, t.out.record)) = some (⟨false, 3#4, false, [], 0#13⟩, none) := by decide +kernel
theorem test_bmch : observe (exec (.bmch 0x101112131415161718191A1B1C1D1E1F2021222324#168) bitsState)
    (fun t => t.out.record) = some (some (.bmch ⟨0#4, (List.range 21).map fun k => BitVec.ofNat 8 (16 + k)⟩)) := by
  decide +kernel
theorem test_bmch_other_sub : observe (exec (.bmchOtherSub 1#4 0#168) (seLive 0#4 19#9))
    (fun t => (t.out.record, t.sech.valid, t.long.valid)) = some (none, true, false) := by decide
theorem test_silc_0 : observe (exec (.silc07 0#3 0#172) (seLive 0#4 19#9)) (fun t => (t.sech.valid, t.sech.bn)) =
    some (true, 0#4) := by decide
theorem test_silc_9 : observe (exec (.silc9 0#172) (lmLive 3#4 false 19#13)) (fun t => (t.long.valid, t.long.seq)) =
    some (true, 3#4) := by decide
theorem test_silc_c : observe (exec (.silcCF 0#2 0#172) (lmLive 3#4 false 19#13)) (fun t => (t.long.valid, t.long.seq)) =
    some (true, 3#4) := by decide
theorem test_l4_ca : observe (exec (.l4Ca true true false 12#4 [0x6A#8]) bitsState) (·.out.record) = some none := by
  decide
theorem test_l4_tlv_truncated :
    observe (exec (.l4Tlv ⟨false, false, none, 0x24#8, [0x07#8, 0x01#8, 0xAA#8, 0x09#8, 0xC8#8, 0x00#8]⟩) bitsState)
      (·.out.record) = some (some (.long ⟨false, false, false, 12#4, none, .tlv [⟨7#8, 1#8, [0xAA#8]⟩]⟩)) := by
  decide +kernel
theorem test_l4_tlv_bad_crc :
    observe (exec (.l4Tlv ⟨true, true, none, 0x6B#8, []⟩) bitsState) (·.out.record) = some none := by decide +kernel
theorem test_l4_payload_ext : observe (exec (.l4Payload 3#4 extMessage) bitsState) (·.out.record) =
    some (some (.long ⟨true, true, true, 3#4, some 0x5A#8, .payload [0x01#8, 0x02#8]⟩)) := by decide +kernel

/-! ## Fetching a table word -/

theorem test_fetch_command :
    observe (step (State.reset.withFetchWord 64 0xF000000000000000)) (·.out.status) = some 0x08#8 := by decide
theorem test_fetch_bic :
    observe (step (State.reset.withFetchWord 16 0xC875)) (fun t => (t.sync.bic, t.out.status)) =
      some (0xC875#16, 0x14#8) := by decide +kernel
theorem test_fetch_info : observe (step (State.reset.withFetchWord 8 0xB0)) (fun t => t.out.record) =
    some (some (.bmch ⟨0#4, List.replicate 21 0x00#8⟩)) := by decide +kernel

/-! ## Assembler: V-CMD-1, R101 -/

theorem test_assemble_config :
    assembleText "CONFIG fs=256000, mode=BITS ; comment".toList = some [0x200000010003E800#64] := by decide +kernel
theorem test_assemble_sample : assembleText "SAMPLE -1.0".toList = some [0x30000000BF800000#64] ∧
    assembleText "SAMPLE 0.1".toList = some [0x300000003DCCCCCD#64] := by decide +kernel

/-! ## Witnesses: the hypotheses of each statement are met -/

theorem witness_DecodeOfEncode : (Instr.bmchOtherSub 1#4 0#168).wellFormed = true ∧
    (Instr.l4Payload 13#4 extMessage).wellFormed = true ∧ (Instr.l4Payload 11#4 extMessage).wellFormed = true := by decide

theorem witness_OpcodeMap :
    ([0x0000000000000000#64, 0x1000000000000000#64, 0x2000000000000000#64, 0x3000000000000000#64, 0x4000000000000000#64,
      0x5FFFFFFFFFFFFFFF#64, 0x6000000000000000#64, 0x7FFFFFFFFFFFFFFF#64, 0x8000000000000000#64,
      0xFFFFFFFFFFFFFFFF#64] : List CmdWord).map (fun w : CmdWord => (w >>> 60).toNat) = [0, 1, 2, 3, 4, 5, 6, 7, 8, 15] := by decide

theorem witness_ReservedCommandBits :
    cmdOp 0x4FFFFFFFFFFFFFFE#64 = cmdOp 0x4000000000000000#64 ∧
    0x4FFFFFFFFFFFFFFE#64 &&& namedBits (cmdOp 0x4FFFFFFFFFFFFFFE#64) =
      0x4000000000000000#64 &&& namedBits (cmdOp 0x4FFFFFFFFFFFFFFE#64) := by decide

theorem witness_OnlyTheFour :
    isBic 0x135E#16 = true ∧ isBic 0xC875#16 = true ∧ 0x135E#16 ≠ 0xC875#16 ∧ isBic 0x135F#16 = false := by decide

theorem witness_LongMessages : 19 ≤ (List.replicate 19 0x00#8).length := by decide

theorem witness_Step : (State.reset.withFetchWord 64 0).port = 0#64 :: [] ∧ State.reset.port = [] := ⟨rfl, rfl⟩

theorem witness_InputGating : TakesSamples State.reset ∧ TakesBits bitsState ∧
    ¬ TakesSamples bitsState ∧ ¬ TakesBits State.reset ∧
      ¬ TakesSamples { State.reset with status := ⟨true, false, false⟩ } ∧
      ¬ TakesBits { bitsState with status := ⟨false, true, false⟩ } := by decide

/-- One step that drives a bit. -/
theorem witness_Outputs_bit : ∃ t, step { crossing with port := [0x3000000000000000#64] } = .next t ∧
    t.out.bit.isSome = true :=
  next_of_observe (f := fun t => t.out.bit.isSome) (by decide +kernel)

/-- One step that drives a block and a record. -/
theorem witness_Outputs_block : ∃ t, step (State.reset.withFetchWord 8 0xB0) = .next t ∧
    (t.out.l2.isSome, t.out.record.isSome) = (true, true) :=
  next_of_observe (f := fun t => (t.out.l2.isSome, t.out.record.isSome)) (by decide +kernel)

theorem witness_OnlyARefusedConfig : ∃ t, step { State.reset with port := [0x200000000000BB80#64] } = .next t ∧
    t.status.cfgErr = true :=
  next_of_observe (f := fun t => t.status.cfgErr) (by decide +kernel)

theorem witness_OnlyResetAndConfigClear :
    decodeCmd 0#64 ≠ .reset ∧ (∀ m f, decodeCmd 0#64 ≠ .config m f) ∧
      ∃ t, step { State.reset with status := ⟨false, true, true⟩, port := [0#64] } = .next t ∧
        (t.status.eos, t.status.cmdIgn) = (true, true) := by
  have h : decodeCmd 0#64 = .nop := by decide
  exact ⟨by simp [h], by simp [h], next_of_observe (f := fun t => (t.status.eos, t.status.cmdIgn)) (by decide)⟩

theorem witness_PlacedTableWords : decodeTableWord 16 0x135E = some .bic1 := by decide

theorem witness_Crc : 0 < 1 ∧ 0 < 82 ∧ [true, false].length = [false, true].length := by decide

theorem witness_SyndromeTable : 0 < 272 ∧ 271 < 272 := by decide

theorem witness_TwoFlips : syn frameE2E = 0#82 ∧ 0 < 271 ∧ 271 < 272 := by decide +kernel

theorem witness_ThreeFlips : syn frameE2E = 0#82 ∧ 0 < 1 ∧ 1 < 271 ∧ 271 < 272 := by decide +kernel

theorem witness_Scrambling : 0 < 9 ∧ 8 < 9 ∧ 9 ≤ 9 ∧ 9 ≤ 303 ∧ 303 < 304 ∧ 271 < 272 := by decide

/-- Tap indices, a positive gain, positive reals with a finite product, a number in each half plane, an accumulator. -/
theorem witness_DatapathArithmetic :
    0 < 256 ∧ 255 < 256 ∧ (agcG0.finite = true ∧ numPos agcG0 = true) ∧
      (Scalar.pi.finite = true ∧ 0 < Scalar.pi.code ∧ (numMul Scalar.one Scalar.pi).finite = true) ∧
      FiniteParts ⟨Scalar.negOne, Scalar.one⟩ ∧ FiniteParts ⟨Scalar.negOne, numNeg Scalar.halfPi⟩ ∧
      (crossing.demod.sliceAcc.finite = true ∧ 0 < crossing.demod.sliceAcc.code) :=
  ⟨by decide, by decide, agcG0_positive, ⟨by decide, by decide, by decide⟩, by decide, by decide, by decide⟩

/-- Patterns of both signs with the least and the greatest exponent field of a number. -/
theorem witness_DatapathArithmetic_sample :
    [0x00000001#32, 0x80000001#32, 0x7F7FFFFF#32, 0xFF7FFFFF#32].map
        (fun x : BitVec 32 => (decide (x.extractLsb' 23 8 ≠ 0xFF#8), x.getLsbD 31)) =
      [(true, false), (true, true), (true, false), (true, true)] := by decide

/-- A demodulator for each previous sample of the listed angles. -/
theorem witness_DatapathArithmetic_angles :
    ([⟨Scalar.one, Scalar.zero⟩, ⟨Scalar.zero, Scalar.one⟩] : List Cplx).map
        (fun prev => ({ State.reset.demod with discPrev := prev } : Demod).discPrev) =
      [⟨Scalar.one, Scalar.zero⟩, ⟨Scalar.zero, Scalar.one⟩] := rfl

/-- A line with its one sample last. -/
theorem witness_DatapathArithmetic_line :
    ({ State.reset.demod with fir := (List.replicate 256 Cplx.zero).set 255 ⟨Scalar.one, Scalar.zero⟩ } : Demod).fir =
      (List.replicate 256 Cplx.zero).set 255 ⟨Scalar.one, Scalar.zero⟩ := rfl

theorem witness_DroppedSample : TakesSamples State.reset ∧ State.reset.demod.decCnt = 0#1 := by decide

theorem witness_KeptSampleWithoutCrossing :
    TakesSamples { crossing with demod := { crossing.demod with ncoT := ⟨0x40000000#32, 0x10000000#32⟩ } } ∧
      crossing.demod.decCnt = 1#1 ∧ ¬ Crosses ⟨0x40000000#32, 0x10000000#32⟩ := by decide

theorem witness_KeptSampleAtACrossing :
    TakesSamples crossing ∧ crossing.demod.decCnt = 1#1 ∧ Crosses crossing.demod.ncoT := by decide

/-- The first sample from reset drives no bit. -/
theorem witness_BitsCome_first : ∃ t, Host.Core.run Sys2Proof.core 1
    { State.reset with port := ([] ++ [0#32]).flatMap (fun x => commandWord (.sample x)) ++ [] } = .next t ∧
      t.out.bit.isSome = false :=
  next_of_observe (f := fun t => t.out.bit.isSome) (by decide +kernel)

/-- The eighth one does. -/
theorem witness_BitsCome_eighth : ∃ t, Host.Core.run Sys2Proof.core 8
    { State.reset with port :=
        (List.replicate 7 0#32 ++ [0#32]).flatMap (fun x => commandWord (.sample x)) ++ [] } = .next t ∧
      t.out.bit.isSome = true :=
  next_of_observe (f := fun t => t.out.bit.isSome) (by decide +kernel)

theorem witness_ZeroSamples : Silent State.reset.demod := ⟨rfl, rfl, rfl, agcG0_positive.1⟩

theorem witness_BitWithoutABic : TakesBits bitsState ∧ bitsState.sync.state = .unsynchronized ∧
    isBic (srAfter true bitsState.sync) = false := by decide

theorem witness_BitThatCompletesABic :
    let s : State := { bitsState with sync := { bitsState.sync with sr := 0x09AF#16 } }
    TakesBits s ∧ s.sync.state = .unsynchronized ∧ decodeBic (srAfter false s.sync) = some .bic1 := by decide

theorem witness_BicRows :
    ((Instr.bic4, 0xC875#16) : Instr × BicWord) ∈ [(.bic1, 0x135E#16), (.bic2, 0x74A6#16), (.bic3, 0xA791#16),
      (.bic4, 0xC875#16)] := by decide

theorem witness_FillingBit :
    TakesBits (filling 0#9 0#272) ∧ (filling 0#9 0#272).sync.state = .filling ∧
      (filling 0#9 0#272).sync.cnt.toNat < 271 ∧ (filling 270#9 0#272).sync.cnt.toNat < 271 := by decide

theorem witness_ErrorFreeFrame : TakesBits (filling 271#9 frameE2E) ∧
    Completes (filling 271#9 frameE2E) (lastBit frameE2E) frameE2E ∧ syn frameE2E = 0#82 := by decide +kernel

/-- A flip at the first and at the last position, which the last bit brings. -/
theorem witness_SingleFlippedBit :
    Completes (filling 271#9 (frameE2E ^^^ unitFrame 0)) (lastBit frameE2E) (frameE2E ^^^ unitFrame 0) ∧
    Completes (filling 271#9 frameE2E) (!lastBit frameE2E) (frameE2E ^^^ unitFrame 271) ∧
      TakesBits (filling 271#9 frameE2E) ∧ syn frameE2E = 0#82 ∧ 0 < 272 ∧ 271 < 272 := by decide +kernel

/-- The flips 20 and 21 of V-L2-9. -/
theorem witness_UncorrectableFrame :
    let f := frameE2E ^^^ unitFrame 20 ^^^ unitFrame 21
    TakesBits (filling 271#9 f) ∧ Completes (filling 271#9 f) (lastBit f) f ∧ syn f ≠ 0#82 ∧
      ∀ i < 272, syn f ≠ romSyn i :=
  ⟨by decide, by decide +kernel, by decide +kernel, fun i hi h =>
    absurd (h ▸ romSyn_mem_zeroRun hi) (show syn (frameE2E ^^^ unitFrame 20 ^^^ unitFrame 21) ∉
      zeroRun 272 (crcBit Config.g82 0#82 true) by decide +kernel)⟩

theorem witness_ScrambledFrame :
    let s : State := { filling 0#9 0#272 with port := bitWords (seqOf (scramble frameE2E)) ++ [] }
    TakesBits s ∧ s.sync.state = .filling ∧ s.sync.cnt = 0#9 ∧
      s.port = bitWords (seqOf (scramble frameE2E)) ++ [] ∧ syn frameE2E = 0#82 :=
  ⟨⟨rfl, rfl, rfl⟩, rfl, rfl, rfl, by decide +kernel⟩

/-- A field for each line of the routing map, at the ends of its range. -/
theorem witness_Routing :
    [(0x00 : Nat), 0x70, 0x80, 0x90, 0xA0, 0xB0, 0xB1, 0xBF, 0xC0, 0xF0].map
        (fun w => (infoNat (infoOfHeader w) 0 4, infoNat (infoOfHeader w) 4 4)) =
      [(0, 0), (7, 0), (8, 0), (9, 0), (10, 0), (11, 0), (11, 1), (11, 15), (12, 0), (15, 0)] := by decide +kernel

theorem witness_EveryAcceptedBlock : ∃ t, step (State.reset.withFetchWord 8 0x00) = .next t ∧
    t.out.l2 = some ⟨0x135E#16, encodeFrame 0#176, false, 0#9⟩ :=
  next_of_observe (f := fun t => t.out.l2) (by decide +kernel)

theorem witness_ServiceBlockZero : (seBlock false 0#4 0x11#8).bn = 0#4 ∧ (seBlock false 0#4 0x11#8).lf = false ∧
    (seBlock true 0#4 0x11#8).bn = 0#4 ∧ (seBlock true 0#4 0x11#8).lf = true := by decide

/-- The first and the last continuing block; the sixteenth fills the buffer. -/
theorem witness_ServiceContinuation :
    (seBlock true 1#4 0x22#8).bn ≠ 0#4 ∧ SechFollows (seBlock true 1#4 0x22#8) (seLive 0#4 19#9).sech ∧
      (seLive 0#4 19#9).sech.buf.length = (seLive 0#4 19#9).sech.len.toNat ∧
      SechFollows (seBlock false 15#4 0x22#8) (seLive 14#4 285#9).sech ∧
      (seLive 14#4 285#9).sech.buf.length = (seLive 14#4 285#9).sech.len.toNat := by decide +kernel

/-- A skipped number, and no wrap from 15. -/
theorem witness_ServiceBlockOutOfSequence :
    (seBlock true 2#4 0x22#8).bn ≠ 0#4 ∧ ¬ SechFollows (seBlock true 2#4 0x22#8) (seLive 0#4 19#9).sech ∧
      ¬ SechFollows (seBlock false 15#4 0x22#8) (seLive 15#4 304#9).sech := by decide +kernel

theorem witness_ServiceRecord : (seLive 0#4 19#9).sech.buf.length = (seLive 0#4 19#9).sech.len.toNat := by decide

theorem witness_NameAndTime :
    ([] : List Byte).length ≤ 255 ∧ (List.replicate 255 0x41#8).length ≤ 255 := by decide +kernel

/-- A name that just fits, one that does not, and a time that does not (V-D5-5). -/
theorem witness_NameOrTime :
    (18#8).toNat ≤ (List.replicate 18 0x41#8).length ∧ (List.replicate 18 0x41#8).length < (19#8).toNat ∧
      (List.replicate 18 0x41#8).length < (14#8).toNat + 5 := by decide

theorem witness_DateConversion : (15079 : Int) ≤ 15079 ∧ (15079 : Int) ≤ 88127 ∧ (88127 : Int) ≤ 88127 := by decide

theorem witness_LongBlockWithABadCrc : ¬ MiniHeaderPasses (lmBlock false 4#4 0x0C#6) := by decide +kernel

/-- A skip, and any block after a last one. -/
theorem witness_LongBlockOutOfSequence :
    MiniHeaderPasses (lmBlock false 5#4 0x07#6) ∧ (lmBlock false 5#4 0x07#6).lf = false ∧
      ¬ LongFollows (lmBlock false 5#4 0x07#6) (lmLive 3#4 false 19#13).long ∧
      ¬ LongFollows (lmBlock false 5#4 0x07#6) (lmLive 4#4 true 19#13).long := by decide +kernel

/-- The last block that fits and the first that does not (V-LM-11), across the wrap of the counter. -/
theorem witness_LongContinuation :
    MiniHeaderPasses (lmBlock false 0#4 0x25#6) ∧ (lmBlock false 0#4 0x25#6).lf = false ∧
      LongFollows (lmBlock false 0#4 0x25#6) (lmLive 15#4 false 4845#13).long ∧
      (lmLive 15#4 false 4845#13).long.len.toNat + 19 ≤ 4864 ∧
      LongFollows (lmBlock false 0#4 0x25#6) (lmLive 15#4 false 4864#13).long ∧
      4864 < (lmLive 15#4 false 4864#13).long.len.toNat + 19 := by decide +kernel

theorem witness_LongContinuation_buffer (seq : BitVec 4) (last : Bool) (len : BitVec 13) :
    (lmLive seq last len).long.buf.length = (lmLive seq last len).long.len.toNat := by
  simp [lmLive]

/-- A one-block message and the second block of a message, both with the all-zero header of V-LM-5. -/
theorem witness_LastLongFragment :
    MiniHeaderPasses (lmBlock true 5#4 0x21#6) ∧ (lmBlock true 5#4 0x21#6).lf = true ∧
      ¬ LongFollows (lmBlock true 5#4 0x21#6) bitsState.long ∧
      LongFollows (lmBlock true 5#4 0x21#6) (lmLive 4#4 false 19#13).long ∧
      (lmLive 4#4 false 19#13).long.len.toNat + 19 ≤ 4864 ∧
      decode (.l4 (bytesOf (lmBlock true 5#4 0x21#6).pay)) =
        .instr (.l4Payload 0#4 ⟨false, false, none, 0#8, List.replicate 17 0#8⟩) ∧
      decode (.l4 ((lmLive 4#4 false 19#13).long.buf ++ bytesOf (lmBlock true 5#4 0x21#6).pay)) =
        .instr (.l4Payload 0#4 ⟨false, false, none, 0#8, List.replicate 36 0#8⟩) := by decide +kernel

theorem witness_TlvParsing :
    (∀ r ∈ [(⟨7#8, 1#8, [0xAA#8]⟩ : Tlv)], r.value.length = r.length.toNat) ∧ TlvTail [0x00#8] ∧
      TlvTail [0x09#8, 0xC8#8, 0x00#8] :=
  ⟨by decide, .inl (by decide), .inr ⟨0x09#8, 0xC8#8, [0x00#8], rfl, by decide⟩⟩

/-- A BIT that brings a service block changes the service accumulator; one that brings a long block, the long one. -/
theorem witness_Channels :
    (∃ t, step (State.reset.withFetchWord 8 0x80) = .next t ∧ (t.sech.valid, t.long.valid) = (true, false)) ∧
      ∃ t, step ({ lmLive 3#4 false 19#13 with port := [] }.withFetchWord 8 0xA0) = .next t ∧
        (t.sech.valid, t.long.valid) = (false, false) :=
  ⟨next_of_observe (f := fun t => (t.sech.valid, t.long.valid)) (by decide +kernel),
   next_of_observe (f := fun t => (t.sech.valid, t.long.valid)) (by decide +kernel)⟩

/-- A sound state with a command to run, and its step. -/
theorem witness_EveryStepKeepsSound :
    { filling 3#9 0#272 with out := { bitsState.out with status := 0x14#8 }, port := [0x4000000000000001#64] }.Sound ∧
      ∃ t, step { filling 3#9 0#272 with
        out := { bitsState.out with status := 0x14#8 }, port := [0x4000000000000001#64] } = .next t ∧ t.sync.cnt = 4#9 := by
  refine ⟨⟨⟨?_, by decide, by decide, agcG0_positive⟩, by decide, ⟨rfl, rfl⟩, ⟨rfl, by decide, rfl, by decide⟩, by decide,
    by decide, by simp [bitsState]⟩, next_of_observe (f := fun t => t.sync.cnt) (by decide +kernel)⟩
  exact List.length_replicate

/-- Two states that differ in a stale bit, and their steps. -/
theorem witness_StaleFrameBits :
    let s : State := { filling 3#9 0#272 with port := [0x4000000000000001#64] }
    let t : State := { filling 3#9 (unitFrame 5) with port := [0x4000000000000001#64] }
    s.sync.cnt.toNat < 272 ∧ s.SameButStale t ∧ s.sync.frame ≠ t.sync.frame ∧
      (∃ s', step s = .next s' ∧ s'.sync.cnt = 4#9) ∧ ∃ t', step t = .next t' ∧ t'.sync.cnt = 4#9 :=
  ⟨by decide, ⟨by decide +kernel, rfl⟩, by decide +kernel, next_of_observe (f := fun t => t.sync.cnt) (by decide +kernel),
   next_of_observe (f := fun t => t.sync.cnt) (by decide +kernel)⟩

end Sys2Proof.Tests
end

section
/-! Proofs of the statements about the state (10_state.md): what a step keeps, and which frame bits it reads. -/

namespace Sys2Proof.Machine

/-! ### A corrected frame is a codeword (R236, R237) -/

/-- The register is linear in its start value and its input (R153). -/
theorem foldl_crcBit_xor {W : Nat} (p : BitVec W) (f g : List Bool) (h : f.length = g.length) (r r' : BitVec W) :
    (List.zipWith (fun a b => a ^^ b) f g).foldl (crcBit p) (r ^^^ r') =
      f.foldl (crcBit p) r ^^^ g.foldl (crcBit p) r' := by
  induction f generalizing g r r' with
  | nil => cases g with
    | nil => rfl
    | cons b g => cases h
  | cons a f ih => cases g with
    | nil => cases h
    | cons b g =>
      simp only [List.zipWith_cons_cons, List.foldl_cons, crcBit_xor]
      exact ih g (Nat.succ.inj h) _ _

/-- The syndrome is linear (R156). -/
theorem syn_xor (f g : Frame) : syn (f ^^^ g) = syn f ^^^ syn g := by
  have h := foldl_crcBit_xor Config.g82 (seqOf f) (seqOf g) (by simp) 0#82 0#82
  rwa [BitVec.xor_self, ← seqOf_xor] at h

/-- Validation accepts codewords only (R236, R237). -/
theorem validate_syn {v : BicWord} {f : Frame} {a : Accepted} (h : validate v f = some a) : syn a.frame = 0#82 := by
  rcases validate_cases h with ⟨h0, rfl⟩ | ⟨i, -, hi, rfl⟩
  · exact h0
  · have hunit : syn (unitFrame i) = syn f := hi
    rw [syn_xor, hunit, BitVec.xor_self]

/-! ### Soundness within a step

`State.Sound` speaks of the state between steps. Within a step `STATUS` still has the value of the step before, so the
operations of a step keep the rest of it, and driving `STATUS` at the end of the step gives the whole. -/

/-- What is driven on `L2_OUT`, if anything, is a codeword tagged with a BIC, with a position of the frame (R94). -/
def L2Sound (o : Option L2Block) : Prop :=
  ∀ b ∈ o, isBic b.bic = true ∧ syn b.frame = 0#82 ∧ b.pos.toNat < Config.frameBits ∧
    (b.corrected = false → b.pos = 0#9)

/-- `State.Sound` but for the value driven on `STATUS`. -/
structure State.SoundWithin (s : State) : Prop where
  demod : s.demod.Sound
  sync : s.sync.Sound
  sech : s.sech.Sound
  long : s.long.Sound
  config : s.ConfigSound
  l2 : L2Sound s.out.l2

/-- A step ends by driving `STATUS`, which completes soundness (R129). -/
theorem driveStatus_sound {s : State} (h : s.SoundWithin) : (driveStatus s).Sound :=
  ⟨h.demod, h.sync, h.sech, h.long, h.config, rfl, h.l2⟩

/-- A step starts with nothing on `L2_OUT`, whatever commands are still to come. -/
theorem beginStep_soundWithin {s : State} (h : s.Sound) (port : List CmdWord) :
    (beginStep { s with port := port }).SoundWithin := by
  obtain ⟨hdemod, hsync, hsech, hlong, hconfig, -⟩ := h
  exact ⟨hdemod, hsync, hsech, hlong, hconfig, nofun⟩

/-! #### Reset and configuration -/

/-- The demodulator at its R49 values: the delay line is full length, the gain is `AGC_G0`. -/
theorem reset_demod_sound : State.reset.demod.Sound :=
  ⟨List.length_replicate, rfl, rfl, agcG0_positive⟩

/-- A state whose elements have their R49 values is sound where its configuration is. -/
theorem soundWithin_of_reset {s : State} (hdemod : s.demod = State.reset.demod) (hsync : s.sync = State.reset.sync)
    (hsech : s.sech = State.reset.sech) (hlong : s.long = State.reset.long) (hl2 : s.out.l2 = none)
    (hconfig : s.ConfigSound) : s.SoundWithin where
  demod := hdemod ▸ reset_demod_sound
  sync := hsync ▸ ⟨fun _ => rfl, by decide, nofun⟩
  sech := hsech ▸ ⟨rfl, rfl⟩
  long := hlong ▸ ⟨rfl, by decide, rfl, rfl, rfl⟩
  config := hconfig
  l2 := hl2 ▸ nofun

theorem resetState_soundWithin (s : State) : (resetState s).SoundWithin :=
  soundWithin_of_reset rfl rfl rfl rfl rfl (by decide : State.reset.ConfigSound)

/-- `CONFIG` raises its error exactly where the configuration it loads fails the check (R123). -/
theorem configure_eq (mode : InputMode) (fsIn : BitVec 32) (s : State) :
    configure mode fsIn s = { State.reset with
      cfg := { fsIn, mode }
      status := { State.reset.status with cfgErr := mode == .samples && !ratioLegal fsIn }
      port := s.port } := by
  cases mode with
  | bits => rfl
  | samples =>
    cases hlegal : ratioLegal fsIn <;> simp [configure, hlegal, raiseConfigError, resetState]

theorem configure_soundWithin (mode : InputMode) (fsIn : BitVec 32) (s : State) :
    (configure mode fsIn s).SoundWithin := by
  rw [configure_eq]
  exact soundWithin_of_reset rfl rfl rfl rfl rfl rfl

/-! #### The bit and the sample -/

/-- The accumulators stay sound through the router, and nothing else of the invariant moves (R270). -/
theorem reassemble_soundWithin (f : Info) {s : State} (h : s.SoundWithin) : (reassemble f s).SoundWithin where
  demod := by simpa using h.demod
  sync := by simpa using h.sync
  sech := by
    rcases reassemble_cases f s with ⟨-, e⟩ | ⟨-, e⟩ | ⟨-, -, e⟩ | ⟨-, -, e⟩ <;> rw [e]
    · simpa using sechNext_sound _ h.sech
    · simpa using h.sech
    · exact h.sech
    · exact h.sech
  long := by
    rcases reassemble_cases f s with ⟨-, e⟩ | ⟨-, e⟩ | ⟨-, -, e⟩ | ⟨-, -, e⟩ <;> rw [e]
    · simpa using h.long
    · simpa using longNext_sound _ h.long
    · exact h.long
    · exact h.long
  config := by
    unfold State.ConfigSound
    rw [reassemble_status, reassemble_cfg]
    exact h.config
  l2 := by simpa using h.l2

/-- What a sound synchroniser accepts may go to `L2_OUT`: its tag is the BIC of the block that was
being filled (R38). -/
theorem emitL2_soundWithin {b : Bool} {y : Sync} {a : Accepted} (hy : y.Sound) (ha : (syncStep b y).1 = some a)
    {s : State} (h : s.SoundWithin) : (emitL2 a.bic a.frame a.pos s).SoundWithin where
  demod := h.demod
  sync := h.sync
  sech := h.sech
  long := h.long
  config := h.config
  l2 := by
    obtain ⟨hfill, ⟨f, hf⟩, -⟩ := syncStep_accepted ha
    obtain ⟨-, -, htag⟩ := hy
    have hpos := validate_pos hf
    rintro _ ⟨⟩
    refine ⟨validate_bic hf ▸ htag hfill, validate_syn hf, ?_⟩
    cases hp : a.pos with
    | none => exact ⟨(by decide : (0#9).toNat < 272), fun _ => rfl⟩
    | some i =>
      have hi : i < 272 := hpos i hp
      refine ⟨?_, nofun⟩
      show i % 512 < 272
      omega

/-- A bit keeps the invariant (R125). -/
theorem bitPipeline_soundWithin (b : Bool) {s : State} (h : s.SoundWithin) : (bitPipeline b s).SoundWithin := by
  have hsync : State.SoundWithin { s with sync := (syncStep b s.sync).2 } :=
    { h with sync := syncStep_sound b h.sync }
  cases ha : (syncStep b s.sync).1 with
  | none => rw [bitPipeline_none ha]; exact hsync
  | some a =>
    rw [bitPipeline_some ha]
    exact reassemble_soundWithin _ (emitL2_soundWithin h.sync ha hsync)

/-- A sample keeps the invariant (R124). -/
theorem samplePipeline_soundWithin (x : Scalar) {s : State} (h : s.SoundWithin) :
    (samplePipeline x s).SoundWithin := by
  have hdemod : State.SoundWithin { s with demod := (demodStep x s.demod).2 } :=
    { h with demod := demodStep_sound x h.demod }
  cases hb : (demodStep x s.demod).1 with
  | none => rw [samplePipeline_none hb]; exact hdemod
  | some b =>
    rw [samplePipeline_some hb]
    exact bitPipeline_soundWithin b { hdemod with }

/-! #### The step -/

/-- Every command keeps the invariant. -/
theorem CommandEffect.soundWithin {w : CmdWord} {s u : State} (he : CommandEffect w s u) (h : s.SoundWithin) :
    u.SoundWithin := by
  cases he with
  | nothing _ => exact h
  | reset _ => exact resetState_soundWithin s
  | configured m f _ => exact configure_soundWithin m f s
  | sampled x _ _ => exact samplePipeline_soundWithin _ h
  | received b _ _ => exact bitPipeline_soundWithin b h
  | ended _ => exact { h with }
  | ignored _ _ => exact { h with }

/-- Settles O58: the invariant holds when a step begins, its command keeps it, and driving `STATUS` completes it. -/
theorem everyStepKeepsTheStateSound : Obligations.EveryStepKeepsTheStateSound := by
  intro s t hs hstep
  rcases step_cases hstep with ⟨-, rfl⟩ | ⟨w, rest, u, -, heffect, rfl⟩
  · exact driveStatus_sound (beginStep_soundWithin hs s.port)
  · exact driveStatus_sound (heffect.soundWithin (beginStep_soundWithin hs rest))

/-! ### Stale frame bits (R40) -/

/-- Two frames have the same first `n` bits. -/
def AgreeBelow (n : Nat) (f g : Frame) : Prop := ∀ i < n, bitAt f i = bitAt g i

/-- The synchroniser with the frame buffer `g`. -/
def Sync.withFrame (g : Frame) (y : Sync) : Sync := { y with frame := g }

/-- The state with the frame buffer `g`. -/
def State.withFrame (g : Frame) (s : State) : State := { s with sync := s.sync.withFrame g }

/-- States that differ in stale bits are a state and itself with another frame buffer. -/
theorem sameButStale_iff {s t : State} :
    s.SameButStale t ↔ ∃ g, AgreeBelow s.sync.cnt.toNat s.sync.frame g ∧ t = s.withFrame g := by
  constructor
  · rintro ⟨hbits, ht⟩
    exact ⟨t.sync.frame, hbits, ht⟩
  · rintro ⟨g, hbits, rfl⟩
    exact ⟨hbits, rfl⟩

theorem State.SameButStale.refl (s : State) : s.SameButStale s := ⟨fun _ _ => rfl, rfl⟩

/-! #### The synchroniser -/

/-- Appending a bit at index `i` extends the bits two frames share. -/
theorem AgreeBelow.setFrameBit {i : Nat} {f g : Frame} (h : AgreeBelow i f g) (hi : i < 272) (v : Bool) :
    AgreeBelow (i + 1) (setFrameBit i v f) (setFrameBit i v g) := by
  intro j hj
  rw [bitAt_setFrameBit i v f (by omega), bitAt_setFrameBit i v g (by omega)]
  split
  · rfl
  · exact h j (by omega)

/-- Frames that share all 272 bits are equal. -/
theorem AgreeBelow.eq {n : Nat} {f g : Frame} (h : AgreeBelow n f g) (hn : 272 ≤ n) : f = g :=
  eq_of_bitAt fun i hi => h i (Nat.lt_of_lt_of_le hi hn)

/-- One bit through the synchroniser reads no stale bit: the answer is the same, and the frames still agree below the
new count (R230). -/
theorem syncStep_withFrame (b : Bool) {y : Sync} {g : Frame} (hcnt : y.cnt.toNat < 272)
    (hg : AgreeBelow y.cnt.toNat y.frame g) :
    ∃ g', AgreeBelow (syncStep b y).2.cnt.toNat (syncStep b y).2.frame g' ∧
      syncStep b (y.withFrame g) = ((syncStep b y).1, (syncStep b y).2.withFrame g') := by
  cases hs : y.state with
  | unsynchronized =>
    cases hv : isBic (shiftSr b y).sr with
    | false =>
      rw [syncStep_search hs hv, syncStep_search (y := y.withFrame g) hs hv]
      exact ⟨g, hg, rfl⟩
    | true =>
      rw [syncStep_start hs hv, syncStep_start (y := y.withFrame g) hs hv]
      exact ⟨g, fun i hi => absurd hi (Nat.not_lt_zero i), rfl⟩
  | filling =>
    have hset := hg.setFrameBit hcnt (b ^^ scrAt (y.cnt.toNat % Config.scrLen))
    by_cases hlt : y.cnt.toNat < 271
    · rw [syncStep_fill hs hlt, syncStep_fill (y := y.withFrame g) hs hlt]
      refine ⟨_, ?_, rfl⟩
      have hnext : (y.cnt + 1#9).toNat = y.cnt.toNat + 1 := by
        rw [BitVec.toNat_add]
        exact Nat.mod_eq_of_lt (by simp; omega)
      rw [← hnext] at hset
      exact hset
    · have he : y.cnt = 271#9 := BitVec.eq_of_toNat_eq (by show y.cnt.toNat = 271; omega)
      have hframe : append b (shiftSr b (y.withFrame g)) = append b (shiftSr b y) :=
        congrArg (fun f => (append b (shiftSr b y)).withFrame f) (hset.eq (by omega)).symm
      rw [syncStep_finish hs he, syncStep_finish (y := y.withFrame g) hs he, hframe]
      exact ⟨_, fun _ _ => rfl, rfl⟩

/-! #### Operations on the state -/

/-- An operation within a step reads no stale frame bit: from states that differ in stale bits it gives
states that do. -/
def StaleBlind (F : State → State) : Prop :=
  ∀ s t : State, s.sync.cnt.toNat < 272 → s.SameButStale t → (F s).SameButStale (F t)

/-- An operation that leaves the synchroniser alone and does not look at its frame buffer. -/
theorem StaleBlind.of_withFrame {F : State → State} (hsync : ∀ s, (F s).sync = s.sync)
    (hF : ∀ g s, F (s.withFrame g) = (F s).withFrame g) : StaleBlind F := by
  intro s t _ h
  obtain ⟨g, hg, rfl⟩ := sameButStale_iff.mp h
  exact sameButStale_iff.mpr ⟨g, by rwa [hsync], hF g s⟩

/-- An operation that gives the same state whatever the frame buffer. -/
theorem StaleBlind.of_forget {F : State → State} (hF : ∀ g s, F (s.withFrame g) = F s) : StaleBlind F := by
  intro s t _ h
  obtain ⟨g, -, rfl⟩ := sameButStale_iff.mp h
  rw [hF]
  exact .refl _

/-- A choice by a test that does not look at the frame buffer. -/
theorem StaleBlind.ite {c : State → Bool} (hc : ∀ g s, c (s.withFrame g) = c s) {F G : State → State}
    (hF : StaleBlind F) (hG : StaleBlind G) : StaleBlind fun s => if c s then F s else G s := by
  intro s t hcnt h
  have hct : c t = c s := by
    obtain ⟨g, -, rfl⟩ := sameButStale_iff.mp h
    exact hc g s
  dsimp only
  rw [hct]
  split
  · exact hF s t hcnt h
  · exact hG s t hcnt h

/-- A record is driven whatever the frame buffer holds. -/
theorem emitRec?_withFrame (r : Option Record) (g : Frame) (s : State) :
    emitRec? r (s.withFrame g) = (emitRec? r s).withFrame g := by
  cases r <;> rfl

/-- The router does not look at the synchroniser (R270). -/
theorem reassemble_withFrame (f : Info) (g : Frame) (s : State) :
    reassemble f (s.withFrame g) = (reassemble f s).withFrame g := by
  have hsech (b : SechBlock) : sechPush b (s.withFrame g) = (sechPush b s).withFrame g :=
    emitRec?_withFrame _ g { s with sech := (sechNext b s.sech).1 }
  have hlong (b : LongBlock) : longPush b (s.withFrame g) = (longPush b s).withFrame g :=
    emitRec?_withFrame _ g { s with long := (longNext b s.long).1 }
  unfold reassemble
  dsimp only
  split
  · exact hsech _
  split
  · exact hlong _
  split
  · split <;> rfl
  · rfl

/-- A bit reads no stale frame bit (R125). -/
theorem bitPipeline_staleBlind (b : Bool) : StaleBlind (bitPipeline b) := by
  intro s t hcnt h
  obtain ⟨g, hg, rfl⟩ := sameButStale_iff.mp h
  obtain ⟨g', hg', hstep⟩ := syncStep_withFrame b hcnt hg
  have hstep' : syncStep b (s.withFrame g).sync = ((syncStep b s.sync).1, (syncStep b s.sync).2.withFrame g') := hstep
  refine sameButStale_iff.mpr ⟨g', by rwa [bitPipeline_sync], ?_⟩
  cases ha : (syncStep b s.sync).1 with
  | none =>
    rw [bitPipeline_none ha, bitPipeline_none (by rw [hstep', ha]), hstep']
    rfl
  | some a =>
    rw [bitPipeline_some ha, bitPipeline_some (a := a) (by rw [hstep', ha]), hstep', ← reassemble_withFrame]
    rfl

/-- A sample reads no stale frame bit (R124). -/
theorem samplePipeline_staleBlind (x : Scalar) : StaleBlind (samplePipeline x) := by
  intro s t hcnt h
  obtain ⟨g, hg, rfl⟩ := sameButStale_iff.mp h
  cases hb : (demodStep x s.demod).1 with
  | none =>
    rw [samplePipeline_none hb, samplePipeline_none (s := s.withFrame g) hb]
    exact sameButStale_iff.mpr ⟨g, hg, rfl⟩
  | some b =>
    rw [samplePipeline_some hb, samplePipeline_some (s := s.withFrame g) hb]
    exact bitPipeline_staleBlind b _ _ hcnt (sameButStale_iff.mpr ⟨g, hg, rfl⟩)

theorem ignoreCommand_staleBlind : StaleBlind ignoreCommand :=
  .of_withFrame (fun _ => rfl) fun _ _ => rfl

theorem idle_staleBlind : StaleBlind idle :=
  .of_withFrame (fun _ => rfl) fun _ _ => rfl

/-! #### The step -/

/-- Each command's meaning is one operation that reads no stale frame bit. -/
theorem exec_staleBlind {i : Instr} (hi : isCommand i = true) :
    ∃ F, (∀ s, exec i s = command F s) ∧ StaleBlind F := by
  cases i with
  | nop => exact ⟨_, fun _ => rfl, .of_withFrame (fun _ => rfl) fun _ _ => rfl⟩
  | reset => exact ⟨_, fun _ => rfl, .of_forget fun _ _ => rfl⟩
  | config mode fsIn =>
    exact ⟨_, fun _ => rfl, .of_forget fun _ _ => by simp only [configure_eq]; rfl⟩
  | sample x =>
    exact ⟨_, fun _ => rfl, .ite (fun _ _ => rfl) (samplePipeline_staleBlind _) ignoreCommand_staleBlind⟩
  | bit b =>
    exact ⟨_, fun _ => rfl, .ite (fun _ _ => rfl) (bitPipeline_staleBlind b) ignoreCommand_staleBlind⟩
  | eos => exact ⟨_, fun _ => rfl, .of_withFrame (fun _ => rfl) fun _ _ => rfl⟩
  | reserved67 low => exact ⟨_, fun _ => rfl, ignoreCommand_staleBlind⟩
  | reserved8F low => exact ⟨_, fun _ => rfl, ignoreCommand_staleBlind⟩
  | _ => cases hi

/-- The start of a step keeps the relation, with the commands still to come. -/
theorem State.SameButStale.beginStep {s t : State} (h : s.SameButStale t) (port : List CmdWord) :
    (beginStep { s with port := port }).SameButStale (beginStep { t with port := port }) := by
  obtain ⟨g, hg, rfl⟩ := sameButStale_iff.mp h
  exact sameButStale_iff.mpr ⟨g, hg, rfl⟩

/-- The end of a step keeps the relation: the status word reads no frame bit (R26). -/
theorem State.SameButStale.driveStatus {s t : State} (h : s.SameButStale t) :
    (driveStatus s).SameButStale (driveStatus t) := by
  obtain ⟨g, hg, rfl⟩ := sameButStale_iff.mp h
  exact sameButStale_iff.mpr ⟨g, hg, rfl⟩

/-- Settles O59: both steps run one operation that reads no stale frame bit, between the start and the end of a step. -/
theorem staleFrameBitsAreNeverRead : Obligations.StaleFrameBitsAreNeverRead := by
  intro s t s' t' hcnt h hs ht
  have hport : t.port = s.port := by
    obtain ⟨g, -, rfl⟩ := sameButStale_iff.mp h
    rfl
  cases hp : s.port with
  | nil =>
    rw [step_nil hp] at hs
    rw [step_nil (hport.trans hp)] at ht
    cases hs
    cases ht
    exact idle_staleBlind s t hcnt h
  | cons w rest =>
    obtain ⟨F, hF, hblind⟩ := exec_staleBlind (decodeCmd_isCommand w)
    rw [step_cons hp, hF] at hs
    rw [step_cons (hport.trans hp), hF] at ht
    cases hs
    cases ht
    exact (hblind (beginStep { s with port := rest }) _ hcnt (h.beginStep rest)).driveStatus

/-! ### Flags and configuration -/

/-- Settles O16: no other command writes `CFG`, and none but EOS and an ignored one writes a flag. -/
theorem onlyResetAndConfigClearTheFlags : Obligations.OnlyResetAndConfigClearTheFlags := by
  intro s t w rest hport hstep hreset hconfig
  rcases step_cases hstep with ⟨hnil, -⟩ | ⟨w', rest', u, hport', heffect, rfl⟩
  · rw [hport] at hnil
    cases hnil
  rw [hport] at hport'
  cases hport'
  cases heffect with
  | nothing _ => simp
  | reset h => exact absurd h hreset
  | configured m f h => exact absurd h (hconfig m f)
  | sampled x _ _ => simp
  | received b _ _ => simp
  | ended _ => simp
  | ignored _ _ => simp

/-! ### Reset -/

/-- Settles O11: each element has its R49 value, and `AGC_G0` is positive. -/
theorem resetValues : Obligations.ResetValues :=
  ⟨rfl, rfl, rfl, rfl, rfl, ⟨rfl, agcG0_positive⟩, rfl, rfl, rfl, ⟨rfl, rfl, rfl, rfl⟩,
    ⟨rfl, rfl, rfl, rfl, rfl, rfl, rfl⟩, ⟨rfl, rfl, rfl, rfl⟩, rfl⟩

/-- Settles O57: resetting the reset state and driving `STATUS` changes nothing, and what that gives is sound. -/
theorem resetIsSound : Obligations.ResetIsSound :=
  driveStatus_sound (resetState_soundWithin State.reset)

end Sys2Proof.Machine
end

section
/-! Proofs of the statements about the encodings (30_encoding.md): the fields of concatenated words, the decoder said
once per format, and what a placed table word runs. -/

namespace Sys2Proof.Machine

open Sys2Proof.Statements
open Sys2Proof.Laws.TableMatch (infoSilc_append infoSilc_encodeSech infoSilc_encodeLong infoSilc_bmch infoSub_bmch)

/-! ### Fields of a concatenation (R9, R65) -/

/-- A field that ends within the first part. -/
theorem msb_append_left {m n : Nat} (f : BitVec m) (g : BitVec n) {off w : Nat} (h : off + w ≤ m) :
    msb (f ++ g) off w = msb f off w := by
  unfold msb
  rw [BitVec.extractLsb'_append_eq_of_le (by omega)]
  congr 1
  omega

/-- The second part as a field. -/
theorem msb_append_last {m n : Nat} (f : BitVec m) (g : BitVec n) {off : Nat} (h : off = m) :
    msb (f ++ g) off n = g := by
  subst h
  unfold msb
  rw [Nat.add_sub_cancel_left, Nat.sub_self]
  exact BitVec.extractLsb'_append_eq_right

/-- The whole sequence as a field. -/
@[simp] theorem msb_self {n : Nat} (f : BitVec n) : msb f 0 n = f := by
  simp [msb]

/-- A bit within the first part. -/
theorem bitAt_append_left {m n : Nat} (f : BitVec m) (g : BitVec n) {i : Nat} (h : i < m) :
    bitAt (f ++ g) i = bitAt f i := by
  rw [bitAt_append, if_pos h]

/-- A single bit that stands last. -/
theorem bitAt_append_ofBool {m : Nat} (f : BitVec m) (b : Bool) {i : Nat} (h : i = m) :
    bitAt (f ++ BitVec.ofBool b) i = b := by
  rw [bitAt_append, if_neg (by omega), h, Nat.sub_self]
  cases b <;> rfl

/-! ### Command words (R80 to R83) -/

@[simp] theorem cmdOp_cmdWord (op : BitVec 4) (low : BitVec 60) : cmdOp (cmdWord op low) = op :=
  BitVec.extractLsb'_append_eq_left

/-- The 32 low bits of a command word built from its parts. -/
theorem low32_cmdWord (op : BitVec 4) (high : BitVec 28) (x : BitVec 32) :
    (cmdWord op (high ++ x)).extractLsb' 0 32 = x := by
  rw [cmdWord, BitVec.extractLsb'_append_eq_of_add_le (by decide)]
  exact BitVec.extractLsb'_append_eq_right

theorem cmdMode_cmdWord (op : BitVec 4) (mode : InputMode) (fsIn : BitVec 32) :
    cmdMode (cmdWord op (0#27 ++ modeBit mode ++ fsIn)) = mode := by
  have hbit : (cmdWord op (0#27 ++ modeBit mode ++ fsIn)).getLsbD 32 = (modeBit mode).getLsbD 0 := by
    simp only [cmdWord, BitVec.getLsbD_append]
    rfl
  rw [cmdMode, hbit]
  cases mode <;> rfl

theorem cmdB_cmdWord (op : BitVec 4) (b : Bool) : cmdB (cmdWord op (0#59 ++ BitVec.ofBool b)) = b := by
  simp only [cmdB, cmdWord, BitVec.getLsbD_append]
  cases b <;> rfl

/-! #### The opcode map, one row a lemma (R81) -/

section
variable {w : CmdWord}

theorem decodeCmd_nop (h : cmdOp w = 0x0#4) : decodeCmd w = .nop := by simp [decodeCmd, h]

theorem decodeCmd_reset (h : cmdOp w = 0x1#4) : decodeCmd w = .reset := by simp [decodeCmd, h]

theorem decodeCmd_config (h : cmdOp w = 0x2#4) : decodeCmd w = .config (cmdMode w) (cmdFsIn w) := by
  simp [decodeCmd, h]

theorem decodeCmd_sample (h : cmdOp w = 0x3#4) : decodeCmd w = .sample (cmdX w) := by simp [decodeCmd, h]

theorem decodeCmd_bit (h : cmdOp w = 0x4#4) : decodeCmd w = .bit (cmdB w) := by simp [decodeCmd, h]

theorem decodeCmd_eos (h : cmdOp w = 0x5#4) : decodeCmd w = .eos := by simp [decodeCmd, h]

/-- The reserved opcodes: the top bit of the opcode tells the two rows apart. -/
theorem decodeCmd_reserved (h : 6 ≤ (cmdOp w).toNat) : decodeCmd w =
    if (cmdOp w).msb then .reserved8F ((cmdOp w).extractLsb' 0 3) else .reserved67 ((cmdOp w).extractLsb' 0 1) := by
  have hne : ∀ k : BitVec 4, k.toNat < 6 → cmdOp w ≠ k := by
    rintro k hk rfl
    omega
  simp [decodeCmd, hne]

end

theorem decodeCmd_encode_config (mode : InputMode) (fsIn : BitVec 32) :
    decodeCmd (cmdWord 0x2#4 (0#27 ++ modeBit mode ++ fsIn)) = .config mode fsIn := by
  rw [decodeCmd_config (cmdOp_cmdWord _ _), cmdMode_cmdWord, cmdFsIn, low32_cmdWord]

theorem decodeCmd_encode_sample (x : BitVec 32) : decodeCmd (cmdWord 0x3#4 (0#28 ++ x)) = .sample x := by
  rw [decodeCmd_sample (cmdOp_cmdWord _ _), cmdX, low32_cmdWord]

theorem decodeCmd_encode_bit (b : Bool) : decodeCmd (cmdWord 0x4#4 (0#59 ++ BitVec.ofBool b)) = .bit b := by
  rw [decodeCmd_bit (cmdOp_cmdWord _ _), cmdB_cmdWord]

theorem decodeCmd_encode_reserved67 (low : BitVec 1) : decodeCmd (cmdWord (0b011#3 ++ low) 0#60) = .reserved67 low := by
  have hop : ∀ low : BitVec 1, 6 ≤ (0b011#3 ++ low).toNat ∧ (0b011#3 ++ low).msb = false := by decide
  obtain ⟨hge, hmsb⟩ := hop low
  rw [decodeCmd_reserved (by rwa [cmdOp_cmdWord]), cmdOp_cmdWord, hmsb, if_neg Bool.false_ne_true,
    BitVec.extractLsb'_append_eq_right]

theorem decodeCmd_encode_reserved8F (low : BitVec 3) : decodeCmd (cmdWord (1#1 ++ low) 0#60) = .reserved8F low := by
  have hop : ∀ low : BitVec 3, 6 ≤ (1#1 ++ low).toNat ∧ (1#1 ++ low).msb = true := by decide
  obtain ⟨hge, hmsb⟩ := hop low
  rw [decodeCmd_reserved (by rwa [cmdOp_cmdWord]), cmdOp_cmdWord, hmsb, if_pos rfl,
    BitVec.extractLsb'_append_eq_right]

/-! ### Information fields (R86 to R89) -/

section
variable {f : Info}

theorem decodeInfo_sech (h : infoSilc f = 0x8#4) : decodeInfo f = .sech (sechFields f) := by
  simp [decodeInfo, h, Config.silcSech]

theorem decodeInfo_lmch (h : infoSilc f = 0xA#4) : decodeInfo f = .lmch (longFields f) := by
  simp [decodeInfo, h, Config.silcSech, Config.silcLong]

theorem decodeInfo_silcBmch (h : infoSilc f = 0xB#4) : decodeInfo f =
    if infoSub f = 0#4 then .bmch (bmchPayload f) else .bmchOtherSub (infoSub f) (bmchPayload f) := by
  simp [decodeInfo, h, Config.silcSech, Config.silcLong, Config.silcBmch]

/-- The unrouted selectors, by the top bit and 0x9. -/
theorem decodeInfo_unrouted (h8 : infoSilc f ≠ 0x8#4) (hA : infoSilc f ≠ 0xA#4) (hB : infoSilc f ≠ 0xB#4) :
    decodeInfo f =
      if (infoSilc f).msb = false then .silc07 ((infoSilc f).extractLsb' 0 3) (msb f 4 172)
      else if infoSilc f = 0x9#4 then .silc9 (msb f 4 172)
      else .silcCF ((infoSilc f).extractLsb' 0 2) (msb f 4 172) := by
  simp [decodeInfo, h8, hA, hB, Config.silcSech, Config.silcLong, Config.silcBmch]

end

theorem sechFields_encodeSech (b : SechBlock) : sechFields (encodeSech b) = b := by
  simp (disch := decide) only [sechFields, encodeSech, bitAt_append_left, bitAt_append_ofBool, msb_append_left,
    msb_append_last]

theorem longFields_encodeLong (b : LongBlock) : longFields (encodeLong b) = b := by
  simp (disch := decide) only [longFields, encodeLong, miniHeader, bitAt_append_left, bitAt_append_ofBool,
    msb_append_left, msb_append_last]

theorem bmchPayload_encode (sub : BitVec 4) (payload : BitVec 168) :
    bmchPayload (Config.silcBmch ++ sub ++ payload) = payload :=
  msb_append_last _ _ rfl

theorem decodeInfo_encode_sech (b : SechBlock) : decodeInfo (encodeSech b) = .sech b := by
  rw [decodeInfo_sech (infoSilc_encodeSech b), sechFields_encodeSech]

theorem decodeInfo_encode_lmch (b : LongBlock) : decodeInfo (encodeLong b) = .lmch b := by
  rw [decodeInfo_lmch (infoSilc_encodeLong b), longFields_encodeLong]

theorem decodeInfo_encode_bmch (payload : BitVec 168) :
    decodeInfo (Config.silcBmch ++ 0#4 ++ payload) = .bmch payload := by
  rw [decodeInfo_silcBmch (infoSilc_bmch _ _), infoSub_bmch, if_pos rfl, bmchPayload_encode]

theorem decodeInfo_encode_bmchOtherSub {sub : BitVec 4} (h : sub ≠ 0#4) (payload : BitVec 168) :
    decodeInfo (Config.silcBmch ++ sub ++ payload) = .bmchOtherSub sub payload := by
  rw [decodeInfo_silcBmch (infoSilc_bmch _ _), infoSub_bmch, if_neg h, bmchPayload_encode]

/-- An unrouted field written as its selector and the rest. -/
theorem decodeInfo_append_unrouted {silc : BitVec 4} (h : silc ≠ 0x8#4 ∧ silc ≠ 0xA#4 ∧ silc ≠ 0xB#4)
    (rest : BitVec 172) : decodeInfo (silc ++ rest) =
      if silc.msb = false then .silc07 (silc.extractLsb' 0 3) rest
      else if silc = 0x9#4 then .silc9 rest
      else .silcCF (silc.extractLsb' 0 2) rest := by
  obtain ⟨h8, hA, hB⟩ := h
  have hsilc : infoSilc (silc ++ rest) = silc := infoSilc_append silc rest
  have hrest : msb (silc ++ rest) 4 172 = rest := msb_append_last silc rest rfl
  rw [decodeInfo_unrouted (by rwa [hsilc]) (by rwa [hsilc]) (by rwa [hsilc]), hsilc]
  exact hrest.symm ▸ rfl

theorem decodeInfo_encode_silc07 (silc : BitVec 3) (rest : BitVec 172) :
    decodeInfo (0#1 ++ silc ++ rest) = .silc07 silc rest := by
  have hsilc : ∀ silc : BitVec 3, (0#1 ++ silc ≠ 0x8#4 ∧ 0#1 ++ silc ≠ 0xA#4 ∧ 0#1 ++ silc ≠ 0xB#4) ∧
      (0#1 ++ silc).msb = false := by decide
  obtain ⟨hne, hmsb⟩ := hsilc silc
  refine (decodeInfo_append_unrouted hne rest).trans ?_
  rw [if_pos hmsb, BitVec.extractLsb'_append_eq_right]

theorem decodeInfo_encode_silcCF (silc : BitVec 2) (rest : BitVec 172) :
    decodeInfo (0b11#2 ++ silc ++ rest) = .silcCF silc rest := by
  have hsilc : ∀ silc : BitVec 2, (0b11#2 ++ silc ≠ 0x8#4 ∧ 0b11#2 ++ silc ≠ 0xA#4 ∧ 0b11#2 ++ silc ≠ 0xB#4) ∧
      (0b11#2 ++ silc).msb ≠ false ∧ 0b11#2 ++ silc ≠ 0x9#4 := by decide
  obtain ⟨hne, hmsb, h9⟩ := hsilc silc
  refine (decodeInfo_append_unrouted hne rest).trans ?_
  rw [if_neg hmsb, if_neg h9, BitVec.extractLsb'_append_eq_right]

/-! ### Long messages (R96) -/

/-- Byte 0 read back: its flags and the type code. -/
theorem readL4_byte0 (first last ext ca : Bool) (type : BitVec 4) (rest : List Byte) :
    readL4 (l4Byte0 first last ext ca type :: rest) =
      if ca then .audience first last ext type rest else l4Split first last ext type rest := by
  have hfields : ∀ (first last ext ca : Bool) (type : BitVec 4), let b0 := l4Byte0 first last ext ca type
      b0.getLsbD 4 = ca ∧ b0.getLsbD 7 = first ∧ b0.getLsbD 6 = last ∧ b0.getLsbD 5 = ext ∧
        b0.extractLsb' 0 4 = type := by decide
  obtain ⟨hca, hfirst, hlast, hext, htype⟩ := hfields first last ext ca type
  rw [readL4, hca, hfirst, hlast, hext, htype]

/-- A message with `CA` = 0 read back: the flag `E` says whether the extension byte stands before the CRC-8. -/
theorem readL4_encodeL4 (type : BitVec 4) (m : L4Message) : readL4 (encodeL4 type m) = .message type m := by
  obtain ⟨first, last, ext, crc, data⟩ := m
  cases ext with
  | none => exact readL4_byte0 first last false false type (crc :: data)
  | some e => exact readL4_byte0 first last true false type (e :: crc :: data)

theorem decodeL4_encode_l4Ca (first last ext : Bool) (type : BitVec 4) (rest : List Byte) :
    decodeL4 (l4Byte0 first last ext true type :: rest) = .instr (.l4Ca first last ext type rest) := by
  rw [decodeL4, readL4_byte0, if_pos rfl]

theorem decodeL4_encodeL4 (type : BitVec 4) (m : L4Message) : decodeL4 (encodeL4 type m) =
    if type = Config.l4TypeTlv then .instr (.l4Tlv m) else .instr (.l4Payload type m) := by
  rw [decodeL4, readL4_encodeL4]

/-! ### Decoding an encoding -/

/-- Settles O1: row by row, each format's fields read back. Well-formedness is what sends `BMCH_OTHER_SUB` and
`L4_PAYLOAD` past the row before them. -/
theorem decodeOfEncodeIsTheInstruction : Obligations.DecodeOfEncodeIsTheInstruction := by
  intro i hi
  cases i with
  | nop => exact congrArg Decoded.instr (decodeCmd_nop (cmdOp_cmdWord _ _))
  | reset => exact congrArg Decoded.instr (decodeCmd_reset (cmdOp_cmdWord _ _))
  | config mode fsIn => exact congrArg Decoded.instr (decodeCmd_encode_config mode fsIn)
  | sample x => exact congrArg Decoded.instr (decodeCmd_encode_sample x)
  | bit b => exact congrArg Decoded.instr (decodeCmd_encode_bit b)
  | eos => exact congrArg Decoded.instr (decodeCmd_eos (cmdOp_cmdWord _ _))
  | reserved67 low => exact congrArg Decoded.instr (decodeCmd_encode_reserved67 low)
  | reserved8F low => exact congrArg Decoded.instr (decodeCmd_encode_reserved8F low)
  | bic1 => rfl
  | bic2 => rfl
  | bic3 => rfl
  | bic4 => rfl
  | sech b => exact congrArg Decoded.instr (decodeInfo_encode_sech b)
  | lmch b => exact congrArg Decoded.instr (decodeInfo_encode_lmch b)
  | bmch payload => exact congrArg Decoded.instr (decodeInfo_encode_bmch payload)
  | bmchOtherSub sub payload =>
    have hsub : sub ≠ 0#4 := by simpa [Instr.wellFormed] using hi
    exact congrArg Decoded.instr (decodeInfo_encode_bmchOtherSub hsub payload)
  | silc07 silc rest => exact congrArg Decoded.instr (decodeInfo_encode_silc07 silc rest)
  | silc9 rest => exact congrArg Decoded.instr (decodeInfo_append_unrouted (silc := 0x9#4) (by decide) rest)
  | silcCF silc rest => exact congrArg Decoded.instr (decodeInfo_encode_silcCF silc rest)
  | l4Ca first last ext type rest => exact decodeL4_encode_l4Ca first last ext type rest
  | l4Tlv m => exact (decodeL4_encodeL4 _ m).trans (if_pos rfl)
  | l4Payload type m =>
    have htype : type ≠ Config.l4TypeTlv := by simpa [Instr.wellFormed] using hi
    exact (decodeL4_encodeL4 type m).trans (if_neg htype)

/-! ### The opcode map and the reserved bits (R81, R83) -/

theorem cmdOp_toNat (w : CmdWord) : (cmdOp w).toNat = (w >>> 60).toNat := by
  have hlt := (cmdOp w).isLt
  rw [cmdOp, BitVec.extractLsb'_toNat, BitVec.toNat_ushiftRight]
  omega

/-- Settles O3: the top four bits select the row, whose operands are the low bits of the word or of the opcode. -/
theorem opcodeMapOfCommands : Obligations.OpcodeMapOfCommands := by
  intro w op
  have hop (k : BitVec 4) (h : op = k.toNat) : cmdOp w = k :=
    BitVec.eq_of_toNat_eq ((cmdOp_toNat w).trans h)
  have hreserved (h : 6 ≤ op) : decodeCmd w =
      if 8 ≤ op then .reserved8F (BitVec.ofNat 3 op) else .reserved67 (BitVec.ofNat 1 op) := by
    have hmsb : (cmdOp w).msb = decide (8 ≤ (cmdOp w).toNat) := BitVec.msb_eq_decide _
    rw [decodeCmd_reserved (by rwa [cmdOp_toNat]), hmsb, BitVec.extractLsb', BitVec.extractLsb', cmdOp_toNat]
    simp [op]
  refine ⟨fun h => decodeCmd_nop (hop _ h), fun h => decodeCmd_reset (hop _ h), fun h => decodeCmd_config (hop _ h),
    fun h => decodeCmd_sample (hop _ h), fun h => decodeCmd_bit (hop _ h), fun h => decodeCmd_eos (hop _ h),
    fun h hlt => ?_, fun h => ?_⟩
  · rw [hreserved h, if_neg (by omega)]
  · rw [hreserved (by omega), if_pos h]

/-- A field of a command word reads only the bits under a mask that covers it. -/
theorem extractLsb'_and_mask {m : CmdWord} {start len : Nat} (h : m.extractLsb' start len = BitVec.allOnes len)
    (w : CmdWord) : (w &&& m).extractLsb' start len = w.extractLsb' start len := by
  rw [BitVec.extractLsb'_and, h, BitVec.and_allOnes]

theorem cmdMode_and (w : CmdWord) : cmdMode (w &&& 0x1FFFFFFFF#64) = cmdMode w := by
  simp [cmdMode]

theorem cmdFsIn_and (w : CmdWord) : cmdFsIn (w &&& 0x1FFFFFFFF#64) = cmdFsIn w :=
  extractLsb'_and_mask (by decide) w

theorem cmdX_and (w : CmdWord) : cmdX (w &&& 0xFFFFFFFF#64) = cmdX w :=
  extractLsb'_and_mask (by decide) w

theorem cmdB_and (w : CmdWord) : cmdB (w &&& 1#64) = cmdB w := by
  simp [cmdB]

/-- Words that agree in the opcode and in the bits named for it decode alike (R83). -/
theorem decodeCmd_eq_of_namedBits {w w' : CmdWord} (hop : cmdOp w = cmdOp w')
    (h : w &&& namedBits (cmdOp w) = w' &&& namedBits (cmdOp w)) : decodeCmd w = decodeCmd w' := by
  by_cases h2 : cmdOp w = 2#4
  · have hm : w &&& 0x1FFFFFFFF#64 = w' &&& 0x1FFFFFFFF#64 := by simpa [namedBits, h2] using h
    rw [decodeCmd_config h2, decodeCmd_config (hop ▸ h2), ← cmdMode_and w, ← cmdFsIn_and w, hm, cmdMode_and, cmdFsIn_and]
  by_cases h3 : cmdOp w = 3#4
  · have hm : w &&& 0xFFFFFFFF#64 = w' &&& 0xFFFFFFFF#64 := by simpa [namedBits, h3] using h
    rw [decodeCmd_sample h3, decodeCmd_sample (hop ▸ h3), ← cmdX_and w, hm, cmdX_and]
  by_cases h4 : cmdOp w = 4#4
  · have hm : w &&& 1#64 = w' &&& 1#64 := by simpa [namedBits, h4] using h
    rw [decodeCmd_bit h4, decodeCmd_bit (hop ▸ h4), ← cmdB_and w, hm, cmdB_and]
  · simp only [decodeCmd, ← hop, h2, h3, h4, if_false]

/-- Settles O4: the step runs what the word decodes to, and that the reserved bits do not touch. -/
theorem reservedCommandBitsAreIgnored : Obligations.ReservedCommandBitsAreIgnored := by
  intro w w' hop hnamed
  have hdecode : decodeCmd w = decodeCmd w' := decodeCmd_eq_of_namedBits hop hnamed
  refine ⟨hdecode, fun s rest => ?_⟩
  rw [step_cons (w := w) (rest := rest) rfl, step_cons (w := w') (rest := rest) rfl, hdecode]

/-! ### Words of the opcode table -/

/-- Settles O2: the command words, the BICs and the long message are evaluated; the two headers are the encodings of
their rows, with every operand bit after the header 0. -/
theorem tableWordsDecode : Obligations.TableWordsDecode :=
  ⟨by decide, by decide, by decide, by decide, by decide, by decide, by decide,
    congrArg some (decodeInfo_encode_bmch 0#168), congrArg some (decodeInfo_encode_silcCF 1#2 0#172), by decide⟩

/-! ### The rows within a bit's step -/

/-- A BIC is recognised exactly where the map decodes it, and its row meets it (R84, R232). -/
theorem exec_decodeBic {v : BicWord} {i : Instr} (h : decodeBic v = some i) (s : State) :
    isBic v = true ∧ exec i s = .next (driveStatus (seeBic v s)) := by
  unfold decodeBic at h
  iterate 4
    split at h
    · next hv => cases h; subst hv; exact ⟨rfl, rfl⟩
  cases h

/-- The row an information field decodes to routes it as the reassembler does (R86, R270). -/
theorem exec_decodeInfo (f : Info) (s : State) : exec (decodeInfo f) s = .next (driveStatus (reassemble f s)) := by
  unfold decodeInfo reassemble
  dsimp only
  split
  · rfl
  split
  · rfl
  split
  · split <;> rfl
  split
  · rfl
  · split <;> rfl

/-- A bit that completes a BIC while unsynchronised: the BIC is met in the register that holds it (R230, R233). -/
theorem bitPipeline_bic {b : Bool} {s : State} (h : s.sync.state = .unsynchronized)
    (hb : isBic (shiftSr b s.sync).sr = true) :
    bitPipeline b s = seeBic (shiftSr b s.sync).sr { s with sync := shiftSr b s.sync } := by
  have hstep := syncStep_start h hb
  have hmeet : meetBic (shiftSr b s.sync).sr (shiftSr b s.sync) = startBlock (shiftSr b s.sync).sr (shiftSr b s.sync) := by
    have hs : (shiftSr b s.sync).state = .unsynchronized := h
    rw [meetBic, hs]
  rw [bitPipeline_none (by rw [hstep]), hstep, seeBic, hmeet]

/-- A bit that completes a frame: the frame is validated, and synchronisation is lost whatever the answer
(R235, R236, R238). -/
theorem syncStep_completes {s : State} {b : Bool} {f : Frame} (h : Completes s b f) :
    syncStep b s.sync = (validate s.sync.bic f, syncAfterFrame (srAfter b s.sync) f s.sync) := by
  obtain ⟨hstate, hcnt, hlast, hbits⟩ := h
  have hframe : setFrameBit 271 (b ^^ scrAt 271) s.sync.frame = f :=
    setFrameBit_eq hlast fun j hj hne => hbits j (by omega)
  have happend : (append b (shiftSr b s.sync)).frame = f := by
    show setFrameBit s.sync.cnt.toNat (b ^^ scrAt (s.sync.cnt.toNat % 304)) s.sync.frame = f
    rw [hcnt]
    exact hframe
  rw [syncStep_finish hstate hcnt, finishBlock, happend]
  exact congrArg (fun g => (validate s.sync.bic f, syncAfterFrame (srAfter b s.sync) g s.sync)) happend

/-- A bit that completes an error-free frame: the block is driven and routed in the same step (R125, R236, R239). -/
theorem bitPipeline_errorFree {s : State} {b : Bool} {f : Frame} (h : Completes s b f) (hsyn : syn f = 0#82) :
    bitPipeline b s = reassemble (infoOf f)
      (emitL2 s.sync.bic f none { s with sync := syncAfterFrame (srAfter b s.sync) f s.sync }) := by
  have hstep := syncStep_completes h
  rw [validate_zero hsyn] at hstep
  rw [bitPipeline_some (by rw [hstep]), hstep]

/-! ### Error-free frames (R153, R158) -/

/-- A register fed its own top bit only shifts. -/
@[simp] theorem crcBit_msb {W : Nat} (p r : BitVec W) : crcBit p r r.msb = r <<< 1 := by
  simp [crcBit]

/-- A register fed its own first `k` bits has shifted them out. -/
theorem foldl_crcBit_own_bits {W : Nat} (p r : BitVec W) (k : Nat) :
    ((List.range k).map (bitAt r)).foldl (crcBit p) r = r <<< k := by
  induction k with
  | zero => simp
  | succ k ih =>
    have hmsb : bitAt r k = (r <<< k).msb := by simp [bitAt, BitVec.msb, BitVec.getMsbD_shiftLeft]
    rw [List.range_succ, List.map_append, List.foldl_append, ih, List.map_singleton, List.foldl_cons, List.foldl_nil,
      hmsb, crcBit_msb, ← BitVec.shiftLeft_add]

/-- A sequence followed by its own CRC has CRC 0 (R153, R158). -/
theorem crc_append_crc {W : Nat} (p : BitVec W) (f : List Bool) : crc p (f ++ seqOf (crc p f)) = 0#W := by
  rw [crc_append, seqOf, foldl_crcBit_own_bits, BitVec.shiftLeft_eq_zero (Nat.le_refl W)]

/-- An encoded frame is a codeword (R158). -/
theorem syn_encodeFrame (info : Info) : syn (encodeFrame info) = 0#82 := by
  have hseq : seqOf (encodeFrame info) = seqOf (withCrc14 info) ++ seqOf (crc82 (seqOf (withCrc14 info))) :=
    seqOf_append _ _
  rw [syn, hseq]
  exact crc_append_crc _ _

theorem infoOf_encodeFrame (info : Info) : infoOf (encodeFrame info) = info :=
  calc msb (encodeFrame info) 0 176
    _ = msb (withCrc14 info) 0 176 := msb_append_left _ _ (by decide)
    _ = msb info 0 176 := msb_append_left _ _ (by decide)
    _ = info := msb_self info

/-! ### Placed table words (log 11) -/

/-- The state in which a placed bit is presented: `placeBit` makes it accept BIT commands. -/
def acceptingBits (s : State) : State :=
  { s with
    cfg := { s.cfg with mode := .bits }
    status := { s.status with cfgErr := false, eos := false } }

theorem step_placeCmd (w : CmdWord) (s : State) : step (placeCmd w s) = exec (decodeCmd w) s :=
  step_cons rfl

theorem step_placeBit (b : Bool) (s : State) :
    step (placeBit b s) = .next (driveStatus (bitPipeline b (beginStep (acceptingBits s)))) := by
  show step (placeCmd _ (acceptingBits s)) = _
  rw [step_placeCmd, decodeCmd_encode_bit]
  exact execBit_accepted rfl b

/-- A word split into its upper bits and its last bit is put together by the register's shift (R231). -/
theorem shiftLeft_or_lastBit (v : BicWord) : (v >>> 1) <<< 1 ||| (BitVec.ofBool (v.getLsbD 0)).setWidth 16 = v := by
  refine BitVec.eq_of_getLsbD_eq fun i hi => ?_
  cases i with
  | zero => simp
  | succ i => simp [hi, Nat.add_comm 1]

/-- The state in which `placeBic` presents its bit: searching for a BIC, with `sr` in `SYNC.SR`. -/
def searching (sr : BicWord) (s : State) : State :=
  { s with sync := { s.sync with state := .unsynchronized, sr, cnt := 0#9 } }

/-- A placed BIC runs its row in the register that then holds it. -/
theorem step_placeBic {v : BicWord} {i : Instr} (h : decodeBic v = some i) (s : State) :
    step (placeBic v s) = exec i (beginStep (acceptingBits (searching v s))) := by
  have hshift : shiftSr (v.getLsbD 0) (beginStep (acceptingBits (searching (v >>> 1) s))).sync = (searching v s).sync :=
    congrArg (fun sr => (searching sr s).sync) (shiftLeft_or_lastBit v)
  obtain ⟨hbic, hexec⟩ := exec_decodeBic h (beginStep (acceptingBits (searching v s)))
  show step (placeBit (v.getLsbD 0) (searching (v >>> 1) s)) = _
  rw [hexec, step_placeBit, bitPipeline_bic rfl (by rw [hshift]; exact hbic), hshift]
  rfl

/-- The frame that `placeInfo` leaves one bit short is completed by the bit it presents (R235). -/
theorem completes_placed {s : State} {f : Frame} (hstate : s.sync.state = .filling) (hcnt : s.sync.cnt = 271#9)
    (hframe : s.sync.frame = f &&& ~~~ unitFrame 271) : Completes s (bitAt f 271 ^^ scrAt 271) f := by
  refine ⟨hstate, hcnt, by simp, fun j hj => ?_⟩
  have hunset : setFrameBit 271 false f = s.sync.frame := hframe.symm
  rw [← hunset, bitAt_setFrameBit 271 false f (by omega), if_neg (by omega)]

/-- A placed information field runs its row where its error-free frame has just been driven. -/
theorem step_placeInfo (f : Info) (s : State) : ∃ y, step (placeInfo f s) =
    exec (decodeInfo f) (emitL2 Config.bic1 (encodeFrame f) none { beginStep (acceptingBits s) with sync := y }) := by
  rw [placeInfo, step_placeBit, bitPipeline_errorFree (completes_placed rfl rfl rfl) (syn_encodeFrame f),
    infoOf_encodeFrame]
  exact ⟨_, (exec_decodeInfo f _).symm⟩

/-- Settles O17: the bit that completes a placed word leaves the state in which the word's row runs. -/
theorem placedTableWordsRunNext : Obligations.PlacedTableWordsRunNext := by
  intro s w
  refine ⟨step_placeCmd _ s, fun i hi => ⟨_, step_placeBic hi s, rfl, rfl, rfl, rfl, rfl⟩, ?_⟩
  obtain ⟨y, hy⟩ := step_placeInfo (infoOfHeader w) s
  exact ⟨_, hy, rfl, rfl, rfl, rfl⟩

end Sys2Proof.Machine
end

section
/-! Proofs of the statements about the command step (40_ports.md): what each command answers, which inputs are accepted,
and which outputs a step drives. -/

namespace Sys2Proof.Machine

open Sys2Proof.Statements

/-! ### The status word (R26, R129) -/

@[simp] theorem modeFlag_samples : modeFlag .samples = false := rfl
@[simp] theorem modeFlag_bits : modeFlag .bits = true := rfl
@[simp] theorem syncFlag_unsynchronized : syncFlag .unsynchronized = false := rfl
@[simp] theorem syncFlag_filling : syncFlag .filling = true := rfl

theorem modeFlag_iff {m : InputMode} : modeFlag m = true ↔ m = .bits := beq_iff_eq

theorem syncFlag_iff {st : SyncState} : syncFlag st = true ↔ st = .filling := beq_iff_eq

/-- The bits of a word laid out as `STATUS`, the last part lowest. -/
theorem statusLayout_bits : ∀ mode cmdIgn sync eos cfgErr : Bool,
    let v := 0#3 ++ BitVec.ofBool mode ++ BitVec.ofBool cmdIgn ++ BitVec.ofBool sync ++ BitVec.ofBool eos ++
      BitVec.ofBool cfgErr
    v.getLsbD 0 = cfgErr ∧ v.getLsbD 1 = eos ∧ v.getLsbD 2 = sync ∧ v.getLsbD 3 = cmdIgn ∧ v.getLsbD 4 = mode ∧
      v.toNat < 32 := by
  decide

theorem showsStatus_statusWord (s : State) : ShowsStatus (statusWord s) s := by
  obtain ⟨hcfgErr, heos, hsync, hcmdIgn, hmode, hlt⟩ := statusLayout_bits (modeFlag s.cfg.mode) s.status.cmdIgn
    (syncFlag s.sync.state) s.status.eos s.status.cfgErr
  exact ⟨hcfgErr, heos, (Bool.eq_iff_iff.mp hsync).trans syncFlag_iff, hcmdIgn,
    (Bool.eq_iff_iff.mp hmode).trans modeFlag_iff, hlt⟩

/-- Every step ends by driving `STATUS` with the values after it (R129). -/
theorem step_out_status {s t : State} (h : step s = .next t) : t.out.status = statusWord t := by
  rcases step_cases h with ⟨-, rfl⟩ | ⟨w, rest, u, -, -, rfl⟩ <;> rfl

/-! ### Every step (R120) -/

/-- A step that only drives `STATUS`: no other output keeps its value from the step before (R129). -/
theorem driveStatus_beginStep (s : State) : driveStatus (beginStep s) = driven none none none s := rfl

/-- Every row's meaning is an operation that answers a next state. -/
theorem exec_completes (i : Instr) (s : State) : ∃ t, exec i s = .next t := by
  cases i <;> exact ⟨_, rfl⟩

/-- Settles O7: with a command in front the step runs it, with none it idles. -/
theorem stepRunsTheFirstPresentedCommand : Obligations.StepRunsTheFirstPresentedCommand :=
  ⟨fun _ _ _ hport => step_cons hport, fun s hport => (step_nil hport).trans (congrArg _ (driveStatus_beginStep s))⟩

/-- Settles O9: idling completes, and so does every command. -/
theorem everyStepCompletes : Obligations.EveryStepCompletes := by
  intro s
  cases hport : s.port with
  | nil => exact ⟨_, step_nil hport⟩
  | cons w rest =>
    rw [step_cons hport]
    exact exec_completes _ _

/-! ### Commands that are no input (R121, R122, R123, R126, R127) -/

/-- Settles O8: the effect of each command, between the start and the end of a step, is the one field it names. -/
theorem nopEosAndReservedCommands : Obligations.NopEosAndReservedCommands :=
  fun _ => ⟨rfl, rfl, fun _ => rfl, fun _ => rfl⟩

/-- Every flag is 0 after a reset (R26, R49). -/
@[simp] theorem statusWord_resetState (s : State) : statusWord (resetState s) = 0x00#8 := by
  simp [statusWord]

/-- What RESET answers, in every field (R122). -/
theorem exec_reset (s : State) : exec .reset s = .next { State.reset with port := s.port } := by
  have hdriven : driveStatus (resetState s) = resetState s :=
    congrArg (fun v => { resetState s with out := { State.reset.out with status := v } }) (statusWord_resetState s)
  exact congrArg Host.Outcome.next hdriven

/-- Settles O10: the answer is the reset state but for the port, so its frame is the only one it can name. -/
theorem resetLeavesTheResetState : Obligations.ResetLeavesTheResetState :=
  fun s => ⟨_, exec_reset s, rfl⟩

/-- Where the ratio check fails, with the default `F_INT` (R123). -/
theorem ratioLegal_eq_false_iff {fsIn : BitVec 32} : ratioLegal fsIn = false ↔
    fsIn.toNat = 0 ∨ 4 * fsIn.toNat < 256000 ∨ 250 * 256000 < fsIn.toNat := by
  have hlegal : ratioLegal fsIn =
      decide (fsIn.toNat ≠ 0 ∧ 256000 ≤ 4 * fsIn.toNat ∧ fsIn.toNat ≤ 250 * 256000) := rfl
  rw [hlegal, decide_eq_false_iff_not]
  omega

/-- The status word after CONFIG: the mode, and the error in SAMPLES mode (R26, R123). -/
theorem statusWord_configure (mode : InputMode) (fsIn : BitVec 32) (s : State) :
    statusWord (configure mode fsIn s) =
      if mode = .bits then 0x10#8 else if ratioLegal fsIn = false then 0x01#8 else 0x00#8 := by
  cases mode with
  | bits => simp [configure, statusWord]
  | samples => cases hlegal : ratioLegal fsIn <;> simp [configure, hlegal, statusWord]

/-- CONFIG drives no output of its own (R123, R129). -/
@[simp] theorem configure_out (mode : InputMode) (fsIn : BitVec 32) (s : State) :
    (configure mode fsIn s).out = State.reset.out := by
  rw [configure_eq]

/-- What CONFIG answers, in every field (R123). -/
theorem exec_config (mode : InputMode) (fsIn : BitVec 32) (s : State) :
    exec (.config mode fsIn) s = .next { State.reset with
      cfg := { fsIn, mode }
      status := { State.reset.status with cfgErr := mode == .samples && !ratioLegal fsIn }
      out := { State.reset.out with
        status := if mode = .bits then 0x10#8 else if ratioLegal fsIn = false then 0x01#8 else 0x00#8 }
      port := s.port } := by
  show Host.Outcome.next (driveStatus (configure mode fsIn (beginStep s))) = _
  rw [driveStatus, statusWord_configure, configure_eq]
  rfl

/-- Settles O12: in BITS mode nothing is checked; in SAMPLES mode the error is the failing ratio check. -/
theorem configResetsLoadsAndChecks : Obligations.ConfigResetsLoadsAndChecks := by
  intro mode fsIn s bad
  refine ⟨_, exec_config mode fsIn s, ?_⟩
  cases mode with
  | bits => simp [bad]
  | samples =>
    have hbad : bad ↔ ratioLegal fsIn = false := by simp [bad, ratioLegal_eq_false_iff]
    cases hlegal : ratioLegal fsIn <;> simp [hbad, hlegal]

/-! ### Input gating (R128) -/

/-- An input that is not taken is ignored. -/
theorem accepts_eq_false {m : InputMode} {s : State}
    (h : ¬ (s.status.cfgErr = false ∧ s.status.eos = false ∧ s.cfg.mode = m)) : accepts m s = false :=
  Bool.eq_false_iff.mpr (mt accepts_iff.mp h)

/-- Settles O13: an ignored input sets `CMD_IGN` alone, and the pipelines leave the flags as they are. -/
theorem inputGating : Obligations.InputGating := by
  intro s t
  refine ⟨fun x h => execSample_ignored (accepts_eq_false h) x, fun b h => execBit_ignored (accepts_eq_false h) b,
    fun x h => ⟨_, execSample_accepted (accepts_iff.mpr h) x, ?_⟩,
    fun b h => ⟨_, execBit_accepted (accepts_iff.mpr h) b, ?_⟩⟩
  · rw [driveStatus_status, samplePipeline_status, beginStep_status]
  · rw [driveStatus_status, bitPipeline_status, beginStep_status]

/-! ### Which outputs a step drives (R129) -/

/-- Nothing is driven but `STATUS`. -/
def Quiet (o : Outputs) : Prop := o.bit = none ∧ o.l2 = none ∧ o.record = none

/-- A record is driven only with the block it comes from (R129, R239). -/
def RecordWithBlock (o : Outputs) : Prop := o.record.isSome = true → o.l2.isSome = true

theorem beginStep_quiet (s : State) : Quiet (beginStep s).out := ⟨rfl, rfl, rfl⟩

/-- A bit that completes no block drives no record; one that does drives the block. -/
theorem bitPipeline_recordWithBlock (b : Bool) {s : State} (h : s.out.record = none) :
    RecordWithBlock (bitPipeline b s).out := by
  cases ha : (syncStep b s.sync).1 with
  | none => simp [RecordWithBlock, bitPipeline_none ha, h]
  | some a => simp [RecordWithBlock, bitPipeline_some ha]

theorem samplePipeline_recordWithBlock (x : Scalar) {s : State} (h : s.out.record = none) :
    RecordWithBlock (samplePipeline x s).out := by
  cases hb : (demodStep x s.demod).1 with
  | none => simp [RecordWithBlock, samplePipeline_none hb, h]
  | some b =>
    rw [samplePipeline_some hb]
    exact bitPipeline_recordWithBlock b h

/-- What a command drives on a state that drives nothing yet: only an accepted input drives anything, and a `BIT` no
bit. -/
theorem CommandEffect.outputs {w : CmdWord} {s u : State} (he : CommandEffect w s u) (hs : Quiet s.out) :
    Quiet u.out ∨
    (∃ x, decodeCmd w = .sample x ∧ TakesSamples s ∧ RecordWithBlock u.out) ∨
    (∃ b, decodeCmd w = .bit b ∧ TakesBits s ∧ u.out.bit = none ∧ RecordWithBlock u.out) := by
  have hquiet := hs
  obtain ⟨hbit, -, hrecord⟩ := hs
  cases he with
  | nothing _ => exact .inl hquiet
  | reset _ => exact .inl ⟨rfl, rfl, rfl⟩
  | configured m f _ => exact .inl (by simp [Quiet])
  | sampled x hdecode haccepts =>
    exact .inr (.inl ⟨x, hdecode, accepts_iff.mp haccepts, samplePipeline_recordWithBlock _ hrecord⟩)
  | received b hdecode haccepts =>
    exact .inr (.inr ⟨b, hdecode, accepts_iff.mp haccepts, by rw [bitPipeline_out_bit, hbit],
      bitPipeline_recordWithBlock b hrecord⟩)
  | ended _ => exact .inl hquiet
  | ignored _ _ => exact .inl hquiet

/-- What a step on a presented command drives (R129). -/
theorem step_outputs {s t : State} {w : CmdWord} {rest : List CmdWord} (hport : s.port = w :: rest)
    (h : step s = .next t) :
    Quiet t.out ∨
    (∃ x, decodeCmd w = .sample x ∧ TakesSamples s ∧ RecordWithBlock t.out) ∨
    (∃ b, decodeCmd w = .bit b ∧ TakesBits s ∧ t.out.bit = none ∧ RecordWithBlock t.out) := by
  rcases step_cases h with ⟨hnil, -⟩ | ⟨w', rest', u, hport', heffect, rfl⟩
  · rw [hport] at hnil
    cases hnil
  rw [hport] at hport'
  cases hport'
  exact heffect.outputs (beginStep_quiet _)

/-- Settles O14: the status word is read bit by bit, and the other outputs by what the command can drive. -/
theorem outputsComeFromAcceptedInputs : Obligations.OutputsComeFromAcceptedInputs := by
  refine ⟨showsStatus_statusWord, fun s t hstep => ?_, fun s t w rest hport hstep => ?_⟩
  · rw [step_out_status hstep]
    exact showsStatus_statusWord t
  · rcases step_outputs hport hstep with
      ⟨hbit, hl2, hrecord⟩ | ⟨x, hdecode, htakes, hblock⟩ | ⟨b, hdecode, htakes, hbit, hblock⟩
    · simp [hbit, hl2, hrecord]
    · exact ⟨fun _ => ⟨x, hdecode, htakes⟩, fun _ => .inl ⟨x, hdecode, htakes⟩, hblock⟩
    · exact ⟨by simp [hbit], fun _ => .inr ⟨b, hdecode, htakes⟩, hblock⟩

end Sys2Proof.Machine
end

section
/-! Proofs of the statements about the utilities and the code (41_bitutil_crc.md): bytes and bits, the CRC engine as
polynomial division, encoded frames, scrambling, and how many flipped bits the syndrome tells apart. -/

namespace Sys2Proof.Machine

open Sys2Proof.Statements

/-! ### Bytes and bits (R151) -/

/-- A field as a list. -/
theorem seqOf_msb {n : Nat} (f : BitVec n) {off w : Nat} (h : off + w ≤ n) :
    seqOf (msb f off w) = (List.range w).map fun i => bitAt f (off + i) :=
  List.map_congr_left fun _ hi => bitAt_msb f h (List.mem_range.mp hi)

/-- Reading `k` groups of eight positions is reading `8 * k` positions. -/
theorem flatMap_range_eight {α : Type} (g : Nat → α) (k : Nat) :
    ((List.range k).flatMap fun j => (List.range 8).map fun i => g (8 * j + i)) = (List.range (8 * k)).map g := by
  induction k with
  | zero => rfl
  | succ k ih =>
    rw [List.range_succ (n := k), List.flatMap_append, ih, Nat.mul_succ, List.range_add, List.map_append, List.map_map]
    simp

theorem bitsOf_bytesOf (k : Nat) (f : BitVec (8 * k)) : bitsOf (bytesOf f) = seqOf f := by
  have hbyte : ∀ j ∈ List.range k, seqOf (msb f (8 * j) 8) = (List.range 8).map fun i => bitAt f (8 * j + i) :=
    fun j hj => seqOf_msb f (by have := List.mem_range.mp hj; omega)
  rw [bitsOf, bytesOf, Nat.mul_div_cancel_left k (by decide), List.flatMap_map, List.flatMap_congr hbyte,
    flatMap_range_eight, seqOf]

@[simp] theorem beNat_append_byte (bytes : List Byte) (b : Byte) :
    beNat (bytes ++ [b]) = beNat bytes * 256 + b.toNat := by
  simp [beNat]

theorem beNat_lt (bytes : List Byte) : beNat bytes < 2 ^ (8 * bytes.length) := by
  induction bytes using List.reverseRecOn with
  | nil => decide
  | append_singleton bytes b ih =>
    have hb := b.isLt
    rw [beNat_append_byte, List.length_append, List.length_singleton, Nat.mul_add 8, Nat.pow_add]
    omega

/-- Byte `j` is the digit of its weight, the last byte having weight 1 (R67). -/
theorem beNat_digit (bytes : List Byte) {j : Nat} (hj : j < bytes.length) :
    beNat bytes / 2 ^ (8 * bytes.length - 8 * j - 8) % 256 = bytes[j].toNat := by
  induction bytes using List.reverseRecOn with
  | nil => cases hj
  | append_singleton bytes b ih =>
    have hb := b.isLt
    rw [beNat_append_byte, List.getElem_append]
    simp only [List.length_append, List.length_singleton] at hj ⊢
    split
    · next hlt =>
      rw [← ih hlt, show 8 * (bytes.length + 1) - 8 * j - 8 = 8 + (8 * bytes.length - 8 * j - 8) by omega, Nat.pow_add,
        ← Nat.div_div_eq_div_mul, show (beNat bytes * 256 + b.toNat) / 2 ^ 8 = beNat bytes by omega]
    · next hlast =>
      rw [show 8 * (bytes.length + 1) - 8 * j - 8 = 0 by omega]
      simp
      omega

theorem bytesOf_beNat (bytes : List Byte) : bytesOf (BitVec.ofNat (8 * bytes.length) (beNat bytes)) = bytes := by
  refine List.ext_getElem (by simp) fun j h hj => BitVec.eq_of_toNat_eq ?_
  simp only [bytesOf, List.getElem_map, List.getElem_range, msb, BitVec.extractLsb'_toNat, BitVec.toNat_ofNat,
    Nat.mod_eq_of_lt (beNat_lt bytes), Nat.shiftRight_eq_div_pow]
  exact beNat_digit bytes hj

/-- Settles O18: byte `j` holds the positions from `8 * j` on, and of a number it is the digit of that weight. -/
theorem bytesAndBitsAreInverse : Obligations.BytesAndBitsAreInverse := by
  refine ⟨bitsOf_bytesOf, ?_⟩
  intro bytes f
  have hbytes : bytesOf f = bytes := bytesOf_beNat bytes
  exact ⟨by rw [← bitsOf_bytesOf, hbytes], hbytes⟩

/-! ### The CRC engine as polynomial division (R153) -/

section

open Polynomial

/-- The coefficient a bit stands for. -/
noncomputable def bitCoeff (b : Bool) : (ZMod 2)[X] := C (if b then 1 else 0)

@[simp] theorem bitCoeff_false : bitCoeff false = 0 := by simp [bitCoeff]

@[simp] theorem bitCoeff_true : bitCoeff true = 1 := by simp [bitCoeff]

theorem bitCoeff_xor (a b : Bool) : bitCoeff (a ^^ b) = bitCoeff a + bitCoeff b := by
  cases a <;> cases b <;> simp [CharTwo.add_self_eq_zero]

@[simp] theorem bitsPoly_nil : bitsPoly [] = 0 := rfl

theorem bitsPoly_append_bit (f : List Bool) (b : Bool) : bitsPoly (f ++ [b]) = bitsPoly f * X + bitCoeff b := by
  simp [bitsPoly, bitCoeff]

/-- The first bit has the highest power. -/
theorem bitsPoly_cons (b : Bool) (f : List Bool) : bitsPoly (b :: f) = bitCoeff b * X ^ f.length + bitsPoly f := by
  induction f using List.reverseRecOn with
  | nil => simp [bitsPoly, bitCoeff]
  | append_singleton f a ih =>
    rw [← List.cons_append, bitsPoly_append_bit, ih, bitsPoly_append_bit, List.length_append, List.length_singleton]
    ring

/-- A bitwise exclusive or is a sum. -/
theorem bitsPoly_zipWith_xor (f g : List Bool) (h : f.length = g.length) :
    bitsPoly (List.zipWith (fun a b => a ^^ b) f g) = bitsPoly f + bitsPoly g := by
  induction f generalizing g with
  | nil => cases g with
    | nil => simp
    | cons b g => cases h
  | cons a f ih => cases g with
    | nil => cases h
    | cons b g =>
      have hlen : f.length = g.length := Nat.succ.inj h
      rw [List.zipWith_cons_cons, bitsPoly_cons, bitsPoly_cons, bitsPoly_cons, ih g hlen, bitCoeff_xor,
        List.length_zipWith, hlen, Nat.min_self]
      ring

theorem bitsPoly_degree_lt (f : List Bool) : (bitsPoly f).degree < f.length := by
  induction f with
  | nil => simp
  | cons b f ih =>
    have hlt : (f.length : WithBot Nat) < (f.length + 1 : Nat) := by exact_mod_cast Nat.lt_succ_self _
    rw [bitsPoly_cons, List.length_cons]
    exact (degree_add_le _ _).trans_lt (max_lt ((degree_C_mul_X_pow_le _ _).trans_lt hlt) (ih.trans hlt))

variable {W : Nat}

@[simp] theorem bitsPoly_seqOf_zero : bitsPoly (seqOf (0#W)) = 0 := by
  have hself := bitsPoly_zipWith_xor (seqOf (0#W)) (seqOf (0#W)) rfl
  rwa [← seqOf_xor, BitVec.xor_self, CharTwo.add_self_eq_zero] at hself

theorem bitsPoly_seqOf_xor (r r' : BitVec W) :
    bitsPoly (seqOf (r ^^^ r')) = bitsPoly (seqOf r) + bitsPoly (seqOf r') := by
  rw [seqOf_xor, bitsPoly_zipWith_xor _ _ (by simp)]

theorem bitsPoly_seqOf_degree_lt (r : BitVec W) : (bitsPoly (seqOf r)).degree < W := by
  simpa using bitsPoly_degree_lt (seqOf r)

/-- Shifting a word drops its first bit and brings in a zero. -/
theorem seqOf_shiftLeft_one {n : Nat} (r : BitVec (n + 1)) :
    ∃ rest : List Bool, seqOf r = r.msb :: rest ∧ seqOf (r <<< 1) = rest ++ [false] := by
  refine ⟨(List.range n).map fun i => bitAt r (i + 1), ?_, ?_⟩
  · rw [seqOf, List.range_succ_eq_map, List.map_cons, List.map_map]
    rfl
  · have hlast : bitAt (r <<< 1) n = false := by simp [bitAt, BitVec.getMsbD_shiftLeft]
    rw [seqOf, List.range_succ, List.map_append, List.map_singleton, hlast]
    congr 1
    refine List.map_congr_left fun i hi => ?_
    have hlt : i < n := List.mem_range.mp hi
    simp [bitAt, BitVec.getMsbD_shiftLeft]

/-- Shifting a word is multiplying by x, without the power that leaves the word. -/
theorem bitsPoly_seqOf_mul_X (hW : 0 < W) (r : BitVec W) :
    bitsPoly (seqOf r) * X = bitCoeff r.msb * X ^ W + bitsPoly (seqOf (r <<< 1)) := by
  obtain ⟨n, rfl⟩ : ∃ n, W = n + 1 := ⟨W - 1, by omega⟩
  obtain ⟨rest, hr, hshift⟩ := seqOf_shiftLeft_one r
  have hlen : rest.length = n := by simpa [hr] using seqOf_length r
  rw [hr, hshift, bitsPoly_cons, bitsPoly_append_bit, bitCoeff_false, hlen]
  ring

/-- The generator of an engine: x^W and the low part `p`. -/
noncomputable def generator (p : BitVec W) : (ZMod 2)[X] := X ^ W + bitsPoly (seqOf p)

theorem generator_monic (p : BitVec W) : (generator p).Monic := monic_X_pow_add (bitsPoly_seqOf_degree_lt p)

theorem generator_degree (p : BitVec W) : (generator p).degree = W := by
  have hlow : (bitsPoly (seqOf p)).degree < (X ^ W : (ZMod 2)[X]).degree := by
    rw [degree_X_pow]
    exact bitsPoly_seqOf_degree_lt p
  rw [generator, degree_add_eq_left_of_degree_lt hlow, degree_X_pow]

theorem bitsPoly_crcBit (p r : BitVec W) (b : Bool) : bitsPoly (seqOf (crcBit p r b)) =
    bitsPoly (seqOf (r <<< 1)) + bitCoeff (r.msb ^^ b) * bitsPoly (seqOf p) := by
  cases hfeedback : r.msb ^^ b <;> simp [crcBit, hfeedback, bitsPoly_seqOf_xor]

/-- One step multiplies the register by x and adds the bit at x^W, up to a multiple of the generator. -/
theorem mul_X_add_sub_bitsPoly_crcBit (hW : 0 < W) (p r : BitVec W) (b : Bool) :
    bitsPoly (seqOf r) * X + bitCoeff b * X ^ W - bitsPoly (seqOf (crcBit p r b)) =
      bitCoeff (r.msb ^^ b) * generator p := by
  have hneg : -bitsPoly (seqOf p) = bitsPoly (seqOf p) := CharTwo.neg_eq _
  rw [bitsPoly_seqOf_mul_X hW, bitsPoly_crcBit, bitCoeff_xor, generator]
  linear_combination (bitCoeff r.msb + bitCoeff b) * hneg

/-- The sequence times x^W and the register differ by a multiple of the generator. -/
theorem generator_dvd (hW : 0 < W) (p : BitVec W) (f : List Bool) :
    generator p ∣ bitsPoly f * X ^ W - bitsPoly (seqOf (crc p f)) := by
  induction f using List.reverseRecOn with
  | nil => simp
  | append_singleton f b ih =>
    have hstep : bitsPoly (f ++ [b]) * X ^ W - bitsPoly (seqOf (crc p (f ++ [b]))) =
        (bitsPoly f * X ^ W - bitsPoly (seqOf (crc p f))) * X + bitCoeff ((crc p f).msb ^^ b) * generator p := by
      rw [crc_append_bit, bitsPoly_append_bit, ← mul_X_add_sub_bitsPoly_crcBit hW]
      ring
    rw [hstep]
    exact dvd_add (ih.mul_right X) (Dvd.intro_left _ rfl)

theorem bitsPoly_crc (hW : 0 < W) (p : BitVec W) (f : List Bool) :
    bitsPoly (seqOf (crc p f)) = (bitsPoly f * X ^ W) %ₘ generator p := by
  have hreduced : bitsPoly (seqOf (crc p f)) %ₘ generator p = bitsPoly (seqOf (crc p f)) := by
    rw [modByMonic_eq_self_iff (generator_monic p), generator_degree]
    exact bitsPoly_seqOf_degree_lt _
  rw [modByMonic_eq_of_dvd_sub (generator_monic p) (generator_dvd hW p f), hreduced]

end

theorem crc_zipWith_xor {W : Nat} (p : BitVec W) {f g : List Bool} (h : f.length = g.length) :
    crc p (List.zipWith (fun a b => a ^^ b) f g) = crc p f ^^^ crc p g := by
  have hlinear := foldl_crcBit_xor p f g h 0#W 0#W
  rwa [BitVec.xor_self] at hlinear

/-- Settles O19: each step keeps the register congruent to the bits so far, and below the generator's degree. -/
theorem crcIsThePolynomialRemainder : Obligations.CrcIsThePolynomialRemainder :=
  fun _ p hW => ⟨bitsPoly_crc hW p, foldl_crcBit_zero p, fun _ _ => crc_zipWith_xor p⟩

/-! ### Encoded frames (R158) -/

/-- The second part of a concatenation. -/
theorem msb_append_right {m n : Nat} (f : BitVec m) (g : BitVec n) : msb (f ++ g) m n = g := by
  refine eq_of_bitAt fun i hi => ?_
  rw [bitAt_msb _ (Nat.le_refl _) hi, bitAt_append, if_neg (by omega), Nat.add_sub_cancel_left]

/-- Settles O20: the parts are read back where they were put, and a sequence with its own CRC has CRC 0. -/
theorem encodedFramesAreCodewords : Obligations.EncodedFramesAreCodewords := by
  intro info f
  have hmessage : msb f 0 190 = withCrc14 info := (msb_append_left _ _ (by decide)).trans (msb_self _)
  have hcrc : msb f 176 14 = crc14 (seqOf info) := (msb_append_left _ _ (by decide)).trans (msb_append_right _ _)
  have hparity : msb f 190 82 = crc82 (seqOf (withCrc14 info)) := msb_append_right _ _
  exact ⟨infoOf_encodeFrame info, hcrc, hmessage ▸ hparity, syn_encodeFrame info⟩

/-! ### Scrambling (R170, R172) -/

theorem bitAt_scramble (f : Frame) {i : Nat} (hi : i < 272) : bitAt (scramble f) i = (bitAt f i ^^ scrAt i) := by
  rw [scramble, bitAt_xor, bitAt_msb _ (by decide) hi, Nat.zero_add, scrAt]

theorem scramble_scramble (f : Frame) : scramble (scramble f) = f := by
  rw [scramble, scramble, BitVec.xor_assoc, BitVec.xor_self, BitVec.xor_zero]

theorem scrAt_seed : ∀ k < 9, scrAt k = (0x1FF#9).getLsbD (8 - k) := by decide +kernel

theorem scrAt_recurrence : ∀ k < 304, 9 ≤ k → scrAt k = (scrAt (k - 5) ^^ scrAt (k - 9)) := by decide +kernel

/-- Settles O24: seed and recurrence are facts about the constant; scrambling is an exclusive or with it. -/
theorem scramblingSequenceAndInverse : Obligations.ScramblingSequenceAndInverse :=
  ⟨rfl, scrAt_seed, scrAt_recurrence, fun f => ⟨scramble_scramble f, fun _ => bitAt_scramble f⟩⟩

/-! ### Table entries as powers of x (R157, R160) -/

/-- The register after `n` zero bits: x^n times it, modulo `G82`. -/
def timesX (n : Nat) (r : BitVec 82) : BitVec 82 := (List.replicate n false).foldl (crcBit Config.g82) r

theorem timesX_add (m n : Nat) (r : BitVec 82) : timesX (m + n) r = timesX n (timesX m r) := by
  simp only [timesX, List.replicate_add, List.foldl_append]

@[simp] theorem timesX_zero (n : Nat) : timesX n 0#82 = 0#82 := foldl_crcBit_zero _ n

theorem timesX_xor (n : Nat) (r r' : BitVec 82) : timesX n (r ^^^ r') = timesX n r ^^^ timesX n r' := by
  have h := foldl_crcBit_xor Config.g82 (List.replicate n false) (List.replicate n false) rfl r r'
  rwa [List.zipWith_replicate', Bool.xor_false] at h

/-- `G82` divides x^273 + 1 (R157). -/
theorem timesX_period : timesX 273 1#82 = 1#82 := by decide +kernel

theorem timesX_mod (n : Nat) : timesX n 1#82 = timesX (n % 273) 1#82 := by
  have hperiods : ∀ q, timesX (273 * q) 1#82 = 1#82 := by
    intro q
    induction q with
    | zero => rfl
    | succ q ih => rw [Nat.mul_succ, timesX_add, ih, timesX_period]
  calc timesX n 1#82
    _ = timesX (273 * (n / 273) + n % 273) 1#82 := by rw [Nat.div_add_mod]
    _ = timesX (n % 273) 1#82 := by rw [timesX_add, hperiods]

theorem zeroRun_eq_map (n : Nat) (r : BitVec 82) : zeroRun n r = (List.range n).map (timesX · r) := by
  induction n generalizing r with
  | zero => rfl
  | succ n ih =>
    rw [List.range_succ_eq_map, List.map_cons, List.map_map, zeroRun, ih]
    rfl

/-- Bit `i` of a frame stands for x^(271-i), which the engine multiplies by x^82. -/
theorem romSyn_eq_timesX {i : Nat} (hi : i < 272) : romSyn i = timesX (353 - i) 1#82 := by
  have hone : crcBit Config.g82 0#82 true = timesX 82 1#82 := by decide +kernel
  rw [romSyn_eq_foldl hi, hone, show 353 - i = 82 + (271 - i) by omega, timesX_add]
  rfl

/-! ### The difference set

With `G82` the code of length 273 is the difference-set code: the powers of x in a perfect difference set of 17 residues
modulo 273 make a parity check, and so do their shifts. Of the shifts that check one flipped bit, each other bit is
checked by one only; so while fewer than 17 others are flipped, some check sees the one flip alone and fails. -/

/-- A perfect difference set modulo 273. -/
def differenceSet : List Nat := [5, 10, 20, 39, 40, 47, 78, 80, 91, 94, 103, 139, 156, 160, 182, 188, 206]

/-- The residue of `n` modulo 273 is in the set; the word has the set's bits. -/
def inSet (n : Nat) : Bool := (0x4000104000011000080000000080480140000000818000100420#273).getLsbD (n % 273)

theorem inSet_congr {m n : Nat} (h : m % 273 = n % 273) : inSet m = inSet n := by
  rw [inSet, h, inSet]

theorem inSet_of_mem : ∀ d ∈ differenceSet, inSet d = true := by decide +kernel

/-- Every non-zero residue is the difference of two elements in one way. -/
theorem differenceSet_perfect : ∀ δ < 273, δ ≠ 0 → (differenceSet.filter fun d => inSet (d + δ)).length = 1 := by
  decide +kernel

theorem differenceSet_unique {δ d d' : Nat} (hlt : δ < 273) (hne : δ ≠ 0) (hd : d ∈ differenceSet)
    (hs : inSet (d + δ) = true) (hd' : d' ∈ differenceSet) (hs' : inSet (d' + δ) = true) : d = d' := by
  obtain ⟨a, ha⟩ := List.length_eq_one_iff.mp (differenceSet_perfect δ hlt hne)
  have hmem {e : Nat} (he : e ∈ differenceSet) (h : inSet (e + δ) = true) : e = a := by
    rw [← List.mem_singleton, ← ha, List.mem_filter]
    exact ⟨he, h⟩
  rw [hmem hd hs, hmem hd' hs']

/-- Fewer than 17 differences leave an element that none of them takes into the set. -/
theorem exists_mem_avoiding {l : List Nat} (hl : ∀ δ ∈ l, δ < 273 ∧ δ ≠ 0) (hlen : l.length < 17) :
    ∃ d ∈ differenceSet, ∀ δ ∈ l, inSet (d + δ) = false := by
  by_contra hnone
  have htaken : ∀ d ∈ differenceSet.toFinset, ∃ δ ∈ l.toFinset, inSet (d + δ) = true := by
    simpa only [not_exists, not_and, not_forall, Bool.not_eq_false, exists_prop, List.mem_toFinset] using hnone
  have hcard : differenceSet.toFinset.card ≤ l.toFinset.card := by
    refine Finset.card_le_card_of_forall_subsingleton _ htaken fun δ hδ d hd d' hd' => ?_
    obtain ⟨hlt, hne⟩ := hl δ (List.mem_toFinset.mp hδ)
    exact differenceSet_unique hlt hne (List.mem_toFinset.mp hd.1) hd.2 (List.mem_toFinset.mp hd'.1) hd'.2
  have hsize : differenceSet.toFinset.card = 17 := by decide
  have hl' := l.toFinset_card_le
  omega

/-- Some shift of the set takes in the power of one frame bit and of none of fewer than 17 others. -/
theorem exists_separating_shift {i : Nat} (hi : i < 272) {others : List Nat} (hothers : ∀ j ∈ others, j < 272)
    (hne : i ∉ others) (hlen : others.length < 17) :
    ∃ s, inSet (353 - i + s) = true ∧ ∀ j ∈ others, inSet (353 - j + s) = false := by
  have hdiff : ∀ δ ∈ others.map (fun j => (273 + i - j) % 273), δ < 273 ∧ δ ≠ 0 := by
    intro δ hδ
    obtain ⟨j, hj, rfl⟩ := List.mem_map.mp hδ
    have hij : i ≠ j := fun h => hne (h ▸ hj)
    have := hothers j hj
    omega
  obtain ⟨d, hd, havoids⟩ := exists_mem_avoiding hdiff (by simpa using hlen)
  refine ⟨d + i + 193, ?_, fun j hj => ?_⟩
  · rw [inSet_congr (n := d) (by omega)]
    exact inSet_of_mem d hd
  · have := hothers j hj
    rw [inSet_congr (n := d + (273 + i - j) % 273) (by omega)]
    exact havoids _ (List.mem_map_of_mem hj)

/-! ### The parity check of the set -/

/-- The parity of the register's coefficients at the powers in the set. -/
def parityCheck (r : BitVec 82) : Bool := differenceSet.foldr (fun k acc => r.getLsbD k ^^ acc) false

@[simp] theorem parityCheck_zero : parityCheck 0#82 = false := by decide

theorem parityCheck_xor (r r' : BitVec 82) : parityCheck (r ^^^ r') = (parityCheck r ^^ parityCheck r') := by
  unfold parityCheck
  induction differenceSet with
  | nil => rfl
  | cons k ks ih =>
    rw [List.foldr_cons, ih, BitVec.getLsbD_xor]
    simp only [List.foldr_cons, Bool.xor_assoc, Bool.xor_left_comm]

/-- The check over one period of the powers of x. -/
theorem parityCheck_zeroRun : (zeroRun 273 1#82).map parityCheck = (List.range 273).map inSet := by decide +kernel

/-- The check holds of a power of x exactly when the set has its exponent. -/
theorem parityCheck_timesX (n : Nat) : parityCheck (timesX n 1#82) = inSet n := by
  have hperiod := parityCheck_zeroRun
  rw [zeroRun_eq_map, List.map_map, List.map_inj_left] at hperiod
  rw [timesX_mod, inSet_congr (Nat.mod_mod n 273).symm]
  exact hperiod _ (List.mem_range.mpr (Nat.mod_lt n (by decide)))

theorem parityCheck_timesX_romSyn {i : Nat} (hi : i < 272) (s : Nat) :
    parityCheck (timesX s (romSyn i)) = inSet (353 - i + s) := by
  rw [romSyn_eq_timesX hi, ← timesX_add, parityCheck_timesX]

/-! ### Flipped bits (R161) -/

/-- A frame with the bits at these positions flipped. -/
def flipBits (l : List Nat) (c : Frame) : Frame := l.foldl (fun f i => f ^^^ unitFrame i) c

/-- What flips at these positions do to the syndrome. -/
def flipSyndrome (l : List Nat) : BitVec 82 := l.foldr (fun i acc => romSyn i ^^^ acc) 0#82

@[simp] theorem flipSyndrome_nil : flipSyndrome [] = 0#82 := rfl

@[simp] theorem flipSyndrome_cons (i : Nat) (l : List Nat) :
    flipSyndrome (i :: l) = romSyn i ^^^ flipSyndrome l := rfl

theorem syn_flipBits (l : List Nat) (c : Frame) : syn (flipBits l c) = syn c ^^^ flipSyndrome l := by
  induction l generalizing c with
  | nil => simp [flipBits]
  | cons i l ih =>
    calc syn (flipBits l (c ^^^ unitFrame i))
      _ = syn c ^^^ romSyn i ^^^ flipSyndrome l := by rw [ih, syn_xor, romSyn]
      _ = syn c ^^^ flipSyndrome (i :: l) := by rw [flipSyndrome_cons, BitVec.xor_assoc]

/-- Flipping a bit back. -/
theorem flipSyndrome_erase {l : List Nat} {i : Nat} (h : i ∈ l) :
    flipSyndrome (l.erase i) = romSyn i ^^^ flipSyndrome l := by
  have hperm : flipSyndrome l = flipSyndrome (i :: l.erase i) :=
    (List.perm_cons_erase h).foldr_eq' (fun _ _ _ _ _ => by ac_rfl) _
  rw [hperm, flipSyndrome_cons, ← BitVec.xor_assoc, BitVec.xor_self, BitVec.zero_xor]

/-- A shift of the set that takes in none of the flips sees nothing. -/
theorem parityCheck_flipSyndrome_eq_false {s : Nat} {l : List Nat} (hl : ∀ i ∈ l, i < 272)
    (hs : ∀ i ∈ l, inSet (353 - i + s) = false) : parityCheck (timesX s (flipSyndrome l)) = false := by
  induction l with
  | nil => simp
  | cons i l ih =>
    obtain ⟨hi, hl⟩ := List.forall_mem_cons.mp hl
    obtain ⟨hsi, hs⟩ := List.forall_mem_cons.mp hs
    rw [flipSyndrome_cons, timesX_xor, parityCheck_xor, parityCheck_timesX_romSyn hi, hsi, ih hl hs, Bool.xor_self]

/-- Between 1 and 17 flips of different bits change the syndrome: a shifted check sees exactly one of them. -/
theorem flipSyndrome_ne_zero {l : List Nat} (hpos : 0 < l.length) (hlen : l.length ≤ 17) (hl : ∀ i ∈ l, i < 272)
    (hnodup : l.Nodup) : flipSyndrome l ≠ 0#82 := by
  cases l with
  | nil => cases hpos
  | cons i others =>
    obtain ⟨hi, hothers⟩ := List.forall_mem_cons.mp hl
    obtain ⟨s, hs, hrest⟩ := exists_separating_shift hi hothers (List.nodup_cons.mp hnodup).1 hlen
    have hodd : parityCheck (timesX s (flipSyndrome (i :: others))) = true := by
      rw [flipSyndrome_cons, timesX_xor, parityCheck_xor, parityCheck_timesX_romSyn hi, hs,
        parityCheck_flipSyndrome_eq_false hothers hrest, Bool.xor_false]
    intro hzero
    rw [hzero, timesX_zero, parityCheck_zero] at hodd
    cases hodd

/-- Between 2 and 16 flips look like no single flip: one flip more or one undone would leave syndrome 0. -/
theorem romSyn_ne_flipSyndrome {l : List Nat} (htwo : 2 ≤ l.length) (hlen : l.length ≤ 16) (hl : ∀ i ∈ l, i < 272)
    (hnodup : l.Nodup) {m : Nat} (hm : m < 272) : romSyn m ≠ flipSyndrome l := by
  intro heq
  by_cases hmem : m ∈ l
  · have herased : (l.erase m).length = l.length - 1 := List.length_erase_of_mem hmem
    exact flipSyndrome_ne_zero (by omega) (by omega) (fun i hi => hl i (List.mem_of_mem_erase hi)) (hnodup.erase m)
      (by rw [flipSyndrome_erase hmem, heq, BitVec.xor_self])
  · exact flipSyndrome_ne_zero (l := m :: l) (Nat.succ_pos _) (Nat.succ_le_succ hlen)
      (List.forall_mem_cons.mpr ⟨hm, hl⟩) (List.nodup_cons.mpr ⟨hmem, hnodup⟩) (by rw [flipSyndrome_cons, heq, BitVec.xor_self])

/-- Between 2 and 16 flips in an error-free frame never look like none or one. -/
theorem flipBits_detected {c : Frame} (hc : syn c = 0#82) {l : List Nat} (htwo : 2 ≤ l.length) (hlen : l.length ≤ 16)
    (hl : ∀ i ∈ l, i < 272) (hnodup : l.Nodup) :
    syn (flipBits l c) ≠ 0#82 ∧ findSyn (syn (flipBits l c)) = none := by
  rw [syn_flipBits, hc, BitVec.zero_xor]
  exact ⟨flipSyndrome_ne_zero (by omega) (by omega) hl hnodup,
    findSyn_none.mpr fun _ hm => romSyn_ne_flipSyndrome htwo hlen hl hnodup hm⟩

/-- The table's entries are pairwise distinct. -/
theorem romSyn_injective {i j : Nat} (hi : i < 272) (hj : j < 272) (h : romSyn i = romSyn j) : i = j := by
  by_contra hne
  exact flipSyndrome_ne_zero (l := [i, j]) (by simp) (by simp) (by simp [hi, hj]) (by simpa using hne) (by simp [h])

/-- Settles O21: one flip changes the syndrome, and two never cancel. -/
theorem syndromeTableNamesEachPosition : Obligations.SyndromeTableNamesEachPosition := by
  intro i hi
  have hnonzero : romSyn i ≠ 0#82 := by
    simpa using flipSyndrome_ne_zero (l := [i]) (by simp) (by simp) (by simpa using hi) (by simp)
  refine ⟨hnonzero, ?_⟩
  cases hfind : findSyn (romSyn i) with
  | none => exact absurd rfl (findSyn_none.mp hfind i hi)
  | some j =>
    obtain ⟨hj, heq⟩ := findSyn_some hfind
    rw [romSyn_injective hj hi heq]

/-- Settles O22: the two flips are within what the code detects. -/
theorem twoFlipsAreNeverACodewordNorCorrectable : Obligations.TwoFlipsAreNeverACodewordNorCorrectable :=
  fun _ i j hc hij hj => flipBits_detected hc (l := [i, j]) (by simp) (by simp) (by simp; omega) (by simp; omega)

/-- Settles O23: the three flips are within what the code detects. -/
theorem threeFlipsAreNeverACodewordNorCorrectable : Obligations.ThreeFlipsAreNeverACodewordNorCorrectable :=
  fun _ i j k hc hij hjk hk =>
    flipBits_detected hc (l := [i, j, k]) (by simp) (by simp) (by simp; omega) (by simp; omega)

end Sys2Proof.Machine
end

section
/-! Proofs of the statements about the demodulator (42_demodulator.md): its arithmetic in the exact cases, one equation
for each way a sample can go, and when bits come. -/

namespace Sys2Proof.Machine

open Sys2Proof.Statements

/-- Settles O25: with the gains 0 each correction adds 0. -/
theorem phaseErrorsChangeNothing : Obligations.PhaseErrorsChangeNothing :=
  fun e d => ⟨pllC_default e d, pllT_default e d⟩

/-! ### Exact results of the numeric operations (log 3, 4) -/

theorem numMul_zero_left {x : Scalar} (h : x.finite = true) : numMul Scalar.zero x = Scalar.zero := by
  simp [numMul, h]

@[simp] theorem numMul_one_left (x : Scalar) : numMul Scalar.one x = x := by
  by_cases hx : x = Scalar.zero
  · subst hx
    exact numMul_zero_right rfl
  · simp [numMul, hx, show Scalar.one ≠ Scalar.zero by decide]

@[simp] theorem numMul_one_right (k : Scalar) : numMul k Scalar.one = k := by
  by_cases hk : k = Scalar.zero
  · subst hk
    exact numMul_zero_left rfl
  · by_cases hone : k = Scalar.one <;> simp [numMul, hk, hone, show Scalar.one ≠ Scalar.zero by decide]

@[simp] theorem cplxAdd_zero_left (z : Cplx) : cplxAdd Cplx.zero z = z := by simp [cplxAdd, Cplx.zero]

@[simp] theorem cplxAdd_zero_right (z : Cplx) : cplxAdd z Cplx.zero = z := by simp [cplxAdd, Cplx.zero]

theorem cplxScale_zero {k : Scalar} (h : k.finite = true) : cplxScale k Cplx.zero = Cplx.zero := by
  simp [cplxScale, Cplx.zero, numMul_zero_right h]

@[simp] theorem cplxMag_zero : cplxMag Cplx.zero = Scalar.zero := if_pos rfl

@[simp] theorem agcUpdate_zero (g : Scalar) : agcUpdate g Scalar.zero = g := if_pos rfl

/-- 0 when either sample is 0 (R193). -/
theorem phaseStep_zero {a prev : Cplx} (h : a = Cplx.zero ∨ prev = Cplx.zero) : phaseStep a prev = Scalar.zero :=
  if_pos h

/-! ### Samples (R82, log 15) -/

/-- A pattern whose exponent field is not all ones is a finite number of the sign `cmd[31]` gives, or 0. -/
theorem numOfBinary32_of_exponent {x : BitVec 32} (h : x.extractLsb' 23 8 ≠ 0xFF#8) :
    (numOfBinary32 x).finite = true ∧ (x.getLsbD 31 = false → 0 ≤ (numOfBinary32 x).code) ∧
      (x.getLsbD 31 = true → (numOfBinary32 x).code ≤ 0) := by
  unfold numOfBinary32
  split
  · exact ⟨rfl, fun _ => le_rfl, fun _ => le_rfl⟩
  split
  · next hone => subst hone; decide
  split
  · next hneg => subst hneg; decide
  have hmsb : x.msb = x.getLsbD 31 := BitVec.msb_eq_getLsbD_last x
  rw [hmsb]
  exact ⟨rfl, fun hs => withSign_nonneg (by rw [hs]; decide) _, fun hs => withSign_nonpos (by rw [hs]; decide) _⟩

/-! ### Cosine and sine (R180, R194, log 7) -/

/-- A quarter turn on, the sign bit is set exactly in the half turn where the cosine is negative. -/
theorem msb_quarterAhead (p : BitVec 32) :
    (p + 0x40000000#32).msb = decide (0x40000000 ≤ p.toNat ∧ p.toNat < 0xC0000000) := by
  rw [BitVec.msb_eq_decide, BitVec.toNat_add]
  have := p.isLt
  apply decide_eq_decide.mpr
  simp only [BitVec.toNat_ofNat]
  omega

theorem cosP_nonneg {p : BitVec 32} (h : p.toNat ≤ 0x40000000 ∨ 0xC0000000 ≤ p.toNat) : 0 ≤ (cosP p).code := by
  unfold cosP
  split
  · decide
  split
  · next hp => subst hp; revert h; decide
  split
  · decide
  next _ _ hquarter =>
    have hne : p.toNat ≠ 0x40000000 := fun he => hquarter (.inl (BitVec.eq_of_toNat_eq he))
    refine withSign_nonneg ?_ _
    rw [msb_quarterAhead, decide_eq_false (by omega)]
    decide

theorem cosP_nonpos {p : BitVec 32} (hlow : 0x40000000 ≤ p.toNat) (hhigh : p.toNat ≤ 0xC0000000) :
    (cosP p).code ≤ 0 := by
  unfold cosP
  split
  · next hp => subst hp; revert hlow; decide
  split
  · decide
  split
  · decide
  next _ _ hquarter =>
    have hne : p.toNat ≠ 0xC0000000 := fun he => hquarter (.inr (BitVec.eq_of_toNat_eq he))
    refine withSign_nonpos ?_ _
    rw [msb_quarterAhead, decide_eq_true (by omega)]
    decide

theorem sinP_nonneg {p : BitVec 32} (h : p.toNat ≤ 0x80000000) : 0 ≤ (sinP p).code := by
  unfold sinP
  split
  · decide
  split
  · decide
  split
  · next hp => subst hp; revert h; decide
  next hhalf _ _ =>
    have hne : p.toNat ≠ 0x80000000 := fun he => hhalf (.inr (BitVec.eq_of_toNat_eq he))
    refine withSign_nonneg ?_ _
    rw [BitVec.msb_eq_decide, decide_eq_false (by omega)]
    decide

theorem sinP_nonpos {p : BitVec 32} (h : 0x80000000 ≤ p.toNat) : (sinP p).code ≤ 0 := by
  unfold sinP
  split
  · decide
  split
  · next hp => subst hp; revert h; decide
  split
  · decide
  next =>
    refine withSign_nonpos ?_ _
    rw [BitVec.msb_eq_decide, decide_eq_true (by omega)]
    decide

/-! ### Mixer and filter (R182, R186) -/

@[simp] theorem mixSample_zero (p : BitVec 32) : mixSample Scalar.zero p = Cplx.zero :=
  congrArg₂ Cplx.mk (numMul_zero_right (cosP_finite p)) (numMul_zero_right (sinP_finite p))

/-- At phase 0 the cosine is 1 and the sine 0. -/
theorem mixSample_phase_zero {x : Scalar} (h : x.finite = true) : mixSample x 0#32 = ⟨x, Scalar.zero⟩ :=
  congrArg₂ Cplx.mk (numMul_one_left x) (numMul_zero_left h)

@[simp] theorem mixSample_one (p : BitVec 32) : mixSample Scalar.one p = ⟨cosP p, numNeg (sinP p)⟩ :=
  congrArg₂ Cplx.mk (numMul_one_right _) (numMul_one_right _)

/-- A line of zeros with one sample adds that sample, weighted by the tap of its place. -/
theorem firSum_single {n k : Nat} (hk : k < n) (i : Nat) (z acc : Cplx) :
    firSum i ((List.replicate n Cplx.zero).set k z) acc = cplxAdd acc (cplxScale (romFir (i + k)) z) := by
  induction n generalizing i k acc with
  | zero => omega
  | succ n ih =>
    cases k with
    | zero => simp only [List.replicate_succ, List.set_cons_zero, firSum, firSum_replicate_zero, Nat.add_zero]
    | succ k =>
      simp only [List.replicate_succ, List.set_cons_succ, firSum, cplxScale_zero (romFir_finite i),
        cplxAdd_zero_right, ih (Nat.lt_of_succ_lt_succ hk), Nat.succ_add_eq_add_succ]

/-! ### AGC (R187) -/

/-- A zero sample stays zero and gives no magnitude to regulate by. -/
theorem agc_zero {d : Demod} (h : d.agcGain.finite = true) : agc Cplx.zero d = (Cplx.zero, d) := by
  simp [agc, cplxScale_zero h]

/-- The gain is all that changes, and it stays a positive finite number. -/
theorem agc_positive (w : Cplx) {d : Demod} (hf : d.agcGain.finite = true) (hp : 0 < d.agcGain.code) :
    ∃ g : Scalar, (agc w d).2 = { d with agcGain := g } ∧ g.finite = true ∧ 0 < g.code := by
  obtain ⟨hf', hp'⟩ := agcUpdate_positive (r := cplxMag (agc w d).1) hf ((numPos_iff hf).mpr hp)
  exact ⟨_, rfl, hf', (numPos_iff hf').mp hp'⟩

/-! ### Discriminator (R192, R193) -/

/-- The angle from a positive real to a positive real: the product's imaginary part is 0 and its real part, where it is
finite, is not negative. -/
theorem phaseStep_positive_reals {x y : Scalar} (hx : x.finite = true) (hxp : 0 < x.code) (hy : y.finite = true)
    (hyp : 0 < y.code) (hxy : (numMul x y).finite = true) :
    phaseStep ⟨x, Scalar.zero⟩ ⟨y, Scalar.zero⟩ = Scalar.zero := by
  have hproduct : cplxMulConj ⟨x, Scalar.zero⟩ ⟨y, Scalar.zero⟩ = ⟨numMul x y, Scalar.zero⟩ := by
    simp [cplxMulConj, numMul_zero_left hy, numMul_zero_right hx,
      numMul_zero_right (k := Scalar.zero) rfl]
  have hnonneg : ¬ (numMul x y).code < 0 := by
    rcases numMul_sign hx hy with hsign | hzero
    · rw [Int.sign_eq_one_of_pos (Int.mul_pos hxp hyp)] at hsign
      exact (Int.sign_eq_one_iff_pos.mp hsign).not_gt
    · exact hzero.not_lt
  have hzero : Scalar.zero.code = 0 ∧ Scalar.zero.finite = true := ⟨rfl, rfl⟩
  unfold phaseStep
  split
  · rfl
  · simp [hproduct, cplxArg, hxy, hzero, hnonneg]

/-- Previous sample, sample and angle: the cases of V-DM-3 after 1, and two after j (R192, R193). -/
def cornerSteps : List (Cplx × Cplx × Scalar) :=
  [(⟨Scalar.one, Scalar.zero⟩, ⟨Scalar.zero, Scalar.one⟩, Scalar.halfPi),
    (⟨Scalar.one, Scalar.zero⟩, ⟨Scalar.negOne, Scalar.zero⟩, Scalar.pi),
    (⟨Scalar.one, Scalar.zero⟩, ⟨Scalar.zero, Scalar.negOne⟩, numNeg Scalar.halfPi),
    (⟨Scalar.zero, Scalar.one⟩, ⟨Scalar.one, Scalar.zero⟩, numNeg Scalar.halfPi),
    (⟨Scalar.zero, Scalar.one⟩, ⟨Scalar.zero, Scalar.one⟩, Scalar.zero)]

theorem phaseStep_cornerSteps : ∀ c ∈ cornerSteps, phaseStep c.2.1 c.1 = c.2.2 := by decide

/-! ### The angle (R192) -/

theorem isAngle_iff {d : Scalar} : isAngle d = true ↔
    d.finite = true ∧ numLess (numNeg Scalar.pi) d = true ∧ numLess Scalar.pi d = false := by
  simp [isAngle, and_assoc]

theorem quarterTurn_nonneg {im : Scalar} (h : 0 < im.code) : 0 ≤ (quarterTurn im).code := by
  rw [quarterTurn, if_pos h]
  decide

theorem quarterTurn_nonpos {im : Scalar} (h : im.code < 0) : (quarterTurn im).code ≤ 0 := by
  rw [quarterTurn, if_neg h.not_gt]
  decide

theorem slantedArg_nonneg {z : Cplx} (h : 0 < z.im.code) : 0 ≤ (slantedArg z).code := by
  unfold slantedArg
  dsimp only
  split
  · exact withSign_nonneg h.le _
  · exact quarterTurn_nonneg h

theorem slantedArg_nonpos {z : Cplx} (h : z.im.code < 0) : (slantedArg z).code ≤ 0 := by
  unfold slantedArg
  dsimp only
  split
  · exact withSign_nonpos h.le _
  · exact quarterTurn_nonpos h

/-- Off the real axis the angle is a quarter turn or a slanted one. -/
theorem cplxArg_of_im_ne_zero {z : Cplx} (hz : FiniteParts z) (h : z.im.code ≠ 0) :
    cplxArg z = if z.re.code = 0 then quarterTurn z.im else slantedArg z := by
  rw [cplxArg, if_pos hz, if_neg h]

theorem cplxArg_nonneg {z : Cplx} (hz : FiniteParts z) (h : 0 < z.im.code) : 0 ≤ (cplxArg z).code := by
  rw [cplxArg_of_im_ne_zero hz h.ne']
  split
  · exact quarterTurn_nonneg h
  · exact slantedArg_nonneg h

theorem cplxArg_nonpos {z : Cplx} (hz : FiniteParts z) (h : z.im.code < 0) : (cplxArg z).code ≤ 0 := by
  rw [cplxArg_of_im_ne_zero hz h.ne]
  split
  · exact quarterTurn_nonpos h
  · exact slantedArg_nonpos h

/-- Settles O60, one lemma for each stage of the datapath. -/
theorem datapathArithmetic : Obligations.DatapathArithmetic := by
  refine ⟨fun _ => numOfBinary32_of_exponent,
    by decide,
    fun p => ⟨cosP_finite p, sinP_finite p, cosP_nonneg, cosP_nonpos, sinP_nonneg, sinP_nonpos⟩,
    mixSample_zero,
    fun _ => mixSample_phase_zero,
    mixSample_one,
    fun d z k hk hfir => ?filter,
    fun _ => agc_zero,
    fun w _ => agc_positive w,
    fun a d => ⟨rfl, phaseStep_zero, ?positiveReals⟩,
    ?corners,
    fun z hz => ?angle,
    fun d hd => ⟨numPos_iff hd, rfl⟩⟩
  case filter => rw [firOut, hfir, firSum_single hk, cplxAdd_zero_left, Nat.zero_add]
  case positiveReals =>
    rintro x y hx hxp hy hyp hxy hprev rfl
    rw [disc, hprev]
    exact phaseStep_positive_reals hx hxp hy hyp hxy
  case corners =>
    intro prev a angle hmem d hprev
    rw [disc, hprev]
    exact phaseStep_cornerSteps _ hmem
  case angle =>
    have ⟨hre, him⟩ := hz
    obtain ⟨hfinite, hlow, hhigh⟩ := isAngle_iff.mp (isAngle_cplxArg hre him)
    exact ⟨hfinite, hlow, hhigh, cplxArg_nonneg hz, cplxArg_nonpos hz⟩

/-! ### One sample through the demodulator (R181) -/

theorem frontEnd_eq_afterAgc (x : Scalar) (d : Demod) : frontEnd x d = afterAgc x d := by
  rw [frontEnd_eq, pllC_default]
  rfl

/-- A sample at count 0 stops at the decimator (R190). -/
theorem demodStep_dropped (x : Scalar) {d : Demod} (h : d.decCnt = 0#1) :
    demodStep x d = (none, { (afterAgc x d).2 with decCnt := 1#1 }) := by
  rw [demodStep_drop x (by rw [frontEnd_eq_afterAgc]; exact h), frontEnd_eq_afterAgc]

/-- A sample at count 1 goes through the timing, and at a zero crossing through the slicer (R190, R194, R197). -/
theorem demodStep_kept (x : Scalar) {d : Demod} (h : d.decCnt = 1#1) :
    demodStep x d = if Crosses d.ncoT then
      (some (numPos (afterTiming x d).sliceAcc), { afterTiming x d with sliceAcc := Scalar.zero })
    else (none, afterTiming x d) := by
  rw [demodStep_keep x (by rw [frontEnd_eq_afterAgc]; exact h), frontEnd_eq_afterAgc, timing_eq]
  simp only [bne_iff_ne]
  rfl

/-- An accepted `SAMPLE` runs the pipeline on a state that drives nothing yet (R124). -/
theorem exec_sample {s : State} (h : TakesSamples s) (x : BitVec 32) :
    exec (.sample x) s = .next (driveStatus (samplePipeline (numOfBinary32 x) (beginStep s))) :=
  execSample_accepted (accepts_iff.mpr h) x

/-- An accepted `SAMPLE` that brings no bit changes the demodulator alone. -/
theorem exec_sample_none {s : State} {x : BitVec 32} {d : Demod} (h : TakesSamples s)
    (hd : demodStep (numOfBinary32 x) s.demod = (none, d)) :
    exec (.sample x) s = .next (driven none none none { s with demod := d }) := by
  rw [exec_sample h, samplePipeline_none (s := beginStep s) (congrArg Prod.fst hd), beginStep_demod, hd]
  rfl

/-- Settles O26: the decimator stops the sample. -/
theorem droppedSampleOnlyMovesTheFrontEnd : Obligations.DroppedSampleOnlyMovesTheFrontEnd :=
  fun x _ htakes hcnt => exec_sample_none htakes (demodStep_dropped (numOfBinary32 x) hcnt)

/-- Settles O27: without a crossing the slicer is not reached. -/
theorem keptSampleWithoutCrossingIntegrates : Obligations.KeptSampleWithoutCrossingIntegrates := by
  intro x s htakes hcnt hcross
  exact exec_sample_none htakes ((demodStep_kept (numOfBinary32 x) hcnt).trans (if_neg hcross))

/-! ### The bit of a sample and the bit of `BIT` (R124, R125, R198)

What follows a bit looks neither at the configuration, the demodulator and `BIT_OUT`, nor does it write them. -/

/-- The state with these three elements. -/
def State.withFront (cfg : Cfg) (d : Demod) (bit : Option Bool) (s : State) : State :=
  { s with cfg, demod := d, out := { s.out with bit } }

section
variable (cfg : Cfg) (d : Demod) (bit : Option Bool) (s : State)

theorem emitRec?_withFront (r : Option Record) :
    emitRec? r (s.withFront cfg d bit) = (emitRec? r s).withFront cfg d bit := by
  cases r <;> rfl

theorem reassemble_withFront (f : Info) :
    reassemble f (s.withFront cfg d bit) = (reassemble f s).withFront cfg d bit := by
  have hsech (b : SechBlock) : sechPush b (s.withFront cfg d bit) = (sechPush b s).withFront cfg d bit :=
    emitRec?_withFront cfg d bit { s with sech := (sechNext b s.sech).1 } _
  have hlong (b : LongBlock) : longPush b (s.withFront cfg d bit) = (longPush b s).withFront cfg d bit :=
    emitRec?_withFront cfg d bit { s with long := (longNext b s.long).1 } _
  unfold reassemble
  dsimp only
  split
  · exact hsech _
  split
  · exact hlong _
  split
  · split <;> rfl
  · rfl

theorem bitPipeline_withFront (b : Bool) :
    bitPipeline b (s.withFront cfg d bit) = (bitPipeline b s).withFront cfg d bit := by
  cases ha : (syncStep b s.sync).1 with
  | none => rw [bitPipeline_none ha, bitPipeline_none (s := s.withFront cfg d bit) ha]; rfl
  | some a =>
    rw [bitPipeline_some ha, bitPipeline_some (s := s.withFront cfg d bit) ha, ← reassemble_withFront]
    rfl

end

/-- A sample that brings a bit does what the bit does, under any configuration, but for the elements that the bit's
pipeline does not look at. -/
theorem samplePipeline_eq_bitPipeline (cfg : Cfg) {x : Scalar} {s : State} {b : Bool} {d : Demod}
    (h : demodStep x s.demod = (some b, d)) :
    samplePipeline x s = (bitPipeline b { s with cfg }).withFront s.cfg d (some b) := by
  rw [← bitPipeline_withFront, samplePipeline_some (congrArg Prod.fst h), h]
  rfl

/-- Settles O28: the demodulator brings the bit `b`, and both commands run the same pipeline on it. -/
theorem keptSampleAtACrossingDeliversItsBit : Obligations.KeptSampleAtACrossingDeliversItsBit := by
  intro x s htakes hcnt hcross d b
  have ⟨herr, heos, _⟩ := htakes
  have hstep : demodStep (numOfBinary32 x) s.demod = (some b, { d with sliceAcc := Scalar.zero }) :=
    (demodStep_kept _ hcnt).trans (if_pos hcross)
  have hbit : exec (.bit b) { s with cfg := { s.cfg with mode := .bits } } =
      .next (driveStatus (bitPipeline b { beginStep s with cfg := { s.cfg with mode := .bits } })) :=
    execBit_accepted (s := { s with cfg := { s.cfg with mode := .bits } }) (accepts_iff.mpr ⟨herr, heos, rfl⟩) b
  refine ⟨_, hbit, ?_⟩
  rw [exec_sample htakes, samplePipeline_eq_bitPipeline (s := beginStep s) { s.cfg with mode := .bits } hstep]
  rfl

/-! ### When bits come (R199) -/

/-- Decimator and timing oscillator after `n` samples from reset, whatever the samples were: the oscillator advances by
a sixteenth of a turn with every second sample. -/
structure Demod.Clocked (n : Nat) (d : Demod) : Prop where
  decCnt : d.decCnt = BitVec.ofNat 1 n
  ncoT : d.ncoT = { phase := BitVec.ofNat 32 (n / 2 * 2 ^ 28), freq := Config.incT }

theorem reset_clocked : State.reset.demod.Clocked 0 := ⟨rfl, rfl⟩

/-- The sign of the cosine after `k` sixteenths of a turn. -/
theorem cneg_sixteenths (k : Nat) : cneg (BitVec.ofNat 32 (k * 2 ^ 28)) = decide (4 ≤ k % 16 ∧ k % 16 < 12) := by
  have hmsb := msb_quarterAhead (BitVec.ofNat 32 (k * 2 ^ 28))
  rw [BitVec.msb_eq_getLsbD_last] at hmsb
  refine hmsb.trans (decide_eq_decide.mpr ?_)
  rw [BitVec.toNat_ofNat]
  omega

theorem phase_add_incT (k : Nat) :
    BitVec.ofNat 32 (k * 2 ^ 28) + Config.incT = BitVec.ofNat 32 ((k + 1) * 2 ^ 28) := by
  rw [Nat.succ_mul, BitVec.ofNat_add]
  rfl

/-- The cosine changes its sign after a quarter and after three quarters of a turn. -/
theorem crosses_sixteenths (k : Nat) :
    Crosses { phase := BitVec.ofNat 32 (k * 2 ^ 28), freq := Config.incT } ↔ k % 8 = 3 := by
  simp only [Crosses, phase_add_incT, cneg_sixteenths, ne_eq, decide_eq_decide]
  omega

/-- One sample more: a bit comes with every sixteenth, and the clock goes on. -/
theorem demodStep_clocked (x : Scalar) {n : Nat} {d : Demod} (h : d.Clocked n) :
    ((demodStep x d).1.isSome = true ↔ n % 16 = 7) ∧ (demodStep x d).2.Clocked (n + 1) := by
  obtain ⟨hcnt, hnco⟩ := h
  rcases Nat.even_or_odd' n with ⟨k, rfl | rfl⟩
  · have hzero : d.decCnt = 0#1 := hcnt.trans (BitVec.eq_of_toNat_eq (by simp))
    rw [demodStep_dropped x hzero]
    refine ⟨by simp; omega, BitVec.eq_of_toNat_eq (by simp), ?_⟩
    rw [show (2 * k + 1) / 2 = 2 * k / 2 by omega]
    exact hnco
  · have hone : d.decCnt = 1#1 := hcnt.trans (BitVec.eq_of_toNat_eq (by simp))
    have hclock : (afterTiming x d).Clocked (2 * k + 1 + 1) := by
      refine ⟨BitVec.eq_of_toNat_eq (by simp [afterTiming]; omega), ?_⟩
      show ({ phase := d.ncoT.phase + d.ncoT.freq, freq := d.ncoT.freq } : Nco) = _
      rw [hnco, phase_add_incT, show (2 * k + 1 + 1) / 2 = (2 * k + 1) / 2 + 1 by omega]
    have hcross : Crosses d.ncoT ↔ (2 * k + 1) % 16 = 7 := by
      rw [hnco, crosses_sixteenths]
      omega
    rw [demodStep_kept x hone]
    split
    · next h => exact ⟨iff_of_true rfl (hcross.mp h), hclock.decCnt, hclock.ncoT⟩
    · next h => exact ⟨iff_of_false nofun (mt hcross.mpr h), hclock⟩

/-- The block takes samples, `n` of them after reset. -/
structure State.Sampling (n : Nat) (s : State) : Prop where
  takes : TakesSamples s
  clock : s.demod.Clocked n

/-- A step on a presented `SAMPLE` that the block takes (R120, R124). -/
theorem step_sample {s : State} (h : TakesSamples s) {x : BitVec 32} {rest : List CmdWord}
    (hport : s.port = commandWord (.sample x) ++ rest) :
    step s = .next (driveStatus (samplePipeline (numOfBinary32 x) (beginStep { s with port := rest }))) := by
  rw [step_cons hport, decodeCmd_encode_sample]
  exact exec_sample (s := { s with port := rest }) h x

/-- One `SAMPLE` of a stream: whether it drives a bit, and the stream goes on. -/
theorem step_sampling {n : Nat} {s : State} (h : s.Sampling n) {x : BitVec 32} {rest : List CmdWord}
    (hport : s.port = commandWord (.sample x) ++ rest) :
    ∃ t, step s = .next t ∧ (t.out.bit.isSome = true ↔ n % 16 = 7) ∧ t.Sampling (n + 1) ∧ t.port = rest := by
  obtain ⟨htakes, hclock⟩ := h
  obtain ⟨hbit, hnext⟩ := demodStep_clocked (numOfBinary32 x) hclock
  refine ⟨_, step_sample htakes hport, ?_, ⟨?_, ?_⟩, ?_⟩
  · rw [driveStatus_out_bit, samplePipeline_out_bit _ _ rfl]
    exact hbit
  · simpa [TakesSamples] using htakes
  · rw [driveStatus_demod, samplePipeline_demod]
    exact hnext
  · rw [driveStatus_port, samplePipeline_port, beginStep_port]

/-- A run over a stream of samples. -/
theorem run_sampling (xs : List (BitVec 32)) {n : Nat} {s : State} (h : s.Sampling n) {rest : List CmdWord}
    (hport : s.port = xs.flatMap (fun x => commandWord (.sample x)) ++ rest) :
    ∃ t, Sys2Proof.core.run xs.length s = .next t ∧ t.Sampling (n + xs.length) ∧ t.port = rest := by
  induction xs generalizing n s with
  | nil => exact ⟨s, rfl, h, hport⟩
  | cons x xs ih =>
    rw [List.flatMap_cons, List.append_assoc] at hport
    obtain ⟨u, hstep, -, hu, huport⟩ := step_sampling h hport
    obtain ⟨t, hrun, ht, htport⟩ := ih hu huport
    refine ⟨t, (run_succ hstep).trans hrun, ?_, htport⟩
    rwa [List.length_cons, Nat.add_comm xs.length, ← Nat.add_assoc]

/-- Settles O29, by induction on the samples before: the clock does not depend on their values. -/
theorem bitsComeEverySixteenSamples : Obligations.BitsComeEverySixteenSamples := by
  intro xs x rest t hrun
  obtain ⟨u, hbefore, hu, huport⟩ := run_sampling xs (n := 0) (rest := commandWord (.sample x) ++ rest)
    (s := { State.reset with port := (xs ++ [x]).flatMap (fun x => commandWord (.sample x)) ++ rest })
    ⟨⟨rfl, rfl, rfl⟩, reset_clocked⟩ (by simp)
  obtain ⟨t', hstep, hbit, -, -⟩ := step_sampling hu huport
  rw [run_last hbefore, hstep] at hrun
  injection hrun with hrun
  rwa [hrun, Nat.zero_add] at hbit

/-! ### Silence (R197) -/

/-- A zero sample moves only the mixer's phase. -/
theorem afterAgc_silent {d : Demod} (h : Silent d) :
    afterAgc Scalar.zero d = (Cplx.zero, { d with ncoC := ncoAdvance d.ncoC }) := by
  obtain ⟨hfir, -, -, hgain⟩ := h
  have hshift : firShift (mix Scalar.zero d).1 (mix Scalar.zero d).2 = { d with ncoC := ncoAdvance d.ncoC } := by
    have hline : (mixSample Scalar.zero d.ncoC.phase :: d.fir).take 256 = d.fir := by
      rw [mixSample_zero, hfir, ← List.replicate_succ, List.take_replicate]
      rfl
    exact congrArg (fun line => { d with ncoC := ncoAdvance d.ncoC, fir := line }) hline
  have hsum : firOut { d with ncoC := ncoAdvance d.ncoC } = Cplx.zero := by
    rw [firOut, hfir, firSum_replicate_zero]
  rw [← frontEnd_eq_afterAgc, frontEnd_eq, pllC_default, hshift, hsum]
  exact agc_zero (d := { d with ncoC := ncoAdvance d.ncoC }) hgain

/-- A zero sample adds nothing to the accumulator. -/
theorem afterTiming_silent {d : Demod} (h : Silent d) : Silent (afterTiming Scalar.zero d) := by
  rw [afterTiming, afterAgc_silent h]
  obtain ⟨hfir, hprev, hacc, hgain⟩ := h
  refine ⟨hfir, rfl, ?_, hgain⟩
  rw [phaseStep_zero (.inl rfl), hacc, numAdd_zero_left]
  exact numMul_zero_right (k := numAbs (cosP d.ncoT.phase)) (cosP_finite _)

theorem demodStep_silent {d : Demod} (h : Silent d) : Silent (demodStep Scalar.zero d).2 ∧
    ((demodStep Scalar.zero d).1 = none ∨ (demodStep Scalar.zero d).1 = some false) := by
  rcases decCnt_cases d with hcnt | hcnt
  · rw [demodStep_dropped _ hcnt, afterAgc_silent h]
    exact ⟨h, .inl rfl⟩
  · have hsilent := afterTiming_silent h
    rw [demodStep_kept _ hcnt]
    split
    · obtain ⟨hfir, hprev, hacc, hgain⟩ := hsilent
      exact ⟨⟨hfir, hprev, rfl, hgain⟩, .inr (by rw [hacc, numPos_zero])⟩
    · exact ⟨hsilent, .inl rfl⟩

/-- Settles O30: a sample that is not taken moves nothing, and one that is finds only zeros. -/
theorem zeroSamplesGiveZeroBits : Obligations.ZeroSamplesGiveZeroBits := by
  intro s hsilent
  cases haccepts : accepts .samples s with
  | false => exact ⟨_, execSample_ignored haccepts _, hsilent, .inl rfl⟩
  | true =>
    obtain ⟨hnext, hbit⟩ := demodStep_silent hsilent
    refine ⟨_, execSample_accepted haccepts _, ?_, ?_⟩
    · rw [driveStatus_demod, samplePipeline_demod]
      exact hnext
    · rw [driveStatus_out_bit, samplePipeline_out_bit _ _ rfl]
      exact hbit

end Sys2Proof.Machine
end

section
/-! Proofs of the statements about the synchroniser (43_l2_sync.md): the search for a BIC, the bits of a frame, and what a
completed frame delivers. -/

namespace Sys2Proof.Machine

open Sys2Proof.Statements

/-! ### BICs (R84, R232, R233) -/

theorem isBic_iff_mem {v : BicWord} : isBic v = true ↔ v ∈ romBic := List.contains_iff_mem

theorem mem_romBic {v : BicWord} : v ∈ romBic ↔ v = 0x135E#16 ∨ v = 0x74A6#16 ∨ v = 0xA791#16 ∨ v = 0xC875#16 := by
  simp [romBic, Config.bic1, Config.bic2, Config.bic3, Config.bic4]

/-- The map decodes nothing but the BICs (R84). -/
theorem decodeBic_eq_none_iff {v : BicWord} : decodeBic v = none ↔ isBic v = false := by
  rw [Bool.eq_false_iff, ne_eq, isBic_iff_mem]
  unfold decodeBic
  split_ifs <;> simp [romBic, *]

theorem decode_bic_rejected_iff {v : BicWord} : decode (.bic v) = .reject .notABic ↔ decodeBic v = none := by
  cases hdecode : decodeBic v <;> simp [decode, hdecode]

theorem bitDistance_comm (v w : BicWord) : bitDistance v w = bitDistance w v := by
  rw [bitDistance, BitVec.xor_comm, bitDistance]

/-- The six distances. -/
theorem romBic_distances : romBic.Pairwise fun v w => 10 ≤ bitDistance v w := by decide

theorem bitDistance_of_isBic {v w : BicWord} (hv : isBic v = true) (hw : isBic w = true) (hne : v ≠ w) :
    10 ≤ bitDistance v w := by
  have : Std.Symm fun v w => 10 ≤ bitDistance v w := ⟨fun v w h => by rwa [bitDistance_comm]⟩
  exact romBic_distances.forall (isBic_iff_mem.mp hv) (isBic_iff_mem.mp hw) hne

/-- Settles O5: the table lists the four, and their six distances are counted; BIC1 and BIC2 are at the least. -/
theorem onlyTheFourConstantsAreBics : Obligations.OnlyTheFourConstantsAreBics :=
  ⟨fun _ => ⟨isBic_iff_mem.trans mem_romBic, decode_bic_rejected_iff.trans decodeBic_eq_none_iff⟩,
    fun _ _ => bitDistance_of_isBic, 0x135E#16, 0x74A6#16, by decide⟩

/-- What meeting a BIC changes (R233, R240). -/
theorem seeBic_eq (v : BicWord) (s : State) : seeBic v s = if s.sync.state = .unsynchronized then
    { s with sync := { s.sync with bic := v, cnt := 0#9, state := .filling } } else s := by
  cases hstate : s.sync.state <;> simp [seeBic, meetBic, startBlock, hstate]

/-- Settles O33: each row meets its own BIC. -/
theorem bicRowsStartABlock : Obligations.BicRowsStartABlock := by
  intro s i v hrow
  have hdecode : ∀ row ∈ [(Instr.bic1, 0x135E#16), (.bic2, 0x74A6#16), (.bic3, 0xA791#16), (.bic4, 0xC875#16)],
      decodeBic row.2 = some row.1 := by decide
  obtain ⟨-, hexec⟩ := exec_decodeBic (hdecode _ hrow) s
  rw [hexec, seeBic_eq]

/-! ### An accepted bit, by what the synchroniser answers (R125, R239) -/

/-- An accepted `BIT` runs the pipeline on a state that drives nothing yet (R125). -/
theorem exec_bit {s : State} (h : TakesBits s) (b : Bool) :
    exec (.bit b) s = .next (driveStatus (bitPipeline b (beginStep s))) :=
  execBit_accepted (accepts_iff.mpr h) b

/-- An accepted `BIT` that delivers no block changes the synchroniser alone. -/
theorem exec_bit_none {s : State} {b : Bool} {y : Sync} (h : TakesBits s) (hy : syncStep b s.sync = (none, y)) :
    exec (.bit b) s = .next (driven none none none { s with sync := y }) := by
  rw [exec_bit h, bitPipeline_none (s := beginStep s) (congrArg Prod.fst hy), beginStep_sync, hy]
  rfl

/-- An accepted `BIT` that delivers a block drives it and runs the row of its information field. -/
theorem exec_bit_some {s : State} {b : Bool} {a : Accepted} {y : Sync} (h : TakesBits s)
    (hy : syncStep b s.sync = (some a, y)) : exec (.bit b) s = exec (decodeInfo (infoOf a.frame))
      (withBlock ⟨a.bic, a.frame, a.pos.isSome, BitVec.ofNat 9 (a.pos.getD 0)⟩ y s) := by
  rw [exec_bit h, bitPipeline_some (s := beginStep s) (congrArg Prod.fst hy), beginStep_sync, hy, exec_decodeInfo]
  rfl

/-! ### The search for a BIC (R230, R234) -/

/-- Settles O31: the register that the bit leaves is no BIC. -/
theorem bitWithoutABicOnlyShifts : Obligations.BitWithoutABicOnlyShifts :=
  fun _ _ htakes hstate hbic => exec_bit_none htakes (syncStep_search hstate hbic)

/-- Settles O32: the bit's pipeline meets the BIC that the row stands for. -/
theorem bitThatCompletesABicRunsItsRow : Obligations.BitThatCompletesABicRunsItsRow := by
  intro b s i htakes hstate hdecode
  obtain ⟨hbic, hexec⟩ := exec_decodeBic hdecode
    (driven none none none { s with sync := { s.sync with sr := srAfter b s.sync } })
  rw [exec_bit htakes, bitPipeline_bic (s := beginStep s) hstate hbic, hexec]
  rfl

/-! ### A bit of a frame (R235, R240) -/

/-- The synchroniser after a bit stored at index `CNT`, below the last one. -/
theorem syncStep_store {b : Bool} {y : Sync} (h : y.state = .filling) (hcnt : y.cnt.toNat < 271) :
    syncStep b y = (none, { y with
      sr := srAfter b y
      cnt := y.cnt + 1#9
      frame := setFrameBit y.cnt.toNat (b ^^ scrAt y.cnt.toNat) y.frame }) := by
  have hindex : y.cnt.toNat % Config.scrLen = y.cnt.toNat := Nat.mod_eq_of_lt (by simp [Config.scrLen]; omega)
  rw [syncStep_fill h hcnt]
  simp only [append, shiftSr, srAfter, hindex]

/-- Settles O34: the bit is written at `CNT` and nowhere else. -/
theorem fillingBitIsDescrambledAndStored : Obligations.FillingBitIsDescrambledAndStored := by
  intro b s htakes hstate hcnt
  refine ⟨_, exec_bit_none htakes (syncStep_store hstate hcnt), ?_, fun j hj hne => ?_⟩
  · rw [bitAt_setFrameBit _ _ _ (by omega), if_pos rfl]
  · rw [bitAt_setFrameBit _ _ _ hj, if_neg (Ne.symm hne)]

/-! ### A completed frame (R236, R237, R238, R239) -/

/-- A completed frame `f` that validation accepts as `c` is delivered. -/
theorem exec_bit_accepted {s : State} {b : Bool} {f c : Frame} (pos : Option Nat) (htakes : TakesBits s)
    (h : Completes s b f) (hvalid : validate s.sync.bic f = some ⟨s.sync.bic, c, pos⟩) :
    exec (.bit b) s = exec (decodeInfo (infoOf c))
      (withBlock ⟨s.sync.bic, c, pos.isSome, BitVec.ofNat 9 (pos.getD 0)⟩
        (syncAfterFrame (srAfter b s.sync) f s.sync) s) :=
  exec_bit_some (a := ⟨s.sync.bic, c, pos⟩) htakes (hvalid ▸ syncStep_completes h)

/-- Settles O35: syndrome 0 is accepted without a correction. -/
theorem errorFreeFrameIsAcceptedAndRouted : Obligations.ErrorFreeFrameIsAcceptedAndRouted :=
  fun _ _ _ htakes h hsyn => exec_bit_accepted none htakes h (validate_zero hsyn)

/-- A codeword with one bit flipped is corrected back to it (R160, R161, R237). -/
theorem validate_flipped (v : BicWord) {c : Frame} {i : Nat} (hc : syn c = 0#82) (hi : i < 272) :
    validate v (c ^^^ unitFrame i) = some { bic := v, frame := c, pos := some i } := by
  obtain ⟨hne, hfind⟩ := syndromeTableNamesEachPosition i hi
  have hsyn : syn (c ^^^ unitFrame i) = romSyn i := by rw [syn_xor, hc, BitVec.zero_xor, romSyn]
  rw [validate_single (hsyn ▸ hne) (hsyn ▸ hfind), BitVec.xor_assoc, BitVec.xor_self, BitVec.xor_zero]

/-- Settles O36: the table names the flipped position. -/
theorem singleFlippedBitIsCorrected : Obligations.SingleFlippedBitIsCorrected :=
  fun _ s _ i htakes hc hi h => exec_bit_accepted (some i) htakes h (validate_flipped s.sync.bic hc hi)

/-- Settles O37: the lookup finds nothing, and nothing is accepted. -/
theorem uncorrectableFrameIsDiscarded : Obligations.UncorrectableFrameIsDiscarded := by
  intro b s f htakes h hne htable
  have hfind : findSyn (syn f) = none := findSyn_none.mpr fun i hi => (htable i hi).symm
  exact exec_bit_none htakes (validate_none hne hfind ▸ syncStep_completes h)

/-! ### A whole frame, bit by bit (R172, R231, R235) -/

/-- The register drops its oldest bit and takes the new one in last (R231). -/
theorem bitAt_srAfter (b : Bool) (y : Sync) {j : Nat} (hj : j < 16) :
    bitAt (srAfter b y) j = if j = 15 then b else bitAt y.sr (j + 1) := by
  have hnew : ∀ j < 16, bitAt ((BitVec.ofBool b).setWidth 16) j = (decide (j = 15) && b) := by cases b <;> decide
  have hshift : bitAt (y.sr <<< 1) j = bitAt y.sr (j + 1) := by
    by_cases hlast : j = 15 <;> simp [bitAt, BitVec.getMsbD_shiftLeft, hlast]
  have hor : bitAt (srAfter b y) j = (bitAt (y.sr <<< 1) j || bitAt ((BitVec.ofBool b).setWidth 16) j) :=
    BitVec.getMsbD_or
  rw [hor, hshift, hnew j hj]
  split
  · next hlast => simp [hlast, bitAt]
  · next hlast => simp [hlast]

/-- The synchroniser `y` once the first `n` of the scrambled bits of `f` have been collected from `start` on. -/
structure Sync.Collected (start : Sync) (f : Frame) (n : Nat) (y : Sync) : Prop where
  state : y.state = .filling
  bic : y.bic = start.bic
  cnt : y.cnt = BitVec.ofNat 9 n
  frame : AgreeBelow n f y.frame
  /-- The last 16 bits received, as far as there have been so many. -/
  sr : ∀ j < 16, 16 ≤ n + j → bitAt y.sr j = bitAt (scramble f) (n + j - 16)

/-- The register after one scrambled bit more. -/
theorem Sync.Collected.srAfter_next {start y : Sync} {f : Frame} {n : Nat} (h : start.Collected f n y) :
    ∀ j < 16, 16 ≤ n + 1 + j →
      bitAt (srAfter (bitAt (scramble f) n) y) j = bitAt (scramble f) (n + 1 + j - 16) := by
  intro j hj hn
  rw [bitAt_srAfter _ _ hj]
  split
  · next hlast => rw [hlast, Nat.add_assoc, Nat.add_sub_cancel]
  · next hlast => rw [h.sr (j + 1) (by omega) (by omega), Nat.add_assoc, Nat.add_comm 1 j]

/-- Scrambling a frame bit twice gives it back (R172). -/
theorem descramble_bitAt (f : Frame) {i : Nat} (hi : i < 272) : (bitAt (scramble f) i ^^ scrAt i) = bitAt f i := by
  rw [bitAt_scramble f hi, Bool.xor_assoc, Bool.xor_self, Bool.xor_false]

/-- One scrambled bit more, below the last. -/
theorem Sync.Collected.next {start y : Sync} {f : Frame} {n : Nat} (h : start.Collected f n y) (hn : n < 271) :
    ∃ y', syncStep (bitAt (scramble f) n) y = (none, y') ∧ start.Collected f (n + 1) y' := by
  have hindex : y.cnt.toNat = n := by rw [h.cnt, BitVec.toNat_ofNat]; omega
  refine ⟨_, syncStep_store h.state (by omega), h.state, h.bic, ?_, fun j hj => ?_, h.srAfter_next⟩
  · rw [h.cnt, BitVec.ofNat_add]
  · rw [hindex, bitAt_setFrameBit _ _ _ (by omega)]
    split
    · next heq => rw [← heq, descramble_bitAt f (by omega)]
    · next hne => exact h.frame j (by omega)

/-- The last scrambled bit completes the frame. -/
theorem Sync.Collected.completes {start : Sync} {s : State} {f : Frame} (h : start.Collected f 271 s.sync) :
    Completes s (bitAt (scramble f) 271) f :=
  ⟨h.state, h.cnt, (descramble_bitAt f (by decide)).symm, h.frame⟩

/-- Of what was collected only the frame and the register are left then, which holds the last 16 bits received (R231). -/
theorem Sync.Collected.syncAfterFrame {start y : Sync} {f : Frame} (h : start.Collected f 271 y) :
    syncAfterFrame (srAfter (bitAt (scramble f) 271) y) f y = syncAfterFrame (msb (scramble f) 256 16) f start := by
  have hsr : srAfter (bitAt (scramble f) 271) y = msb (scramble f) 256 16 := by
    refine eq_of_bitAt fun j hj => ?_
    rw [h.srAfter_next j hj (by omega), bitAt_msb _ (by decide) hj]
    congr 1
    omega
  rw [hsr, Statements.syncAfterFrame, h.bic, Statements.syncAfterFrame]

/-- A step on a presented `BIT` (R120). -/
theorem step_bit {s : State} {b : Bool} {rest : List CmdWord} (hport : s.port = commandWord (.bit b) ++ rest) :
    step s = exec (.bit b) { s with port := rest } := by
  rw [step_cons hport, decodeCmd_encode_bit]
  rfl

/-- The next command of a bit string is its next bit. -/
theorem bitWords_drop {n i : Nat} (f : BitVec n) (hi : i < n) : bitWords ((seqOf f).drop i) =
    commandWord (.bit (bitAt f i)) ++ bitWords ((seqOf f).drop (i + 1)) := by
  rw [List.drop_eq_getElem_cons (by simpa using hi), seqOf_getElem, bitWords, List.flatMap_cons, bitWords]

/-- The state `t` once the first `n` of the scrambled bits of `f` have been collected from `s` on. -/
structure State.Collected (s : State) (f : Frame) (n : Nat) (t : State) : Prop where
  sync : s.sync.Collected f n t.sync
  others : t = { s with sync := t.sync, out := t.out, port := t.port }

theorem State.Collected.takes {s t : State} {f : Frame} {n : Nat} (h : s.Collected f n t) (htakes : TakesBits s) :
    TakesBits t := by
  rw [h.others]
  exact htakes

/-- A run over the scrambled bits of a frame but for the last. -/
theorem run_collecting {s : State} {f : Frame} {rest : List CmdWord} (htakes : TakesBits s)
    (hstate : s.sync.state = .filling) (hcnt : s.sync.cnt = 0#9)
    (hport : s.port = bitWords (seqOf (scramble f)) ++ rest) {n : Nat} (hn : n ≤ 271) :
    ∃ t, Sys2Proof.core.run n s = .next t ∧ s.Collected f n t ∧
      t.port = bitWords ((seqOf (scramble f)).drop n) ++ rest := by
  induction n with
  | zero => exact ⟨s, rfl, ⟨⟨hstate, rfl, hcnt, nofun, fun j hj h16 => by omega⟩, rfl⟩, hport⟩
  | succ n ih =>
    obtain ⟨t, hrun, ht, htport⟩ := ih (by omega)
    obtain ⟨y, hstep, hy⟩ := ht.sync.next (by omega)
    rw [bitWords_drop _ (by omega), List.append_assoc] at htport
    have hexec := exec_bit_none (s := { t with port := bitWords ((seqOf (scramble f)).drop (n + 1)) ++ rest })
      (ht.takes htakes) hstep
    refine ⟨_, (run_last hrun).trans ((step_bit htport).trans hexec), ⟨hy, ?_⟩, rfl⟩
    rw [ht.others]
    rfl

/-- A row of an information field drives `STATUS` anew and does not read it (R129). -/
theorem exec_decodeInfo_status (f : Info) (v : BitVec 8) (s : State) :
    exec (decodeInfo f) { s with out := { s.out with status := v } } = exec (decodeInfo f) s := by
  have hrecord (r : Option Record) (t : State) :
      driveStatus (emitRec? r { t with out := { t.out with status := v } }) = driveStatus (emitRec? r t) := by
    cases r <;> rfl
  rw [exec_decodeInfo, exec_decodeInfo]
  unfold reassemble
  dsimp only
  split
  · exact congrArg _ (hrecord _ { s with sech := (sechNext (sechFields f) s.sech).1 })
  split
  · exact congrArg _ (hrecord _ { s with long := (longNext (longFields f) s.long).1 })
  split
  · split <;> rfl
  · rfl

/-- Where a block is driven, what was driven before does not matter. -/
theorem exec_decodeInfo_withBlock {s t : State} (h : t = { s with sync := t.sync, out := t.out, port := t.port })
    (f : Info) (block : L2Block) (y : Sync) (port : List CmdWord) :
    exec (decodeInfo f) (withBlock block y { t with port }) = exec (decodeInfo f) (withBlock block y { s with port }) := by
  have hstatus := exec_decodeInfo_status f t.out.status (withBlock block y { s with port })
  rw [h]
  exact hstatus

/-- Settles O38: 271 bits are collected, and the last one completes the frame. -/
theorem scrambledFrameIsDelivered : Obligations.ScrambledFrameIsDelivered := by
  intro s f rest htakes hstate hcnt hport hsyn
  obtain ⟨t, hrun, ht, htport⟩ := run_collecting htakes hstate hcnt hport (Nat.le_refl 271)
  rw [bitWords_drop _ (by decide), List.append_assoc, List.drop_of_length_le (by simp)] at htport
  rw [run_last hrun, step_bit htport]
  calc exec (.bit (bitAt (scramble f) 271)) { t with port := rest }
    _ = exec (decodeInfo (infoOf f)) (withBlock ⟨t.sync.bic, f, false, 0#9⟩
          (syncAfterFrame (srAfter (bitAt (scramble f) 271) t.sync) f t.sync) { t with port := rest }) :=
      errorFreeFrameIsAcceptedAndRouted _ { t with port := rest } f (ht.takes htakes) ht.sync.completes hsyn
    _ = _ := by rw [exec_decodeInfo_withBlock ht.others, ht.sync.syncAfterFrame, ht.sync.bic]

/-! ### What is driven on `L2_OUT` (R236, R237) -/

/-- A block, if any is driven, is a codeword. -/
def L2Codeword (o : Outputs) : Prop := ∀ block ∈ o.l2, syn block.frame = 0#82

theorem bitPipeline_l2Codeword (b : Bool) {s : State} (h : L2Codeword s.out) : L2Codeword (bitPipeline b s).out := by
  cases ha : (syncStep b s.sync).1 with
  | none => rw [bitPipeline_none ha]; exact h
  | some a =>
    obtain ⟨-, ⟨f, hf⟩, -⟩ := syncStep_accepted ha
    rw [bitPipeline_some ha, L2Codeword, reassemble_out_l2, emitL2_out]
    rintro _ ⟨⟩
    exact validate_syn hf

theorem samplePipeline_l2Codeword (x : Scalar) {s : State} (h : L2Codeword s.out) :
    L2Codeword (samplePipeline x s).out := by
  cases hb : (demodStep x s.demod).1 with
  | none => rw [samplePipeline_none hb]; exact h
  | some b => rw [samplePipeline_some hb]; exact bitPipeline_l2Codeword b h

theorem CommandEffect.l2Codeword {w : CmdWord} {s u : State} (he : CommandEffect w s u) (h : L2Codeword s.out) :
    L2Codeword u.out := by
  cases he with
  | nothing _ => exact h
  | reset _ => exact nofun
  | configured m f _ => rw [configure_out]; exact nofun
  | sampled x _ _ => exact samplePipeline_l2Codeword _ h
  | received b _ _ => exact bitPipeline_l2Codeword b h
  | ended _ => exact h
  | ignored _ _ => exact h

/-- Settles O39: a step starts with nothing driven, and validation alone drives a block. -/
theorem everyAcceptedBlockIsACodeword : Obligations.EveryAcceptedBlockIsACodeword := by
  intro s t block hstep hblock
  rcases step_cases hstep with ⟨-, rfl⟩ | ⟨w, rest, u, -, heffect, rfl⟩
  · cases hblock
  · exact heffect.l2Codeword nofun block hblock

end Sys2Proof.Machine
end

section
/-! Proofs of the statements about the reassembler (44_reassembler.md): the router, service messages with their name and
time, the calendar date, long messages with their header and TLV records, and the independence of the channels. -/

namespace Sys2Proof.Machine

open Sys2Proof.Statements

/-! ### Fields of an information field as numbers (R63, R86) -/

/-- A field has the weight of its last bit. -/
theorem msb_toNat (f : Info) (off w : Nat) : (msb f off w).toNat = infoNat f off w := by
  rw [msb, BitVec.extractLsb'_toNat, Nat.shiftRight_eq_div_pow, infoNat]

theorem msb_eq_ofNat (f : Info) (off w : Nat) : msb f off w = BitVec.ofNat w (infoNat f off w) := by
  rw [← msb_toNat, BitVec.ofNat_toNat, BitVec.setWidth_eq]

/-- A flag is a field of one bit. -/
theorem bitAt_eq_decide (f : Info) {i : Nat} (hi : i < 176) : bitAt f i = decide (infoNat f i 1 = 1) := by
  have hbit : bitAt (msb f i 1) 0 = decide ((msb f i 1).toNat = 1) := by
    generalize msb f i 1 = v
    revert v
    decide
  rw [← msb_toNat, ← hbit, bitAt_msb f (by omega) Nat.one_pos, Nat.add_zero]

theorem infoSilc_eq_of_infoNat {f : Info} (silc : BitVec 4) (h : infoNat f 0 4 = silc.toNat) : infoSilc f = silc :=
  BitVec.eq_of_toNat_eq ((msb_toNat f 0 4).trans h)

theorem sechFields_eq (f : Info) : sechFields f =
    { lf := infoNat f 4 1 = 1, du := BitVec.ofNat 2 (infoNat f 5 2), cid := BitVec.ofNat 4 (infoNat f 7 4)
      dt := BitVec.ofNat 4 (infoNat f 11 4), nid := BitVec.ofNat 4 (infoNat f 15 4)
      bn := BitVec.ofNat 4 (infoNat f 19 4), pay := BitVec.ofNat 152 (infoNat f 24 152) } := by
  simp only [sechFields, bitAt_eq_decide f (by decide : 4 < 176), msb_eq_ofNat]

theorem longFields_eq (f : Info) : longFields f =
    { lf := infoNat f 4 1 = 1, seq := BitVec.ofNat 4 (infoNat f 5 4), mhRsv := BitVec.ofNat 7 (infoNat f 9 7)
      c6 := BitVec.ofNat 6 (infoNat f 16 6), pay := BitVec.ofNat 152 (infoNat f 24 152) } := by
  simp only [longFields, bitAt_eq_decide f (by decide : 4 < 176), msb_eq_ofNat]

/-! #### The routing map by the number of the selector (R86) -/

section
variable {f : Info}

theorem decodeInfo_silc_lt_8 (h : infoNat f 0 4 < 8) : decodeInfo f =
    .silc07 (BitVec.ofNat 3 (infoNat f 0 4)) (BitVec.ofNat 172 (infoNat f 4 172)) := by
  have hsilc : ∀ v : BitVec 4, v.toNat < 8 → v ≠ 0x8#4 ∧ v ≠ 0xA#4 ∧ v ≠ 0xB#4 ∧ v.msb = false ∧
      v.extractLsb' 0 3 = BitVec.ofNat 3 v.toNat := by decide
  rw [← msb_toNat] at h ⊢
  obtain ⟨h8, hA, hB, hmsb, hlow⟩ := hsilc _ h
  rw [decodeInfo_unrouted h8 hA hB, infoSilc, if_pos hmsb, hlow, msb_eq_ofNat f 4]

theorem decodeInfo_silc_9 (h : infoNat f 0 4 = 9) :
    decodeInfo f = .silc9 (BitVec.ofNat 172 (infoNat f 4 172)) := by
  have hsilc : infoSilc f = 0x9#4 := infoSilc_eq_of_infoNat _ h
  rw [decodeInfo_unrouted (by rw [hsilc]; decide) (by rw [hsilc]; decide) (by rw [hsilc]; decide), hsilc,
    if_neg (by decide), if_pos rfl, msb_eq_ofNat]

theorem decodeInfo_silc_ge_12 (h : 12 ≤ infoNat f 0 4) : decodeInfo f =
    .silcCF (BitVec.ofNat 2 (infoNat f 0 4)) (BitVec.ofNat 172 (infoNat f 4 172)) := by
  have hsilc : ∀ v : BitVec 4, 12 ≤ v.toNat → v ≠ 0x8#4 ∧ v ≠ 0xA#4 ∧ v ≠ 0xB#4 ∧ v.msb ≠ false ∧ v ≠ 0x9#4 ∧
      v.extractLsb' 0 2 = BitVec.ofNat 2 v.toNat := by decide
  rw [← msb_toNat] at h ⊢
  obtain ⟨h8, hA, hB, hmsb, h9, hlow⟩ := hsilc _ h
  rw [decodeInfo_unrouted h8 hA hB, infoSilc, if_neg hmsb, if_neg h9, hlow, msb_eq_ofNat f 4]

/-- SILC 0xB is routed by its subchannel (R89). -/
theorem decodeInfo_silc_11 (h : infoNat f 0 4 = 11) : decodeInfo f =
    if infoNat f 4 4 = 0 then .bmch (BitVec.ofNat 168 (infoNat f 8 168))
    else .bmchOtherSub (BitVec.ofNat 4 (infoNat f 4 4)) (BitVec.ofNat 168 (infoNat f 8 168)) := by
  have hsub : infoSub f = 0#4 ↔ infoNat f 4 4 = 0 := by
    rw [← msb_toNat, ← BitVec.toNat_inj]
    rfl
  rw [decodeInfo_silcBmch (infoSilc_eq_of_infoNat 0xB#4 h), if_congr hsub rfl rfl, bmchPayload, infoSub,
    msb_eq_ofNat f 8, msb_eq_ofNat f 4 4]

end

/-! #### Reserved bits (R87, R88, R99) -/

/-- A field that a mask leaves out does not see it. -/
theorem msb_xor_mask {m : Info} {off w : Nat} (h : msb m off w = 0#w) (f : Info) :
    msb (f ^^^ m) off w = msb f off w := by
  rw [msb_xor, h, BitVec.xor_zero]

theorem bitAt_xor_mask {m : Info} {i : Nat} (h : bitAt m i = false) (f : Info) : bitAt (f ^^^ m) i = bitAt f i := by
  rw [bitAt_xor, h, Bool.xor_false]

/-- Bit 23 of a SechBlock is in no field. -/
theorem sechFields_xor_reserved (f : Info) : sechFields (f ^^^ (1#176 <<< 152)) = sechFields f := by
  simp (disch := decide) only [sechFields, bitAt_xor_mask, msb_xor_mask]

/-- Bits 22 and 23 of a LongBlock are in no field. -/
theorem longFields_xor_reserved (f : Info) (r : BitVec 2) :
    longFields (f ^^^ (r.setWidth 176 <<< 152)) = longFields f := by
  have hmask : ∀ r : BitVec 2, let m : Info := r.setWidth 176 <<< 152
      bitAt m 4 = false ∧ msb m 5 4 = 0#4 ∧ msb m 9 7 = 0#7 ∧ msb m 16 6 = 0#6 ∧ msb m 24 152 = 0#152 := by decide
  obtain ⟨hlf, hseq, hrsv, hc6, hpay⟩ := hmask r
  simp only [longFields, bitAt_xor_mask hlf, msb_xor_mask hseq, msb_xor_mask hrsv, msb_xor_mask hc6, msb_xor_mask hpay]

theorem reassemble_sech {f : Info} (h : infoSilc f = 0x8#4) (s : State) :
    reassemble f s = sechPush (sechFields f) s := by
  simp [reassemble, h, Config.silcSech]

theorem reassemble_long {f : Info} (h : infoSilc f = 0xA#4) (s : State) :
    reassemble f s = longPush (longFields f) s := by
  simp [reassemble, h, Config.silcSech, Config.silcLong]

/-- Settles O40: the routing map row by row, and the reserved bits are in no field that routing reads. -/
theorem routingRunsTheDecodedRow : Obligations.RoutingRunsTheDecodedRow := by
  refine ⟨exec_decodeInfo, fun f => ⟨fun h => ?_, fun h => ?_, fun h h0 => ?_, fun h h0 => ?_, decodeInfo_silc_lt_8,
    decodeInfo_silc_9, decodeInfo_silc_ge_12⟩, fun f s => ⟨fun h => ?_, fun h r => ?_⟩⟩
  · rw [decodeInfo_sech (infoSilc_eq_of_infoNat _ h), sechFields_eq]
  · rw [decodeInfo_lmch (infoSilc_eq_of_infoNat _ h), longFields_eq]
  · rw [decodeInfo_silc_11 h, if_pos h0]
  · rw [decodeInfo_silc_11 h, if_neg h0]
  · have hsilc : infoSilc f = 0x8#4 := infoSilc_eq_of_infoNat _ h
    have hsilc' : infoSilc (f ^^^ (1#176 <<< 152)) = 0x8#4 := (msb_xor_mask (by decide) f).trans hsilc
    rw [reassemble_sech hsilc', reassemble_sech hsilc, sechFields_xor_reserved]
  · have hmask : ∀ r : BitVec 2, msb (r.setWidth 176 <<< 152 : Info) 0 4 = 0#4 := by decide
    have hsilc : infoSilc f = 0xA#4 := infoSilc_eq_of_infoNat _ h
    have hsilc' : infoSilc (f ^^^ (r.setWidth 176 <<< 152)) = 0xA#4 := (msb_xor_mask (hmask r) f).trans hsilc
    rw [reassemble_long hsilc', reassemble_long hsilc, longFields_xor_reserved]

/-- Settles O41: the unrouted rows drop their block. -/
theorem unroutedBlocksChangeNothing : Obligations.UnroutedBlocksChangeNothing :=
  fun _ => ⟨fun _ _ => rfl, fun _ => rfl, fun _ _ => rfl, fun _ _ => rfl⟩

/-- Settles O55: the record holds the payload's 168 / 8 bytes. -/
theorem blockApplicationMessageIsPassedThrough : Obligations.BlockApplicationMessageIsPassedThrough :=
  fun payload _ => ⟨rfl, bytesOf_length payload⟩

/-! ### Service messages (R272 to R277) -/

theorem sechContinues_iff {b : SechBlock} {a : Sech} : sechContinues b a = true ↔ SechFollows b a := by
  simp [sechContinues]

section
variable {b : SechBlock} {a : Sech}

theorem sechNext_zero (h : b.bn = 0#4) : sechNext b a = sechComplete b.lf (sechStarted b) := by
  rw [sechNext, if_pos h]
  rfl

theorem sechNext_follows (h0 : b.bn ≠ 0#4) (h : SechFollows b a) (hbuf : a.buf.length = a.len.toNat) :
    sechNext b a = sechComplete b.lf (sechContinued b a) := by
  rw [sechNext, if_neg h0, if_pos (sechContinues_iff.mpr h), sechAppend, sechBytes_eq hbuf]
  rfl

theorem sechNext_otherwise (h0 : b.bn ≠ 0#4) (h : ¬ SechFollows b a) : sechNext b a = (sechEmptied a, none) := by
  rw [sechNext, if_neg h0, if_neg (mt sechContinues_iff.mp h)]
  rfl

end

theorem exec_sech {b : SechBlock} {s : State} {a : Sech} {r : Option Record} (h : sechNext b s.sech = (a, r)) :
    exec (.sech b) s = .next (driveStatus (emitRec? r { s with sech := a })) := by
  show Host.Outcome.next (driveStatus (sechPush b s)) = _
  rw [sechPush, h]

/-- What an accepted fragment answers, by its last-fragment flag (R276). -/
theorem exec_sech_accepted {b : SechBlock} {s : State} {a : Sech} (h : sechNext b s.sech = sechComplete b.lf a) :
    (b.lf = false → exec (.sech b) s = .next (driveStatus { s with sech := a })) ∧
    (b.lf = true → exec (.sech b) s = .next (driveStatus
      (emitRec (.sech (sechRecord a)) { s with sech := sechEmptied a }))) := by
  constructor <;> intro hlf <;> rw [hlf] at h <;> exact exec_sech h

/-- Settles O42: block 0 is accepted as the start of an accumulation, whatever there was. -/
theorem serviceBlockZeroStartsAnAccumulation : Obligations.ServiceBlockZeroStartsAnAccumulation :=
  fun _ _ h0 => exec_sech_accepted (sechNext_zero h0)

/-- Settles O43: a block that follows is accepted behind the bytes there are. -/
theorem serviceContinuationIsAppended : Obligations.ServiceContinuationIsAppended :=
  fun _ _ h0 hfollows hbuf => exec_sech_accepted (sechNext_follows h0 hfollows hbuf)

/-- Settles O44: any other block is not accepted. -/
theorem serviceBlockOutOfSequenceEmpties : Obligations.ServiceBlockOutOfSequenceEmpties :=
  fun _ _ h0 hfollows => exec_sech (sechNext_otherwise h0 hfollows)

/-- Settles O45: the bytes of the record are the whole buffer. -/
theorem serviceRecordContent : Obligations.ServiceRecordContent := by
  intro a hbuf
  rw [sechRecord, sechBytes_eq hbuf]
  rfl

/-! ### Data type 5: name and time (R278, R279, R281) -/

theorem dt5Name_cons (n : Byte) (rest : List Byte) :
    dt5Name (n :: rest) = if n.toNat ≤ rest.length then some (rest.take n.toNat) else none := by
  have hfits : 1 + n.toNat ≤ (n :: rest).length ↔ n.toNat ≤ rest.length := by
    rw [List.length_cons]
    omega
  exact if_congr hfits rfl rfl

theorem dt5TimeBits_cons (n : Byte) (rest : List Byte) : dt5TimeBits (n :: rest) =
    if n.toNat + 5 ≤ rest.length then some (BitVec.ofNat 40 (beNat ((rest.drop n.toNat).take 5))) else none := by
  have hfits : 1 + n.toNat + 5 ≤ (n :: rest).length ↔ n.toNat + 5 ≤ rest.length := by
    rw [List.length_cons]
    omega
  exact if_congr hfits rfl rfl

theorem dt5Time_none {p : List Byte} (h : dt5TimeBits p = none) : dt5Time p = none := by
  rw [dt5Time, h]

theorem dt5Time_some {p : List Byte} {t : BitVec 40} (h : dt5TimeBits p = some t) :
    dt5Time p = if dt5Valid (dt5Fields t) then some (dt5Fields t) else none := by
  rw [dt5Time, h]

/-- Settles O47: both fields are present only where they fit, and the time comes after the name. -/
theorem nameOrTimeThatDoesNotFitIsAbsent : Obligations.NameOrTimeThatDoesNotFitIsAbsent := by
  intro n rest
  have htime (h : rest.length < n.toNat + 5) : dt5Time (n :: rest) = none :=
    dt5Time_none (by rw [dt5TimeBits_cons, if_neg (by omega)])
  refine ⟨fun h => ?_, fun h => ⟨?_, htime (by omega)⟩, htime⟩
  · rw [dt5Name_cons, if_pos h]
  · rw [dt5Name_cons, if_neg (by omega)]

/-- Bytes lose no bit (R151). -/
theorem bytesOf_injective (k : Nat) : Function.Injective (bytesOf (n := 8 * k)) := by
  intro f g h
  have hseq : seqOf f = seqOf g := by rw [← bitsOf_bytesOf, h, bitsOf_bytesOf]
  exact eq_of_bitAt fun i hi => List.map_inj_left.mp hseq i (List.mem_range.mpr hi)

/-- The bytes of a sequence denote its number (R67, R151). -/
theorem ofNat_beNat_bytesOf (t : BitVec 40) : BitVec.ofNat 40 (beNat (bytesOf t)) = t :=
  bytesOf_injective 5 (bytesOf_beNat (bytesOf t))

section
variable {name rest : List Byte} {n : Byte} (hn : n.toNat = name.length)
include hn

theorem dt5Name_append : dt5Name (n :: (name ++ rest)) = some name := by
  rw [dt5Name_cons, hn, if_pos (by simp), List.take_left]

/-- The 40 bits after the name are found where they were put. -/
theorem dt5TimeBits_append (t : BitVec 40) : dt5TimeBits (n :: (name ++ (bytesOf t ++ rest))) = some t := by
  rw [dt5TimeBits_cons, hn, if_pos (by simp), List.drop_left, List.take_left' (bytesOf_length t), ofNat_beNat_bytesOf]

end

/-- The per-field ranges; an offset is in range exactly where its size is (R281). -/
theorem dt5Valid_dt5Fields (t : BitVec 40) : dt5Valid (dt5Fields t) = true ↔
    let date := mjdToDate (msb t 0 17).toNat
    1 ≤ date.2.1 ∧ date.2.1 ≤ 12 ∧ 1 ≤ date.2.2 ∧ date.2.2 ≤ 31 ∧ (msb t 17 5).toNat ≤ 23 ∧
      (msb t 22 6).toNat ≤ 59 ∧ (msb t 28 6).toNat ≤ 59 ∧ (msb t 35 5).toNat ≤ 28 := by
  have hoffset (negative : Bool) (n : Nat) :
      -28 ≤ (if negative then -(n : Int) else n) ∧ (if negative then -(n : Int) else n) ≤ 28 ↔ n ≤ 28 := by
    split <;> omega
  rw [dt5Valid, decide_eq_true_iff]
  dsimp only [dt5Fields]
  rw [hoffset]

/-- Settles O46: name and time are found where they were put, and the time is kept where it is valid. -/
theorem nameAndTimeAreDecoded : Obligations.NameAndTimeAreDecoded := by
  intro name rest t hlen p date ofs
  have hn : (BitVec.ofNat 8 name.length).toNat = name.length := by
    rw [BitVec.toNat_ofNat]
    omega
  have hp : p = BitVec.ofNat 8 name.length :: (name ++ (bytesOf t ++ rest)) :=
    congrArg (_ :: ·) (List.append_assoc name _ rest)
  rw [hp]
  exact ⟨dt5Name_append hn, (dt5Time_some (dt5TimeBits_append hn t)).trans (if_congr (dt5Valid_dt5Fields t) rfl rfl)⟩

/-! ### The date (R280) -/

section
variable {mjd : Int}

/-! In the range of R280 no numerator is negative, so truncating division is the one that rounds down. -/

theorem mjdYear_eq (h : 15079 ≤ mjd) : mjdYear mjd = (20 * mjd - 301564) / 7305 :=
  Int.tdiv_eq_ediv_of_nonneg (by omega)

theorem mjdYear_bounds (h : 15079 ≤ mjd) (h' : mjd ≤ 88127) : 0 ≤ mjdYear mjd ∧ mjdYear mjd ≤ 199 := by
  rw [mjdYear_eq h]
  omega

theorem mjdYearDays_eq (h : 15079 ≤ mjd) (h' : mjd ≤ 88127) : mjdYearDays mjd = mjdYear mjd * 1461 / 4 :=
  Int.tdiv_eq_ediv_of_nonneg (by have := mjdYear_bounds h h'; omega)

/-- The day of the March year: 123 stands for 1 March, 487 for 28 February and 488 for 29 February, which only the year
before a leap year reaches. -/
theorem marchDay_bounds (h : 15079 ≤ mjd) (h' : mjd ≤ 88127) :
    123 ≤ mjd - 14956 - mjdYearDays mjd ∧ mjd - 14956 - mjdYearDays mjd ≤ 488 ∧
      (mjd - 14956 - mjdYearDays mjd = 488 → mjdYear mjd % 4 = 3 ∧ mjdYear mjd ≠ 199) := by
  rw [mjdYearDays_eq h h', mjdYear_eq h]
  omega

theorem mjdMonth_eq (h : 15079 ≤ mjd) (h' : mjd ≤ 88127) :
    mjdMonth mjd = (10000 * (mjd - mjdYearDays mjd) - 149561000) / 306001 :=
  Int.tdiv_eq_ediv_of_nonneg (by have := marchDay_bounds h h'; omega)

end

/-- The days before the March year `1900 + y`: of its century years only 2000 is a leap year. -/
theorem marchYear_days {y : Int} (hy : 0 ≤ y) (hy' : y ≤ 199) :
    365 * (1900 + y) + (1900 + y) / 4 - (1900 + y) / 100 + (1900 + y) / 400 = 693960 + y * 1461 / 4 := by
  have hcentury : (1900 + y) / 100 - (1900 + y) / 400 = 15 := by
    by_cases h : y < 100 <;> omega
  have hfour : y * 1461 / 4 = 365 * y + y / 4 := by omega
  omega

/-- The date of day `e` of the March year `1900 + y`, in month `m` (4 for March to 15 for February). -/
theorem gregorian_of_marchYear {y e m : Int} (hy : 0 ≤ y) (hy' : y ≤ 199) (he : 123 ≤ e) (he' : e ≤ 488)
    (hleap : e = 488 → y % 4 = 3 ∧ y ≠ 199) (hm : m = (10000 * e - 1000) / 306001) :
    let k : Int := if m = 14 ∨ m = 15 then 1 else 0
    let d := (1900 + y + k, m - 1 - 12 * k, e - (m * 306001).tdiv 10000)
    gregorianMjd d.1 d.2.1 d.2.2 = 14956 + y * 1461 / 4 + e ∧ 1 ≤ d.2.1 ∧ d.2.1 ≤ 12 ∧ 1 ≤ d.2.2 ∧
      d.2.2 ≤ monthDays d.1 d.2.1 := by
  have hm4 : 4 ≤ m := by omega
  have hm15 : m ≤ 15 := by omega
  have hdays := marchYear_days hy hy'
  -- In each of the twelve months all but `y` and `e` are numbers.
  interval_cases m <;> simp [gregorianMjd, monthDays] <;> omega

/-- Settles O48: a day of the range is day 123 to 488 of a March year, whose months are those of the formula; the four
days outside it are evaluated. -/
theorem dateConversionIsGregorian : Obligations.DateConversionIsGregorian := by
  refine ⟨fun mjd h h' => ?_, by decide, by decide, by decide, by decide⟩
  obtain ⟨hy, hy'⟩ := mjdYear_bounds h h'
  obtain ⟨he, he', hleap⟩ := marchDay_bounds h h'
  have hmonth : mjdMonth mjd = (10000 * (mjd - 14956 - mjdYearDays mjd) - 1000) / 306001 := by
    rw [mjdMonth_eq h h']
    congr 1
    omega
  have hday : 14956 + mjdYear mjd * 1461 / 4 + (mjd - 14956 - mjdYearDays mjd) = mjd := by
    rw [← mjdYearDays_eq h h']
    omega
  have hdate := gregorian_of_marchYear hy hy' he he' hleap hmonth
  rwa [hday] at hdate

/-! ### Long messages: the L4 row (R286 to R290) -/

/-- The row that a message decodes to emits the record that parsing it gives (R288 to R290). -/
theorem exec_of_decode_l4 {bytes : List Byte} {i : Instr} (h : decode (.l4 bytes) = .instr i) (s : State) :
    exec i s = .next (driveStatus (emitRec? (parseL4 bytes) s)) := by
  have hdecode : decodeL4 bytes = .instr i := h
  unfold decodeL4 at hdecode
  unfold parseL4
  generalize readL4 bytes = r at hdecode ⊢
  cases r with
  | empty => cases hdecode
  | truncated => cases hdecode
  | audience first last ext type rest => cases hdecode; rfl
  | message type m =>
    dsimp only at hdecode ⊢
    split_ifs at hdecode ⊢ <;> cases hdecode <;> rfl

/-- A record is emitted exactly where the header CRC passes (R289). -/
theorem emitRec?_l4Record (type : BitVec 4) (body : LongBody) (m : L4Message) (s : State) :
    emitRec? (l4Record type body m) s =
      if crc8 (bitsOf (l4HeaderBytes type m)) = m.crc then
        emitRec (.long ⟨m.first, m.last, m.ext.isSome, type, m.ext, body⟩) s else s := by
  by_cases h : crc8 (bitsOf (l4HeaderBytes type m)) = m.crc <;> simp [l4Record, l4CrcOk, h]

/-- Settles O53: each row emits what its body gives. -/
theorem longMessagesEmitTheirRecord : Obligations.LongMessagesEmitTheirRecord :=
  fun s => ⟨fun _ _ _ _ _ => rfl,
    fun m => congrArg Host.Outcome.next (congrArg driveStatus (emitRec?_l4Record 12#4 (.tlv (tlvParse m.data)) m s)),
    fun type m => congrArg Host.Outcome.next (congrArg driveStatus (emitRec?_l4Record type (.payload m.data) m s))⟩

/-- Two bytes after byte 0 are enough for the extension byte and the CRC-8. -/
theorem l4Split_message {bytes : List Byte} (h : 2 ≤ bytes.length) (first last ext : Bool) (type : BitVec 4) :
    ∃ m, l4Split first last ext type bytes = .message type m := by
  match bytes, h with
  | _ :: _ :: _, _ => cases ext <;> exact ⟨_, rfl⟩

/-- Three bytes are enough for every header. -/
theorem readL4_cases {bytes : List Byte} (h : 3 ≤ bytes.length) :
    (∃ first last ext type rest, readL4 bytes = .audience first last ext type rest) ∨
      ∃ type m, readL4 bytes = .message type m := by
  match bytes, h with
  | b0 :: rest, h =>
    by_cases hca : b0.getLsbD 4 = true
    · exact .inl ⟨_, _, _, _, rest, if_pos hca⟩
    · obtain ⟨m, hm⟩ := l4Split_message (Nat.le_of_succ_le_succ h) (b0.getLsbD 7) (b0.getLsbD 6) (b0.getLsbD 5)
        (b0.extractLsb' 0 4)
      exact .inr ⟨_, m, (if_neg hca).trans hm⟩

/-- Settles O6: with its header whole, a message is decoded by its audience flag and its type. -/
theorem longMessagesAlwaysHaveAHeader : Obligations.LongMessagesAlwaysHaveAHeader := by
  intro bytes hlen
  rcases readL4_cases (by omega : 3 ≤ bytes.length) with ⟨first, last, ext, type, rest, hread⟩ | ⟨type, m, hread⟩
  · exact .inl ⟨first, last, ext, type, rest, by rw [decode, decodeL4, hread]⟩
  · have hdecode : decode (.l4 bytes) =
        if type = Config.l4TypeTlv then .instr (.l4Tlv m) else .instr (.l4Payload type m) := by
      rw [decode, decodeL4, hread]
    by_cases htype : type = Config.l4TypeTlv
    · exact .inr (.inl ⟨m, hdecode.trans (if_pos htype)⟩)
    · exact .inr (.inr ⟨type, m, htype, hdecode.trans (if_neg htype)⟩)

/-! ### Long messages: the blocks (R282 to R286) -/

theorem longCrcOk_iff {b : LongBlock} : longCrcOk b = true ↔ MiniHeaderPasses b := beq_iff_eq

theorem longContinues_iff {b : LongBlock} {a : Long} : longContinues b a = true ↔ LongFollows b a := by
  have hseq : b.seq = a.seq + 1#4 ↔ b.seq.toNat = (a.seq.toNat + 1) % 16 := by
    rw [← BitVec.toNat_inj, BitVec.toNat_add]
    rfl
  simp [longContinues, hseq, and_assoc]

/-- An accepted block leaves the buffer with its bytes, and the last one has them parsed (R284, R286). -/
theorem longAccept_eq {b : LongBlock} {a : Long} (hvalid : a.valid = true)
    (hlen : a.len = BitVec.ofNat 13 a.buf.length) (hlt : a.buf.length < 8192) :
    longAccept b a = (longHolding b a.buf, if b.lf then parseL4 a.buf else none) := by
  have hbuf : a.buf.length = a.len.toNat := by
    rw [hlen, BitVec.toNat_ofNat]
    omega
  have hbytes : longBytes { a with seq := b.seq, last := b.lf } = a.buf := longBytes_eq hbuf
  rw [longAccept, longHolding, ← hlen, ← hvalid, hbytes]

section
variable {b : LongBlock} {a : Long}

theorem longNext_badCrc (h : ¬ MiniHeaderPasses b) : longNext b a = (longEmptied a, none) := by
  rw [longNext, if_neg (mt longCrcOk_iff.mp h)]
  rfl

variable (hcrc : MiniHeaderPasses b)
include hcrc

theorem longNext_restart (h : ¬ LongFollows b a) :
    longNext b a = (longHolding b (bytesOf b.pay), if b.lf then parseL4 (bytesOf b.pay) else none) := by
  rw [longNext, if_pos (longCrcOk_iff.mpr hcrc), if_neg (mt longContinues_iff.mp h)]
  have hlen : (longRestart b a).buf.length = 19 := longPayload_length b
  exact longAccept_eq rfl (by rw [hlen]; rfl) (by rw [hlen]; decide)

theorem longNext_append (h : LongFollows b a) (hbuf : a.buf.length = a.len.toNat) (hfits : a.len.toNat + 19 ≤ 4864) :
    longNext b a =
      (longHolding b (a.buf ++ bytesOf b.pay), if b.lf then parseL4 (a.buf ++ bytesOf b.pay) else none) := by
  have hlen : (a.buf ++ bytesOf b.pay).length = a.len.toNat + 19 := by
    rw [List.length_append, hbuf, longPayload_length]
  have happend : longAppend b a = { a with buf := a.buf ++ bytesOf b.pay, len := a.len + 19#13 } := by
    rw [longAppend, longBytes_eq hbuf]
    rfl
  rw [longNext, if_pos (longCrcOk_iff.mpr hcrc), if_pos (longContinues_iff.mpr h), Config.blockPayloadBytes,
    Config.longMaxBytes, if_pos hfits, happend]
  refine longAccept_eq h.1 ?_ ?_
  · show a.len + 19#13 = BitVec.ofNat 13 (a.buf ++ bytesOf b.pay).length
    rw [hlen, BitVec.ofNat_add, BitVec.ofNat_toNat, BitVec.setWidth_eq]
  · show (a.buf ++ bytesOf b.pay).length < 8192
    omega

theorem longNext_overflow (h : LongFollows b a) (hover : 4864 < a.len.toNat + 19) :
    longNext b a = (longEmptied a, none) := by
  rw [longNext, if_pos (longCrcOk_iff.mpr hcrc), if_pos (longContinues_iff.mpr h), Config.blockPayloadBytes,
    Config.longMaxBytes, if_neg (Nat.not_le.mpr hover)]
  rfl

end

theorem exec_lmch {b : LongBlock} {s : State} {a : Long} {r : Option Record} (h : longNext b s.long = (a, r)) :
    exec (.lmch b) s = .next (driveStatus (emitRec? r { s with long := a })) := by
  show Host.Outcome.next (driveStatus (longPush b s)) = _
  rw [longPush, h]

/-- Settles O49: a bad CRC empties the accumulator. -/
theorem longBlockWithABadCrcEmpties : Obligations.LongBlockWithABadCrcEmpties :=
  fun _ _ hcrc => exec_lmch (longNext_badCrc hcrc)

/-- An accepted block that is not the last emits nothing (R284). -/
theorem exec_lmch_notLast {b : LongBlock} {s : State} {bytes : List Byte} (hlf : b.lf = false)
    (h : longNext b s.long = (longHolding b bytes, if b.lf then parseL4 bytes else none)) :
    exec (.lmch b) s = .next (driveStatus { s with long := longHolding b bytes }) := by
  rw [hlf] at h
  exact exec_lmch h

/-- Settles O50: a block that follows nothing restarts the buffer with its own bytes. -/
theorem longBlockOutOfSequenceRestarts : Obligations.LongBlockOutOfSequenceRestarts :=
  fun _ _ hcrc hfollows hlf => exec_lmch_notLast hlf (longNext_restart hcrc hfollows)

/-- Settles O51: whether the bytes fit decides between appending and emptying. -/
theorem longContinuationIsAppendedOrOverflows : Obligations.LongContinuationIsAppendedOrOverflows :=
  fun _ _ hcrc hfollows hbuf =>
    ⟨fun hfits hlf => exec_lmch_notLast hlf (longNext_append hcrc hfollows hbuf hfits),
      fun hover => exec_lmch (longNext_overflow hcrc hfollows hover)⟩

/-- Settles O52: restarting or appending, the assembled bytes are parsed, which is running their row. -/
theorem lastLongFragmentRunsItsL4Row : Obligations.LastLongFragmentRunsItsL4Row := by
  intro b s i bytes hcrc hlf hbuf hbytes hdecode
  have hnext : longNext b s.long = (longHolding b bytes, if b.lf then parseL4 bytes else none) := by
    rcases hbytes with ⟨hfollows, rfl⟩ | ⟨hfollows, hfits, rfl⟩
    · exact longNext_restart hcrc hfollows
    · exact longNext_append hcrc hfollows hbuf hfits
  rw [exec_lmch hnext, hlf, if_pos rfl, exec_of_decode_l4 hdecode]

/-! ### TLV records (R97, R291) -/

@[simp] theorem tlvBytes_nil : tlvBytes [] = [] := rfl

@[simp] theorem tlvBytes_cons (r : Tlv) (records : List Tlv) :
    tlvBytes (r :: records) = r.tag :: r.length :: (r.value ++ tlvBytes records) := by
  simp [tlvBytes]

/-- A whole record in front is read, whatever follows. -/
theorem tlvParseFuel_record {r : Tlv} (h : r.value.length = r.length.toNat) (fuel : Nat) (rest : List Byte) :
    tlvParseFuel (fuel + 1) (r.tag :: r.length :: (r.value ++ rest)) = r :: tlvParseFuel fuel rest := by
  rw [tlvParseFuel, ← h, if_pos (by simp), List.take_left, List.drop_left]

/-- A tail holds no record. -/
theorem tlvParseFuel_tail {tail : List Byte} (h : TlvTail tail) (fuel : Nat) : tlvParseFuel fuel tail = [] := by
  cases fuel with
  | zero => rfl
  | succ fuel =>
    rcases h with hshort | ⟨tag, len, rest, rfl, hcut⟩
    · match tail, hshort with
      | [], _ => rfl
      | [_], _ => rfl
    · rw [tlvParseFuel, if_neg (by omega)]

/-- Records written one after another are read back, where the fuel is enough for the bytes. -/
theorem tlvParseFuel_tlvBytes {records : List Tlv} {tail : List Byte} {fuel : Nat}
    (hlen : ∀ r ∈ records, r.value.length = r.length.toNat) (htail : TlvTail tail)
    (hfuel : (tlvBytes records ++ tail).length ≤ fuel) : tlvParseFuel fuel (tlvBytes records ++ tail) = records := by
  induction records generalizing fuel with
  | nil => exact tlvParseFuel_tail htail fuel
  | cons r records ih =>
    obtain ⟨hr, hrecords⟩ := List.forall_mem_cons.mp hlen
    simp only [tlvBytes_cons, List.cons_append, List.append_assoc, List.length_cons, List.length_append] at hfuel ⊢
    obtain ⟨fuel, rfl⟩ : ∃ k, fuel = k + 1 := ⟨fuel - 1, by omega⟩
    rw [tlvParseFuel_record hr, ih hrecords (by rw [List.length_append]; omega)]

/-- The bytes `d` are those of whole records and a tail. -/
def RecordsAndTail (records : List Tlv) (d : List Byte) : Prop :=
  ∃ tail, d = tlvBytes records ++ tail ∧ (∀ r ∈ records, r.value.length = r.length.toNat) ∧ TlvTail tail

theorem RecordsAndTail.nil {d : List Byte} (h : TlvTail d) : RecordsAndTail [] d := ⟨d, rfl, nofun, h⟩

/-- A whole record before others. -/
theorem RecordsAndTail.cons {tag len : Byte} {rest : List Byte} {records : List Tlv} (hwhole : len.toNat ≤ rest.length)
    (h : RecordsAndTail records (rest.drop len.toNat)) :
    RecordsAndTail (⟨tag, len, rest.take len.toNat⟩ :: records) (tag :: len :: rest) := by
  obtain ⟨tail, hrest, hrecords, htail⟩ := h
  refine ⟨tail, ?_, List.forall_mem_cons.mpr ⟨List.length_take_of_le hwhole, hrecords⟩, htail⟩
  rw [tlvBytes_cons, List.cons_append, List.cons_append, List.append_assoc, ← hrest, List.take_append_drop]

/-- Every byte string is the records read from it and a tail, where the fuel is enough for the bytes. -/
theorem tlvParseFuel_recordsAndTail {fuel : Nat} {d : List Byte} (hfuel : d.length ≤ fuel) :
    RecordsAndTail (tlvParseFuel fuel d) d := by
  have hnone {d : List Byte} (h : TlvTail d) (fuel : Nat) : RecordsAndTail (tlvParseFuel fuel d) d := by
    rw [tlvParseFuel_tail h]
    exact .nil h
  induction fuel generalizing d with
  | zero => exact hnone (.inl (by omega)) 0
  | succ fuel ih =>
    match d with
    | [] => exact hnone (.inl (by simp)) _
    | [_] => exact hnone (.inl (by simp)) _
    | tag :: len :: rest =>
      by_cases hwhole : len.toNat ≤ rest.length
      · rw [List.length_cons, List.length_cons] at hfuel
        rw [tlvParseFuel, if_pos hwhole]
        exact .cons hwhole (ih (by rw [List.length_drop]; omega))
      · exact hnone (.inr ⟨tag, len, rest, rfl, by omega⟩) _

/-- Settles O54: a message's own length is fuel enough. -/
theorem tlvParsingReadsWholeRecords : Obligations.TlvParsingReadsWholeRecords :=
  ⟨fun _ _ hlen htail => tlvParseFuel_tlvBytes hlen htail (Nat.le_refl _),
    fun _ => tlvParseFuel_recordsAndTail (Nat.le_refl _)⟩

/-! ### Channel independence (R295) -/

/-- From `s` to `u` an accumulator changes only where a block of its own channel is driven. -/
def OnlyItsChannel (s u : State) : Prop :=
  (u.sech ≠ s.sech → ∃ block, u.out.l2 = some block ∧ infoSilc (infoOf block.frame) = 0x8#4) ∧
  (u.long ≠ s.long → ∃ block, u.out.l2 = some block ∧ infoSilc (infoOf block.frame) = 0xA#4)

theorem OnlyItsChannel.of_eq {s u : State} (hsech : u.sech = s.sech) (hlong : u.long = s.long) :
    OnlyItsChannel s u :=
  ⟨fun h => absurd hsech h, fun h => absurd hlong h⟩

/-- A block is routed in the step that drives it (R239, R270). -/
theorem reassemble_emitL2_onlyItsChannel (v : BicWord) (f : Frame) (pos : Option Nat) (s : State) :
    OnlyItsChannel s (reassemble (infoOf f) (emitL2 v f pos s)) := by
  have hl2 : (reassemble (infoOf f) (emitL2 v f pos s)).out.l2 =
      some ⟨v, f, pos.isSome, BitVec.ofNat 9 (pos.getD 0)⟩ := by rw [reassemble_out_l2, emitL2_out]
  exact ⟨fun hne => ⟨_, hl2, not_not.mp fun hsilc => hne (reassemble_sech_of_ne hsilc _)⟩,
    fun hne => ⟨_, hl2, not_not.mp fun hsilc => hne (reassemble_long_of_ne hsilc _)⟩⟩

theorem bitPipeline_onlyItsChannel (b : Bool) (s : State) : OnlyItsChannel s (bitPipeline b s) := by
  cases ha : (syncStep b s.sync).1 with
  | none => rw [bitPipeline_none ha]; exact .of_eq rfl rfl
  | some a =>
    rw [bitPipeline_some ha]
    exact reassemble_emitL2_onlyItsChannel a.bic a.frame a.pos { s with sync := (syncStep b s.sync).2 }

theorem samplePipeline_onlyItsChannel (x : Scalar) (s : State) : OnlyItsChannel s (samplePipeline x s) := by
  cases hb : (demodStep x s.demod).1 with
  | none => rw [samplePipeline_none hb]; exact .of_eq rfl rfl
  | some b =>
    rw [samplePipeline_some hb]
    exact bitPipeline_onlyItsChannel b (emitBit b { s with demod := (demodStep x s.demod).2 })

/-- Settles O56: only the pipelines reach the router, and they route the block that they drive. -/
theorem channelsAreIndependent : Obligations.ChannelsAreIndependent := by
  intro s t w rest hport hstep hreset hconfig
  rcases step_cases hstep with ⟨hnil, -⟩ | ⟨w', rest', u, hport', heffect, rfl⟩
  · rw [hport] at hnil
    cases hnil
  rw [hport] at hport'
  cases hport'
  have honly : OnlyItsChannel (beginStep { s with port := rest }) u := by
    cases heffect with
    | nothing _ => exact .of_eq rfl rfl
    | reset h => exact absurd h hreset
    | configured m f h => exact absurd h (hconfig m f)
    | sampled x _ _ => exact samplePipeline_onlyItsChannel _ _
    | received b _ _ => exact bitPipeline_onlyItsChannel b _
    | ended _ => exact .of_eq rfl rfl
    | ignored _ _ => exact .of_eq rfl rfl
  exact honly

end Sys2Proof.Machine
end

section
/-! Proof of the statement about the error (60_exceptions.md): which command raises `ConfigError`. -/

namespace Sys2Proof.Machine

/-! ### Who sets `CFG_ERR` (R340, R344) -/

/-- CONFIG raises its error in SAMPLES mode with a rate outside the legal range (R123). -/
theorem configure_cfgErr_iff (mode : InputMode) (fsIn : BitVec 32) (s : State) :
    (configure mode fsIn s).status.cfgErr = true ↔
      mode = .samples ∧ ¬ (64000 ≤ fsIn.toNat ∧ fsIn.toNat ≤ 64000000) := by
  have hrange : ratioLegal fsIn = false ↔ ¬ (64000 ≤ fsIn.toNat ∧ fsIn.toNat ≤ 64000000) := by
    rw [ratioLegal_eq_false_iff]
    omega
  rw [configure_eq, ← hrange]
  simp

/-- Of all that a command can do, only the refused CONFIG sets `CFG_ERR`. -/
theorem CommandEffect.cfgErr {w : CmdWord} {s u : State} (he : CommandEffect w s u) (hs : s.status.cfgErr = false)
    (hu : u.status.cfgErr = true) :
    ∃ fsIn, decodeCmd w = .config .samples fsIn ∧ ¬ (64000 ≤ fsIn.toNat ∧ fsIn.toNat ≤ 64000000) := by
  cases he with
  | nothing _ => simp [hs] at hu
  | reset _ => simp at hu
  | configured m f hdecode =>
    obtain ⟨rfl, hrange⟩ := (configure_cfgErr_iff m f s).mp hu
    exact ⟨f, hdecode, hrange⟩
  | sampled _ _ _ => simp [hs] at hu
  | received _ _ _ => simp [hs] at hu
  | ended _ => simp [hs] at hu
  | ignored _ _ => simp [hs] at hu

/-- Settles O15: a step without a command changes no flag, and of the commands only a refused CONFIG sets this one. -/
theorem onlyARefusedConfigSetsCfgErr : Obligations.OnlyARefusedConfigSetsCfgErr := by
  intro s t hstep hs ht
  rcases step_cases hstep with ⟨-, rfl⟩ | ⟨w, rest, u, hport, heffect, rfl⟩
  · have hidle : (idle s).status = s.status := rfl
    rw [hidle, hs] at ht
    cases ht
  · obtain ⟨fsIn, hdecode, hrange⟩ := heffect.cfgErr hs ht
    exact ⟨w, rest, fsIn, hport, hdecode, hrange⟩

end Sys2Proof.Machine
end
